-- ==== Sys2Proof/Word.lean ====
section
/-! DEFINITION. The word types of the block (00_scope.md R10): `u8` and `u32`. Field extraction and byte order stand
in Decode.lean, where a later repair can mend them. -/

namespace Sys2Proof

/-- `u8` of R10: one byte of the link. -/
abbrev Byte := BitVec 8

/-- `u32` of R10: an address, a register value, a size operand. -/
abbrev Word := BitVec 32

end Sys2Proof
end

