-- ==== Sys2Proof/Config.lean ====
section
/-! DEFINITION. What an implementation fixes: the constants of 00_scope.md R6, the parameters of R7 and R9, the
handshake constants of R290 (data only), and the body-less constants that stand for the values no rule fixes. -/

namespace Sys2Proof

/-- The closed set of eleven wire opcodes (30_encoding.md R86, R98), in the order of the opcode table. -/
inductive WireOp where
  | dmaWrite | dmaRead | internalWrite | internalRead | terminate | repeatLast | dmaExtWrite | dmaExtRead
  | singleWrite | singleRead | reset
  deriving DecidableEq, Repr

/-- The byte values of the eleven wire opcodes, the parameters `OPC_*` of 00_scope.md R9. -/
structure Opcodes where
  dmaWrite : Byte
  dmaRead : Byte
  internalWrite : Byte
  internalRead : Byte
  terminate : Byte
  repeatLast : Byte
  dmaExtWrite : Byte
  dmaExtRead : Byte
  singleWrite : Byte
  singleRead : Byte
  reset : Byte
  deriving DecidableEq, Repr

/-- The parameters of 00_scope.md R7 and R9: "each is a named argument of the model". They stand in State as the
constant field `params` (log 2), so a statement about every state holds for every choice of them. -/
structure Params where
  /-- `OPC_DMA_WRITE` .. `OPC_RESET` -/
  opc : Opcodes
  /-- `CRC7_POLY`, the x^7 term implied -/
  crc7Poly : BitVec 7
  /-- `STATUS_MASK` -/
  statusMask : Byte
  /-- `FILL`, sent where the block only listens -/
  fill : Byte
  /-- `REG_RSP_RD` -/
  regRspRd : Nat
  /-- `REG_RSP_WR` -/
  regRspWr : Nat
  /-- `RD_RSP_LEN` -/
  rdRspLen : Nat
  /-- `WR_RSP_LEN` -/
  wrRspLen : Nat
  /-- `MAX_BLOCK` -/
  maxBlock : Nat
  /-- `REG_RCV_CTRL_0`, the receive-control register (R36) -/
  regRcvCtrl0 : Word
  /-- `REG_RCV_CTRL_1`, the source address of the inbound packet (R37) -/
  regRcvCtrl1 : Word
  /-- `REG_HIF_HDR`, the packed outbound header (R38) -/
  regHifHdr : Word
  /-- `REG_TX_CTRL`, the buffer-full flag and the busy bit (R39) -/
  regTxCtrl : Word
  /-- `REG_TX_ADDR`, the allocated destination address (R40) -/
  regTxAddr : Word
  /-- `REG_TX_COMMIT` (R41) -/
  regTxCommit : Word
  /-- `NEW_DATA_BIT` -/
  newDataBit : Nat
  /-- `TX_FLAG_BIT` -/
  txFlagBit : Nat
  /-- `TX_BUSY_BIT` -/
  txBusyBit : Nat
  /-- `TX_READY_BIT` -/
  txReadyBit : Nat
  /-- `GID_WIFI` -/
  gidWifi : Byte
  /-- `GID_IP` -/
  gidIp : Byte
  /-- the row of `WIFI_TABLE` for `RespConStateChanged` (30_encoding.md R104) -/
  wifiConState : Byte
  /-- the row of `WIFI_TABLE` for `RespGetSysTime` -/
  wifiSysTime : Byte
  /-- the row of `WIFI_TABLE` for `RespConnInfo` -/
  wifiConnInfo : Byte
  /-- the row of `WIFI_TABLE` for `RespScanResult` -/
  wifiScanResult : Byte
  /-- the other rows of `WIFI_TABLE`: opcode byte and the number of its named variant (log 20) -/
  wifiOther : List (Byte × Nat)
  /-- the rows of `SOCKET_TABLE` (30_encoding.md R105): opcode byte and the number of its named variant -/
  socketTable : List (Byte × Nat)
  /-- `CS_CONNECTED` -/
  csConnected : Byte
  /-- `CS_DISCONNECTED` -/
  csDisconnected : Byte
  /-- `CRC_FORCED` (00_scope.md R7) -/
  crcForced : Bool
  deriving DecidableEq, Repr

/-- `OPC(op)`: the byte an opcode is sent as. -/
def Opcodes.byteOf (o : Opcodes) : WireOp → Byte
  | .dmaWrite => o.dmaWrite
  | .dmaRead => o.dmaRead
  | .internalWrite => o.internalWrite
  | .internalRead => o.internalRead
  | .terminate => o.terminate
  | .repeatLast => o.repeatLast
  | .dmaExtWrite => o.dmaExtWrite
  | .dmaExtRead => o.dmaExtRead
  | .singleWrite => o.singleWrite
  | .singleRead => o.singleRead
  | .reset => o.reset

/-- The eleven opcode bytes in table order. -/
def Opcodes.toList (o : Opcodes) : List Byte :=
  [o.dmaWrite, o.dmaRead, o.internalWrite, o.internalRead, o.terminate, o.repeatLast, o.dmaExtWrite, o.dmaExtRead,
    o.singleWrite, o.singleRead, o.reset]

/-- The four opcode bytes of `WIFI_TABLE` that have a handler (30_encoding.md R104). -/
def Params.handledOpcodes (p : Params) : List Byte :=
  [p.wifiConState, p.wifiSysTime, p.wifiConnInfo, p.wifiScanResult]

/-- The spec defaults of the opcode bytes (30_encoding.md R86, decision D1). PRESUMED: general knowledge (log 2). -/
def Opcodes.default : Opcodes where
  dmaWrite := 0xC1
  dmaRead := 0xC2
  internalWrite := 0xC3
  internalRead := 0xC4
  terminate := 0xC5
  repeatLast := 0xC6
  dmaExtWrite := 0xC7
  dmaExtRead := 0xC8
  singleWrite := 0xC9
  singleRead := 0xCA
  reset := 0xCF

/-- The spec defaults of 00_scope.md R9, PRESUMED where the spec marks them general knowledge (log 2). The OPEN
parameters (`wifiOther`, `socketTable`, `csDisconnected`) have no default in the spec: DESIGN CHOICE (log 3). -/
def Params.default : Params where
  opc := Opcodes.default
  crc7Poly := 0x09
  statusMask := 0x0F
  fill := 0x00
  regRspRd := 7
  regRspWr := 2
  rdRspLen := 3
  wrRspLen := 2
  maxBlock := 8192
  regRcvCtrl0 := 0x1070
  regRcvCtrl1 := 0x1084
  regHifHdr := 0x108C
  regTxCtrl := 0x1078
  regTxAddr := 0x150400
  regTxCommit := 0x106C
  newDataBit := 0
  txFlagBit := 1
  txBusyBit := 1
  txReadyBit := 1
  gidWifi := 1
  gidIp := 2
  wifiConState := 44
  wifiSysTime := 27
  wifiConnInfo := 6
  wifiScanResult := 19
  wifiOther := []
  socketTable := []
  csConnected := 0x00
  csDisconnected := 0x01
  crcForced := false

/-- The constraints the spec puts on its parameters, and two the model adds so that the block's own accesses are
inside the bounds the spec gives them (log 15). -/
structure Params.WellFormed (p : Params) : Prop where
  /-- "pairwise distinct" (R9, D1) -/
  opcodesDistinct : p.opc.toList.Nodup
  /-- "The two must differ" (30_encoding.md R103) -/
  gidsDistinct : p.gidWifi ≠ p.gidIp
  /-- "the four bytes above are pairwise distinct" (30_encoding.md R104) -/
  handledDistinct : p.handledOpcodes.Nodup
  /-- the other rows hold none of the four bytes (R104) -/
  otherUnhandled : ∀ r ∈ p.wifiOther, r.1 ∉ p.handledOpcodes
  /-- each byte has one row (R104) -/
  otherKeys : (p.wifiOther.map Prod.fst).Nodup
  /-- "no two bytes map to one named variant" (R104) -/
  otherNames : (p.wifiOther.map Prod.snd).Nodup
  /-- `SOCKET_TABLE` is a function of the byte: each byte has one row (30_encoding.md R105) -/
  socketKeys : (p.socketTable.map Prod.fst).Nodup
  /-- `CS_DISCONNECTED` is "any value distinct from `CS_CONNECTED`" (R9, D29) -/
  csDistinct : p.csConnected ≠ p.csDisconnected
  /-- "`NEW_DATA_BIT` is not 1 and not in 2..13" (D17), and it is a bit of a 32-bit word -/
  newDataBit : p.newDataBit = 0 ∨ (13 < p.newDataBit ∧ p.newDataBit < 32)
  /-- the bit indices of R9 are indices into 32-bit words -/
  txBits : p.txFlagBit < 32 ∧ p.txBusyBit < 32 ∧ p.txReadyBit < 32
  /-- the response buffers hold every byte that is validated or returned (D5, D10) -/
  responseLengths : 7 ≤ p.regRspRd ∧ 2 ≤ p.regRspWr ∧ 3 ≤ p.rdRspLen ∧ 2 ≤ p.wrRspLen
  /-- "`MAX_BLOCK` never exceeds 0xFFFFFF" (42_register_block_access.md R165); at least the 48 bytes of the largest
  access the block makes by itself (log 15) -/
  maxBlock : 48 ≤ p.maxBlock ∧ p.maxBlock ≤ 0xFFFFFF

/-! ## Constants the source fixes (00_scope.md R6) -/

/-- `CRC7_INIT` -/
def Config.crc7Init : BitVec 7 := 0x7F
/-- `RD_CLOCKLESS_MAX` -/
def Config.rdClocklessMax : Nat := 0xFF
/-- `WR_CLOCKLESS_MAX` -/
def Config.wrClocklessMax : Nat := 0x30
/-- `DATA_MARK` -/
def Config.dataMark : Byte := 0xF3
/-- `WRITE_DONE` -/
def Config.writeDone : Byte := 0xC3
/-- `BLOCK_RETRY` -/
def Config.blockRetry : Nat := 10
/-- `SEND_RETRY` -/
def Config.sendRetry : Nat := 100
/-- `HIF_HDR_LEN` -/
def Config.hifHdrLen : Nat := 8
/-- `HIF_HDR_READ` -/
def Config.hifHdrRead : Nat := 4
/-- `RX_DONE_BIT` -/
def Config.rxDoneBit : Nat := 1
/-- `SZ_CON_STATE` -/
def Config.szConState : Nat := 4
/-- `SZ_SYS_TIME` -/
def Config.szSysTime : Nat := 8
/-- `SZ_CONN_INFO` -/
def Config.szConnInfo : Nat := 48
/-- `SZ_SCAN_RESULT` -/
def Config.szScanResult : Nat := 44
/-- `ERR_MAX` -/
def Config.errMax : Nat := 5
/-- The largest payload length of `HDR.NEW` (43_hif_header.md R181). -/
def Config.hdrPayloadMax : Nat := 0xFFF7

/-! ## The handshake constants of 70_reset_and_hazards.md R290: data only, read by no rule of the block (U26) -/

/-- boot-ROM-finished sentinel -/
def Config.bootRomFinished : Word := 0x10ADD09E
/-- firmware-start sentinel -/
def Config.firmwareStart : Word := 0xEF522F61
/-- init-finished sentinel -/
def Config.initFinished : Word := 0x02532636
/-- boot wait loop bound of the excluded facade -/
def Config.bootWaitBound : Nat := 3

/-! ## Free values: what no rule fixes

The types here are those of the values; the constants have no body, so nothing in Lean can compute one or prove a
value of it. What a transfer leaves open is applied to the number of transfers made before it, and the working storage
to the number of host operations ended before: neither number repeats along a run. What a pure function leaves open is
applied to its operands (log 21). -/

/-- The level of chip-select (10_state.md R29). -/
inductive Cs where
  | asserted | deasserted
  deriving DecidableEq, Repr, Inhabited

/-- What the pins and the peer do in one transfer: the inputs of 20_memory.md R53, "under no law". -/
structure PeerAnswer where
  /-- the assert of chip-select reports success -/
  assertOk : Bool
  /-- the exchange as a whole reports success -/
  exchangeOk : Bool
  /-- the deassert of chip-select reports success -/
  deassertOk : Bool
  /-- the bytes received, index 0 first -/
  rx : List Byte
  deriving DecidableEq, Repr, Inhabited

/-- The working storage of 10_state.md R21. -/
structure Work where
  /-- operand latch -/
  address : Word
  /-- operand latch -/
  data : Word
  /-- operand latch -/
  size : Word
  /-- operand latch -/
  count : Nat
  /-- operand latch -/
  clockless : Bool
  /-- the transfer buffer `TXB` -/
  txb : List Byte
  /-- the receive image of the last transfer -/
  rx : List Byte
  /-- attempt counter of the response poll (R157) -/
  respAttempt : Nat
  /-- attempt counter of the completion poll (R163) -/
  doneAttempt : Nat
  /-- attempt counter of the busy poll (R192) -/
  busyAttempt : Nat
  deriving DecidableEq, Repr, Inhabited

/-- FREE: what the pins and the peer do in a transfer that `State.script` says nothing about (R53, U12; log 1). -/
opaque Config.peerAnswer : Nat → PeerAnswer

/-- FREE: byte `i` received in transfer `n` where the scripted answer is shorter than the transfer (R53; log 18). -/
opaque Config.freeByte : Nat → Nat → Byte

/-- FREE: the level of chip-select after a transfer that raised (20_memory.md R54, U4; log 10). -/
opaque Config.freeCs : Nat → Cs

/-- FREE: the working storage after host operation number `n`, "undefined ... at the start of every host operation"
(10_state.md R21, U24): a fresh value after each, transfers or none (log 11). -/
opaque Config.freeWork : Nat → Work

/-- FREE: the packed word of the header that HDR.FROMBYTES gives for fewer than 4 bytes, where 43_hif_header.md R183
states no result (log 21). -/
opaque Config.shortHeader : List Byte → Word

/-- FREE: what CRC7_VALID answers on no bytes, where 40_crc7.md R124 states no result, under a polynomial (log 21). -/
opaque Config.emptyFrameValid : BitVec 7 → Bool

end Sys2Proof
end

