-- ==== Sys2Proof/Syntax.lean ====
section
/-! DEFINITION. The instructions: one constructor of `Instr` for each of the forty rows of spec/opcode_table.json, the
items of the ports they arrive on, and the reasons the decoder rejects by name. -/

namespace Sys2Proof

/-- The HIF header (43_hif_header.md R180): a value, not state. -/
structure HifHeader where
  groupId : Byte
  opcode : Byte
  length : BitVec 16
  deriving DecidableEq, Repr

/-- `ds.mode` (10_state.md R31): what the peer was last commanded into. -/
inductive Mode where
  | station | ap
  deriving DecidableEq, Repr, Inhabited

/-- One constructor per row of the opcode table. -/
inductive Instr where
  -- the eleven wire commands (30_encoding.md R86); the operands are the fields of the wire word
  | dmaWrite (address : BitVec 24) (size : BitVec 16)
  | dmaRead (address : BitVec 24) (size : BitVec 16)
  | internalWrite (c : Bool) (a : BitVec 15) (data : Word)
  | internalRead (c : Bool) (a : BitVec 15)
  | terminate
  | repeatLast
  | dmaExtWrite (address : BitVec 24) (size : BitVec 24)
  | dmaExtRead (address : BitVec 24) (size : BitVec 24)
  | singleWrite (address : BitVec 24) (data : Word)
  | singleRead (address : BitVec 24)
  | resetPeer
  -- the ten host operations (30_encoding.md R100); HISR carries `ds.mode`, its argument by R31
  | rdreg (address : Word)
  | wrreg (address data : Word)
  | rdblk (address : Word) (count : Nat)
  | wrblk (address : Word) (bytes : List Byte)
  | hsend (header : HifHeader) (data ctrl : List Byte)
  | hisr (mode : Mode)
  | hrecv (address : Word) (n : Nat)
  | hfin
  | crcoff
  | breset
  -- the nine pure functions
  | encodeCmd (op : WireOp) (address data size : Word) (clockless : Bool)
  | crc7 (init : BitVec 7) (bytes : List Byte)
  | checkByte (cmd : List Byte)
  | crc7Valid (frame : List Byte)
  | hdrNew (groupId opcode : Byte) (payloadLen : Nat)
  | hdrToBytes (h : HifHeader)
  | hdrFromBytes (bytes : List Byte)
  | hdrPack (h : HifHeader)
  | hdrUnpack (w : Word)
  -- the seven kinds of inbound packet, by their HIF header (30_encoding.md R103 to R105)
  | hifConState (length : BitVec 16)
  | hifSysTime (length : BitVec 16)
  | hifConnInfo (length : BitVec 16)
  | hifScanResult (length : BitVec 16)
  | hifWifiOther (opcode : Byte) (length : BitVec 16)
  | hifIpAny (opcode : Byte) (length : BitVec 16)
  | hifUnknownGroup (groupId opcode : Byte) (length : BitVec 16)
  -- the three tokens (30_encoding.md R92)
  | dataMark
  | writeDone
  | readMarker (low : BitVec 4)
  deriving DecidableEq, Repr

/-- Where an item of the host port belongs. The opcode table numbers five kinds of things from the same bytes (a wire
opcode 0xC3 and the token 0xC3, for one), so each kind has a channel of its own (DESIGN CHOICE, log 4). -/
inductive Channel where
  /-- command bodies, block to peer -/
  | wire
  /-- host operations: `op_sel` and the operands beside it -/
  | host
  /-- pure functions: no encoding in the spec; numbered here in the order of the opcode table -/
  | pure
  /-- inbound packets by their 8 header bytes -/
  | packet
  /-- one-byte tokens, block to peer -/
  | tokenOut
  /-- one-byte tokens, peer to block -/
  | tokenIn
  deriving DecidableEq, Repr

/-- One request waiting on the host port. -/
structure Request where
  chan : Channel
  bytes : List Byte
  deriving DecidableEq, Repr

/-- Why the decoder rejects a request. -/
inductive DecodeError where
  /-- fewer bytes than the request needs -/
  | truncated
  /-- bytes after the request's last one -/
  | trailingBytes
  /-- `op_sel` 0xA to 0xF: "not operations; the port refuses them" (30_encoding.md R100, R254) -/
  | undefinedOpSel (sel : Byte)
  /-- a selector byte of the pure functions that names none -/
  | undefinedFunction (sel : Byte)
  /-- byte 0 is none of the eleven opcodes: "every other byte 0 is not a command" (R86, R98) -/
  | unknownWireOpcode (b : Byte)
  /-- a byte of the command that its rule fixes holds another value (R135, R136, R137, R142) -/
  | fixedByteWrong (op : WireOp)
  /-- a byte that is no token of the channel with a row in the opcode table (R92); `FILL` is refused with it (log 8) -/
  | notAToken (b : Byte)
  /-- an operand byte outside its operand's values (a mode, a flag, an opcode number, a 7-bit value) -/
  | badOperand (b : Byte)
  deriving DecidableEq, Repr

end Sys2Proof
end

