-- ==== Sys2Proof/WellFormed.lean ====
section
/-! DEFINITION. When an instruction is well formed: its operands are values the spec's operand of that name can take
and the port can carry. Operands with the width of their field in the type need no check. -/

namespace Sys2Proof

/-- Lengths and counts travel as 32-bit numbers on the host port (log 4). -/
def fitsLength (n : Nat) : Bool := n < 2 ^ 32

/-- The check per constructor.
* byte sequences and counts: at most 2^32 - 1 (log 4); that a count is within `1 .. MAX_BLOCK` (42 R165) and a payload
  length within 0xFFF7 (43 R181) is the port's refusal, not a matter of form;
* `HIF.WIFI.other`: "any opcode byte other than the four handled"; `HIF.unknown_group`: "any group id other than
  GID_WIFI and GID_IP" (spec/opcode_table.json, 30_encoding.md R99, R104). -/
def Instr.wf (p : Params) : Instr → Bool
  | .dmaWrite _ _ => true
  | .dmaRead _ _ => true
  | .internalWrite _ _ _ => true
  | .internalRead _ _ => true
  | .terminate => true
  | .repeatLast => true
  | .dmaExtWrite _ _ => true
  | .dmaExtRead _ _ => true
  | .singleWrite _ _ => true
  | .singleRead _ => true
  | .resetPeer => true
  | .rdreg _ => true
  | .wrreg _ _ => true
  | .rdblk _ count => fitsLength count
  | .wrblk _ bytes => fitsLength bytes.length
  | .hsend _ data ctrl => fitsLength data.length && fitsLength ctrl.length
  | .hisr _ => true
  | .hrecv _ n => fitsLength n
  | .hfin => true
  | .crcoff => true
  | .breset => true
  | .encodeCmd _ _ _ _ _ => true
  | .crc7 _ bytes => fitsLength bytes.length
  | .checkByte cmd => fitsLength cmd.length
  | .crc7Valid frame => fitsLength frame.length
  | .hdrNew _ _ payloadLen => fitsLength payloadLen
  | .hdrToBytes _ => true
  | .hdrFromBytes bytes => fitsLength bytes.length
  | .hdrPack _ => true
  | .hdrUnpack _ => true
  | .hifConState _ => true
  | .hifSysTime _ => true
  | .hifConnInfo _ => true
  | .hifScanResult _ => true
  | .hifWifiOther opcode _ => !p.handledOpcodes.contains opcode
  | .hifIpAny _ _ => true
  | .hifUnknownGroup groupId _ _ => groupId != p.gidWifi && groupId != p.gidIp
  | .dataMark => true
  | .writeDone => true
  | .readMarker _ => true

end Sys2Proof
end

