-- ==== Sys2Proof/Decode.lean ====
section
/-! DEFINITION. The decoder, total on any bytes and rejecting by name, and after it the encoder, written from the same
tables (30_encoding.md R80 to R105). The wire commands and packet headers have the spec's bytes. The spec leaves the
host port abstract ("operands travel beside op_sel"): the bytes of host operations and pure functions behind their
selector are a DESIGN CHOICE (log 4): words and lengths big-endian in four bytes, byte sequences with their length
in front. -/

namespace Sys2Proof

/-! ## Bytes and fields (R10, R56 to R58) -/

/-- `trunc_8(v >> 8k)`: byte `k` of a value, byte 0 the least significant (R10, R131). -/
def byteAt {w : Nat} (v : BitVec w) (k : Nat) : Byte := (v >>> (8 * k)).setWidth 8

/-- A 16-bit field from its two bytes, most significant first (R56). -/
def be16 (b1 b0 : Byte) : BitVec 16 := b1 ++ b0

/-- A 24-bit field from its three bytes, most significant first (R56). -/
def be24 (b2 b1 b0 : Byte) : BitVec 24 := b2 ++ b1 ++ b0

/-- A 32-bit field from its four bytes, most significant first (R56). -/
def be32 (b3 b2 b1 b0 : Byte) : Word := b3 ++ b2 ++ b1 ++ b0

/-- `LE32(b0, b1, b2, b3)` of R10: the first byte is bits 7:0. -/
def le32 (b0 b1 b2 b3 : Byte) : Word := be32 b3 b2 b1 b0

/-- The two bytes of a 16-bit field, most significant first. -/
def bytes16 (v : BitVec 16) : List Byte := [byteAt v 1, byteAt v 0]

/-- The three bytes of a 24-bit field, most significant first. -/
def bytes24 (v : BitVec 24) : List Byte := [byteAt v 2, byteAt v 1, byteAt v 0]

/-- The four bytes of a 32-bit field, most significant first. -/
def bytes32 (v : Word) : List Byte := [byteAt v 3, byteAt v 2, byteAt v 1, byteAt v 0]

/-! ## Reading operands from the host port (log 4) -/

/-- What reading from the front of a byte list gives: the value and the bytes left. -/
abbrev Reads (α : Type) := Except DecodeError (α × List Byte)

/-- Go on with a value that was read and the bytes behind it. -/
def onRead {α β : Type} (x : Reads α) (f : α → List Byte → Reads β) : Reads β :=
  match x with
  | .ok (a, r) => f a r
  | .error e => .error e

/-- One byte. -/
def readByte : List Byte → Reads Byte
  | b :: r => .ok (b, r)
  | [] => .error .truncated

/-- A 32-bit operand. -/
def readWord : List Byte → Reads Word
  | b3 :: b2 :: b1 :: b0 :: r => .ok (be32 b3 b2 b1 b0, r)
  | _ => .error .truncated

/-- A count or length. -/
def readNat (t : List Byte) : Reads Nat :=
  onRead (readWord t) fun w r => .ok (w.toNat, r)

/-- A byte sequence with its length in front. -/
def readBytes (t : List Byte) : Reads (List Byte) :=
  onRead (readNat t) fun n r => if n ≤ r.length then .ok (r.take n, r.drop n) else .error .truncated

/-- A HIF header: group id, opcode, length, most significant byte first. -/
def readHeader : List Byte → Reads HifHeader
  | g :: o :: l1 :: l0 :: r => .ok (⟨g, o, be16 l1 l0⟩, r)
  | _ => .error .truncated

/-- A truth value: 0 or 1. -/
def readBool (t : List Byte) : Reads Bool :=
  onRead (readByte t) fun b r =>
    if b = 0 then .ok (false, r) else if b = 1 then .ok (true, r) else .error (.badOperand b)

/-- The number an opcode operand travels as: its place in the opcode table. -/
def WireOp.number : WireOp → Byte
  | .dmaWrite => 0
  | .dmaRead => 1
  | .internalWrite => 2
  | .internalRead => 3
  | .terminate => 4
  | .repeatLast => 5
  | .dmaExtWrite => 6
  | .dmaExtRead => 7
  | .singleWrite => 8
  | .singleRead => 9
  | .reset => 10

/-- An opcode operand. -/
def readOp (t : List Byte) : Reads WireOp :=
  onRead (readByte t) fun b r =>
    match b.toNat with
    | 0 => .ok (.dmaWrite, r)
    | 1 => .ok (.dmaRead, r)
    | 2 => .ok (.internalWrite, r)
    | 3 => .ok (.internalRead, r)
    | 4 => .ok (.terminate, r)
    | 5 => .ok (.repeatLast, r)
    | 6 => .ok (.dmaExtWrite, r)
    | 7 => .ok (.dmaExtRead, r)
    | 8 => .ok (.singleWrite, r)
    | 9 => .ok (.singleRead, r)
    | 10 => .ok (.reset, r)
    | _ => .error (.badOperand b)

/-! ## The decoder, one definition per channel -/

/-- The opcode a byte 0 stands for (R86): "reads the eleven values below and nothing else". -/
def Opcodes.opOf (o : Opcodes) (b : Byte) : Option WireOp :=
  if b = o.dmaWrite then some .dmaWrite
  else if b = o.dmaRead then some .dmaRead
  else if b = o.internalWrite then some .internalWrite
  else if b = o.internalRead then some .internalRead
  else if b = o.terminate then some .terminate
  else if b = o.repeatLast then some .repeatLast
  else if b = o.dmaExtWrite then some .dmaExtWrite
  else if b = o.dmaExtRead then some .dmaExtRead
  else if b = o.singleWrite then some .singleWrite
  else if b = o.singleRead then some .singleRead
  else if b = o.reset then some .reset
  else none

/-- The bytes of a command after its opcode (R81 to R84, R132 to R142). Bytes that a form fixes are checked. -/
def decodeWireFields (op : WireOp) (t : List Byte) : Reads Instr :=
  match op, t with
  | .dmaWrite, a2 :: a1 :: a0 :: s1 :: s0 :: r => .ok (.dmaWrite (be24 a2 a1 a0) (be16 s1 s0), r)
  | .dmaRead, a2 :: a1 :: a0 :: s1 :: s0 :: r => .ok (.dmaRead (be24 a2 a1 a0) (be16 s1 s0), r)
  | .internalWrite, b1 :: b2 :: d3 :: d2 :: d1 :: d0 :: r =>
    .ok (.internalWrite (b1.getLsbD 7) ((be16 b1 b2).setWidth 15) (be32 d3 d2 d1 d0), r)
  | .internalRead, b1 :: b2 :: z :: r =>
    if z = 0 then .ok (.internalRead (b1.getLsbD 7) ((be16 b1 b2).setWidth 15), r)
    else .error (.fixedByteWrong .internalRead)
  | .terminate, k1 :: k2 :: k3 :: r =>
    if k1 = 0 ∧ k2 = 0 ∧ k3 = 0 then .ok (.terminate, r) else .error (.fixedByteWrong .terminate)
  | .repeatLast, k1 :: k2 :: k3 :: r =>
    if k1 = 0 ∧ k2 = 0 ∧ k3 = 0 then .ok (.repeatLast, r) else .error (.fixedByteWrong .repeatLast)
  | .dmaExtWrite, a2 :: a1 :: a0 :: s2 :: s1 :: s0 :: r => .ok (.dmaExtWrite (be24 a2 a1 a0) (be24 s2 s1 s0), r)
  | .dmaExtRead, a2 :: a1 :: a0 :: s2 :: s1 :: s0 :: r => .ok (.dmaExtRead (be24 a2 a1 a0) (be24 s2 s1 s0), r)
  | .singleWrite, a2 :: a1 :: a0 :: d3 :: d2 :: d1 :: d0 :: r => .ok (.singleWrite (be24 a2 a1 a0) (be32 d3 d2 d1 d0), r)
  | .singleRead, a2 :: a1 :: a0 :: r => .ok (.singleRead (be24 a2 a1 a0), r)
  | .reset, k1 :: k2 :: k3 :: r =>
    if k1 = 0xFF ∧ k2 = 0xFF ∧ k3 = 0xFF then .ok (.resetPeer, r) else .error (.fixedByteWrong .reset)
  | _, _ => .error .truncated

/-- A command body (R80): byte 0 is the opcode and fixes the rest. A command that stands as a request is its `LEN_shape`
bytes in both CRC modes: the check byte is no part of the request, and one behind it is a trailing byte (DESIGN CHOICE,
log 6; the check byte is added to the result). -/
def decodeWire (p : Params) : List Byte → Reads Instr
  | [] => .error .truncated
  | b :: t =>
    match p.opc.opOf b with
    | some op => decodeWireFields op t
    | none => .error (.unknownWireOpcode b)

/-- A host operation (R100): `op_sel` in bits 3:0 of the first byte, the operands behind it (log 4). -/
def decodeHost : List Byte → Reads Instr
  | [] => .error .truncated
  | sel :: t =>
    match sel.toNat with
    | 0 =>
      onRead (readWord t) fun a r =>
      .ok (.rdreg a, r)
    | 1 =>
      onRead (readWord t) fun a r =>
      onRead (readWord r) fun d r =>
      .ok (.wrreg a d, r)
    | 2 =>
      onRead (readWord t) fun a r =>
      onRead (readNat r) fun n r =>
      .ok (.rdblk a n, r)
    | 3 =>
      onRead (readWord t) fun a r =>
      onRead (readBytes r) fun b r =>
      .ok (.wrblk a b, r)
    | 4 =>
      onRead (readHeader t) fun h r =>
      onRead (readBytes r) fun d r =>
      onRead (readBytes r) fun c r =>
      .ok (.hsend h d c, r)
    | 5 =>
      onRead (readBool t) fun ap r =>
      .ok (.hisr (if ap then .ap else .station), r)
    | 6 =>
      onRead (readWord t) fun a r =>
      onRead (readNat r) fun n r =>
      .ok (.hrecv a n, r)
    | 7 => .ok (.hfin, t)
    | 8 => .ok (.crcoff, t)
    | 9 => .ok (.breset, t)
    | _ => .error (.undefinedOpSel sel)

/-- A pure function, by its place in the opcode table (log 4). -/
def decodePure : List Byte → Reads Instr
  | [] => .error .truncated
  | sel :: t =>
    match sel.toNat with
    | 0 =>
      onRead (readOp t) fun op r =>
      onRead (readWord r) fun a r =>
      onRead (readWord r) fun d r =>
      onRead (readWord r) fun z r =>
      onRead (readBool r) fun k r =>
      .ok (.encodeCmd op a d z k, r)
    | 1 =>
      onRead (readByte t) fun c r =>
      onRead (readBytes r) fun b r =>
      if c.getLsbD 7 then .error (.badOperand c) else .ok (.crc7 (c.setWidth 7) b, r)
    | 2 =>
      onRead (readBytes t) fun b r =>
      .ok (.checkByte b, r)
    | 3 =>
      onRead (readBytes t) fun b r =>
      .ok (.crc7Valid b, r)
    | 4 =>
      onRead (readByte t) fun g r =>
      onRead (readByte r) fun o r =>
      onRead (readNat r) fun n r =>
      .ok (.hdrNew g o n, r)
    | 5 =>
      onRead (readHeader t) fun h r =>
      .ok (.hdrToBytes h, r)
    | 6 =>
      onRead (readBytes t) fun b r =>
      .ok (.hdrFromBytes b, r)
    | 7 =>
      onRead (readHeader t) fun h r =>
      .ok (.hdrPack h, r)
    | 8 =>
      onRead (readWord t) fun w r =>
      .ok (.hdrUnpack w, r)
    | _ => .error (.undefinedFunction sel)

/-- Which row of the table an inbound header is (R99, R103 to R105, R201). -/
def classifyHeader (p : Params) (h : HifHeader) : Instr :=
  if h.groupId = p.gidWifi then
    if h.opcode = p.wifiConState then .hifConState h.length
    else if h.opcode = p.wifiSysTime then .hifSysTime h.length
    else if h.opcode = p.wifiConnInfo then .hifConnInfo h.length
    else if h.opcode = p.wifiScanResult then .hifScanResult h.length
    else .hifWifiOther h.opcode h.length
  else if h.groupId = p.gidIp then .hifIpAny h.opcode h.length
  else .hifUnknownGroup h.groupId h.opcode h.length

/-- An inbound packet by its 8 header bytes (R94): the length is little-endian in bytes 2 and 3; bytes 4 to 7 are
"zero when sent, ignored when received" (R99(e)). -/
def decodePacket (p : Params) : List Byte → Reads Instr
  | g :: o :: l0 :: l1 :: _ :: _ :: _ :: _ :: r => .ok (classifyHeader p ⟨g, o, be16 l1 l0⟩, r)
  | _ => .error .truncated

/-- A token the block sends (R92). `FILL`, the other token of R92 from the block to the peer, is no request: the opcode
table has no row for it, and the block sends it inside the transfers where it only listens (`zeros`). That a `FILL` byte
that stands as a request is refused is the model's choice (DESIGN CHOICE, log 8). -/
def decodeTokenOut : List Byte → Reads Instr
  | [] => .error .truncated
  | b :: r => if b = Config.dataMark then .ok (.dataMark, r) else .error (.notAToken b)

/-- A token the peer sends (R92): the completion byte, or a marker with high nibble 0xF. -/
def decodeTokenIn : List Byte → Reads Instr
  | [] => .error .truncated
  | b :: r =>
    if b = Config.writeDone then .ok (.writeDone, r)
    else if b &&& 0xF0 = 0xF0 then .ok (.readMarker (b.setWidth 4), r)
    else .error (.notAToken b)

/-- The instruction at the front of an item's bytes, and the bytes behind it. -/
def decodePrefix (p : Params) (chan : Channel) (bytes : List Byte) : Reads Instr :=
  match chan with
  | .wire => decodeWire p bytes
  | .host => decodeHost bytes
  | .pure => decodePure bytes
  | .packet => decodePacket p bytes
  | .tokenOut => decodeTokenOut bytes
  | .tokenIn => decodeTokenIn bytes

/-- The decoder: a request is one instruction, whole. -/
def decode (p : Params) (r : Request) : Except DecodeError Instr :=
  match decodePrefix p r.chan r.bytes with
  | .ok (i, []) => .ok i
  | .ok (_, _ :: _) => .error .trailingBytes
  | .error e => .error e

/-! ## The encoder -/

/-- A length as it travels on the host port. -/
def lengthBytes (n : Nat) : List Byte := bytes32 (BitVec.ofNat 32 n)

/-- A byte sequence as it travels on the host port. -/
def seqBytes (b : List Byte) : List Byte := lengthBytes b.length ++ b

/-- A header as it travels on the host port (an operand, not the wire form of R94). -/
def headerOperand (h : HifHeader) : List Byte := [h.groupId, h.opcode] ++ bytes16 h.length

/-- A truth value as it travels on the host port. -/
def boolByte (b : Bool) : Byte := if b then 1 else 0

/-- The wire form of a header (R94). -/
def packetBytes (g o : Byte) (length : BitVec 16) : List Byte := [g, o, byteAt length 0, byteAt length 1, 0, 0, 0, 0]

/-- Bytes 1 and 2 of the 16-bit-address forms: bit 7 of byte 1 is `c`, then the 15 address bits (R81, R83, R87). -/
def internalAddress (c : Bool) (a : BitVec 15) : List Byte := bytes16 (BitVec.ofBool c ++ a)

/-- The encoder: the bytes of each instruction, from the encodings of 30_encoding.md and log 4. -/
def encode (p : Params) : Instr → Request
  | .dmaWrite a s => ⟨.wire, [p.opc.dmaWrite] ++ bytes24 a ++ bytes16 s⟩
  | .dmaRead a s => ⟨.wire, [p.opc.dmaRead] ++ bytes24 a ++ bytes16 s⟩
  | .internalWrite c a d => ⟨.wire, [p.opc.internalWrite] ++ internalAddress c a ++ bytes32 d⟩
  | .internalRead c a => ⟨.wire, [p.opc.internalRead] ++ internalAddress c a ++ [0x00]⟩
  | .terminate => ⟨.wire, [p.opc.terminate, 0x00, 0x00, 0x00]⟩
  | .repeatLast => ⟨.wire, [p.opc.repeatLast, 0x00, 0x00, 0x00]⟩
  | .dmaExtWrite a s => ⟨.wire, [p.opc.dmaExtWrite] ++ bytes24 a ++ bytes24 s⟩
  | .dmaExtRead a s => ⟨.wire, [p.opc.dmaExtRead] ++ bytes24 a ++ bytes24 s⟩
  | .singleWrite a d => ⟨.wire, [p.opc.singleWrite] ++ bytes24 a ++ bytes32 d⟩
  | .singleRead a => ⟨.wire, [p.opc.singleRead] ++ bytes24 a⟩
  | .resetPeer => ⟨.wire, [p.opc.reset, 0xFF, 0xFF, 0xFF]⟩
  | .rdreg a => ⟨.host, [0x0] ++ bytes32 a⟩
  | .wrreg a d => ⟨.host, [0x1] ++ bytes32 a ++ bytes32 d⟩
  | .rdblk a n => ⟨.host, [0x2] ++ bytes32 a ++ lengthBytes n⟩
  | .wrblk a b => ⟨.host, [0x3] ++ bytes32 a ++ seqBytes b⟩
  | .hsend h d c => ⟨.host, [0x4] ++ headerOperand h ++ seqBytes d ++ seqBytes c⟩
  | .hisr m => ⟨.host, [0x5, boolByte (m = .ap)]⟩
  | .hrecv a n => ⟨.host, [0x6] ++ bytes32 a ++ lengthBytes n⟩
  | .hfin => ⟨.host, [0x7]⟩
  | .crcoff => ⟨.host, [0x8]⟩
  | .breset => ⟨.host, [0x9]⟩
  | .encodeCmd op a d z k => ⟨.pure, [0, op.number] ++ bytes32 a ++ bytes32 d ++ bytes32 z ++ [boolByte k]⟩
  | .crc7 c b => ⟨.pure, [1, c.setWidth 8] ++ seqBytes b⟩
  | .checkByte b => ⟨.pure, [2] ++ seqBytes b⟩
  | .crc7Valid b => ⟨.pure, [3] ++ seqBytes b⟩
  | .hdrNew g o n => ⟨.pure, [4, g, o] ++ lengthBytes n⟩
  | .hdrToBytes h => ⟨.pure, [5] ++ headerOperand h⟩
  | .hdrFromBytes b => ⟨.pure, [6] ++ seqBytes b⟩
  | .hdrPack h => ⟨.pure, [7] ++ headerOperand h⟩
  | .hdrUnpack w => ⟨.pure, [8] ++ bytes32 w⟩
  | .hifConState l => ⟨.packet, packetBytes p.gidWifi p.wifiConState l⟩
  | .hifSysTime l => ⟨.packet, packetBytes p.gidWifi p.wifiSysTime l⟩
  | .hifConnInfo l => ⟨.packet, packetBytes p.gidWifi p.wifiConnInfo l⟩
  | .hifScanResult l => ⟨.packet, packetBytes p.gidWifi p.wifiScanResult l⟩
  | .hifWifiOther o l => ⟨.packet, packetBytes p.gidWifi o l⟩
  | .hifIpAny o l => ⟨.packet, packetBytes p.gidIp o l⟩
  | .hifUnknownGroup g o l => ⟨.packet, packetBytes g o l⟩
  | .dataMark => ⟨.tokenOut, [Config.dataMark]⟩
  | .writeDone => ⟨.tokenIn, [Config.writeDone]⟩
  | .readMarker x => ⟨.tokenIn, [(0xF : BitVec 4) ++ x]⟩

/-! ## A word of the opcode table -/

/-- The `k` bytes of a table word. The table reads a row's bits as one number whose most significant byte is byte 0 of
the encoding (spec/98_reader.md; log 5). -/
def wordBytes : Nat → Nat → List Byte
  | 0, _ => []
  | k + 1, w => BitVec.ofNat 8 (w / 256 ^ k) :: wordBytes k w

/-- The longest run of zero operand bytes a table word can need behind it. -/
def operandPadding : List Byte := List.replicate 32 0

/-- The channel of a table word, from its width and first byte: one byte is an `op_sel` or a token, four, six and seven
bytes are wire commands, eight are a SINGLE_WRITE or a packet header, two are the first bytes of a packet header. -/
def tableChannel (p : Params) (nbits : Nat) (bytes : List Byte) : Channel :=
  let b := bytes.headD 0
  if nbits ≤ 8 then
    if b.toNat < 16 then .host else if b = Config.dataMark then .tokenOut else .tokenIn
  else if nbits ≤ 16 then .packet
  else if nbits = 64 ∧ b ≠ p.opc.singleWrite then .packet
  else .wire

/-- The request a table word stands for under the parameters `p`: its bytes, then operand bytes of zero, cut where the
instruction ends. -/
def tableRequest (p : Params) (nbits w : Nat) : Request :=
  let bytes := wordBytes ((nbits + 7) / 8) w
  let chan := tableChannel p nbits bytes
  let image := bytes ++ operandPadding
  match decodePrefix p chan image with
  | .ok (_, r) => ⟨chan, image.take (image.length - r.length)⟩
  | .error _ => ⟨chan, image⟩

/-- What the decoder reads from a word of the opcode table, at the spec defaults of the parameters. -/
def decodeTableWord (nbits w : Nat) : Option Instr :=
  match decode Params.default (tableRequest Params.default nbits w) with
  | .ok i => some i
  | .error _ => none

end Sys2Proof
end

