-- ==== Sys2Proof/Machine/State.lean ====
section
/-! DEFINITION. The machine's state as plain data (10_state.md R20 to R45), the error taxonomy (60_exceptions.md R241),
the reasons a request is refused, and the state after reset (R45, R280). INVENTORY.md lists every field. -/

namespace Sys2Proof.Machine

open Sys2Proof

/-! ## Errors: values on the result port (60_exceptions.md R240, R241) -/

/-- `SpiCommandError` (30_encoding.md R93): what the status byte decodes to. -/
inductive SpiCommandError where
  | noError | unsupportedCommand | unexpectedDataReceived | crc7Error | crc16Error | internalError | invalidError
  deriving DecidableEq, Repr

/-- Which polling loop ran out of attempts (60_exceptions.md R248). -/
inductive PollSite where
  | readDataResponse | writeDataResponse | writeDataComplete | sendBusy
  deriving DecidableEq, Repr

/-- `SpiError` (R241). -/
inductive SpiError where
  /-- R243: a chip-select set action reported failure -/
  | pinState
  /-- R244: the byte exchange reported failure -/
  | transfer
  /-- R245: the opcode sent, the decoded status, the raw status byte, the raw marker byte -/
  | readRegister (op : WireOp) (err : SpiCommandError) (status marker : Byte)
  /-- R246 -/
  | writeRegister (op : WireOp) (err : SpiCommandError)
  /-- R247 -/
  | readData (op : WireOp) (err : SpiCommandError)
  /-- R250 -/
  | writeData (op : WireOp) (err : SpiCommandError)
  /-- R248 -/
  | timeout (site : PollSite)
  /-- R249: in the taxonomy, raised by nothing: the opcode type is closed -/
  | invalidSpiCommand
  deriving DecidableEq, Repr

/-- `HifError` (R241); the fields are integers (30_encoding.md R107(e)). -/
inductive HifError where
  /-- R251 -/
  | sizeMismatch (requested received : Nat)
  /-- R252 -/
  | addressMismatch (requested received : Nat)
  deriving DecidableEq, Repr

/-- `DriverError` (R241): the two injections. -/
inductive DriverError where
  | spi (e : SpiError)
  | hif (e : HifError)
  deriving DecidableEq, Repr

/-! ## Results -/

/-- `WifiCommand` (30_encoding.md R104): the four handled variants, the other named ones by number (log 20), and the
catch-all. -/
inductive WifiCommand where
  | respConStateChanged | respGetSysTime | respConnInfo | respScanResult
  | named (name : Nat)
  | invalid
  deriving DecidableEq, Repr

/-- `SocketCommand` (30_encoding.md R105): no variant is named by the spec; by number (log 20), and the catch-all. -/
inductive SocketCommand where
  | named (name : Nat)
  | invalid
  deriving DecidableEq, Repr

/-- `Command` (44_hif_engine.md R202). -/
inductive Command where
  | wifi (v : WifiCommand)
  | ip (v : SocketCommand)
  deriving DecidableEq, Repr

/-- What an operation or a pure function returns (30_encoding.md R100). -/
inductive Value where
  | unit
  | word (w : Word)
  | bytes (b : List Byte)
  /-- the result of HISR, `Option<Command>` -/
  | command (c : Option Command)
  | crc (c : BitVec 7)
  | byte (b : Byte)
  | bool (b : Bool)
  | header (h : HifHeader)
  deriving DecidableEq, Repr

/-- How an operation ended: `Ok(result)` or `Err(e)` (R240). -/
inductive Reply where
  | ok (v : Value)
  | err (e : DriverError)
  deriving DecidableEq, Repr

/-! ## Pieces of state -/

/-- The ten host operations (30_encoding.md R100), as the sequencer names them. -/
inductive HostOp where
  | rdreg | wrreg | rdblk | wrblk | hsend | hisr | hrecv | hfin | crcoff | breset
  deriving DecidableEq, Repr

/-- The sequencer state `seq` (10_state.md R22). The position is the path of steps from the operation's rule inward:
`[5, 4]` inside HSEND is step 4 of the WRBLK that step 5 of HSEND calls; `[]` is the entry. A polling loop stays at its
step, its head, and counts its attempts in the working storage (R266). -/
inductive Seq where
  | idle
  | busy (op : HostOp) (at_ : List Nat)
  deriving DecidableEq, Repr

/-- The receive context `ctx` (R25 to R28). -/
structure Ctx where
  readAddr : Word
  readSize : Word
  readDone : Bool
  deriving DecidableEq, Repr

/-- `ConnStatus` (R32). -/
inductive ConnStatus where
  | connected | apConnected | disconnected | apListening
  deriving DecidableEq, Repr

/-- `ScanResult` (R33); `rssi` is the one signed value (R107(h)). -/
structure ScanResult where
  index : Byte
  rssi : Int
  authType : Byte
  channel : Byte
  bssid : List Byte
  ssid : List Byte
  deriving DecidableEq, Repr

/-- The driver state `ds` (R30 to R35): the four sink registers and the input `mode`. -/
structure DriverState where
  mode : Mode
  connStatus : Option ConnStatus
  scanResult : Option ScanResult
  sysTime : Option (List Byte)
  connInfo : Option (List Byte)
  deriving DecidableEq, Repr

/-- How one transfer ended (20_memory.md R52, R53). -/
inductive XferEnd where
  /-- the bytes received -/
  | done (rx : List Byte)
  /-- no byte was exchanged (R243) -/
  | assertFailed
  /-- how many bytes were exchanged is not visible (R244) -/
  | exchangeFailed
  /-- the bytes were exchanged and are discarded (R243) -/
  | deassertFailed
  deriving DecidableEq, Repr

/-- One transfer as the transport port shows it: the bytes the block presented, and how it ended. -/
structure Transfer where
  tx : List Byte
  fin : XferEnd
  deriving DecidableEq, Repr

/-- The machine. `params` is constant (R44, log 2); `port`, `script`, `trace` and `result` are the model's own fields
for the ports (logs 1, 4, 14), `opsEnded` its count of the host operations ended (log 11); every other field is the
spec's. -/
structure State where
  params : Params
  seq : Seq
  crcDisabled : Bool
  ctx : Ctx
  cs : Cs
  ds : DriverState
  work : Work
  port : List Request
  script : List PeerAnswer
  trace : List Transfer
  result : Option Reply
  opsEnded : Nat
  deriving DecidableEq, Repr

/-- Why the machine stops with a fault: never. Every failure the spec describes is a value on the result port, after
which the block accepts the next request (60_exceptions.md R240, R263), so no reason exists. -/
inductive Fault where
  deriving DecidableEq, Repr

/-- Why a request has no step (60_exceptions.md R254: "They produce neither `Ok` nor `Err` and change no state; a model
has no step for them"). -/
inductive Refusal where
  /-- An arm of `exec` without a meaning; none is left. -/
  | notModelled (mnemonic : String)
  /-- Raised by `step`: the request at the front of the port is no instruction: a byte 0 or an `op_sel` that names none
  (30_encoding.md R86, R98, R100, R254), or bytes outside the port's layout (log 4). No operand value of an instruction
  raises it. Safe: it has no meaning. -/
  | undecodable (e : DecodeError)
  /-- Raised by every meaning that uses the sequencer while `seq` is `Busy` (R71, R254). Safe: no such run has a
  meaning. -/
  | portBusy
  /-- Raised by RDBLK, WRBLK, HSEND, HRECV: a byte count outside the bounds of R165, R190. Safe: R254. -/
  | countOutOfRange (count : Nat)
  /-- Raised by HDR.NEW above 0xFFF7 (43_hif_header.md R181, R254). Safe. -/
  | payloadTooLong (payloadLen : Nat)
  deriving DecidableEq, Repr

/-- The working storage at reset, "undefined at reset" (R21): DESIGN CHOICE zeros and empty (log 11). -/
def Work.zero : Work := ⟨0, 0, 0, 0, false, [], [], 0, 0, 0⟩

/-- `ctx` after reset (R45, R280). -/
def Ctx.reset : Ctx := ⟨0, 0, true⟩

/-- The machine right after reset (R45, R280). The model's own choices: `ds.mode` Station (log 13), the parameters
(log 2), the working storage (log 11), nothing on the ports (logs 1, 4, 14), no operation counted (log 11). -/
def State.reset : State where
  params := Params.default
  seq := .idle
  crcDisabled := false
  ctx := Ctx.reset
  cs := .deasserted
  ds := ⟨.station, none, none, none, none⟩
  work := Work.zero
  port := []
  script := []
  trace := []
  result := none
  opsEnded := 0

end Sys2Proof.Machine
end

