-- ==== Sys2Proof/Machine/Flags.lean ====
section
/-! DEFINITION. The flags of the block (10_state.md R23): `crc_disabled`, `ctx.read_done`, and the derived signal
`crc_on`. There are no condition codes. -/

namespace Sys2Proof.Machine

open Sys2Proof

/-- `crc_on = CRC_FORCED or not crc_disabled` (00_scope.md R7). -/
def crcOn (s : State) : Bool := s.params.crcForced || !s.crcDisabled

/-- `c` of 42_register_block_access.md: 1 if `crc_on` else 0. -/
def crcLen (s : State) : Nat := if crcOn s then 1 else 0

/-- CRCOFF's one write (45_session_control.md R230). -/
def setCrcDisabled (s : State) : State := { s with crcDisabled := true }

/-- The writes to `ctx.read_done`: false by HISR step 3, true by HFIN (10_state.md R27). -/
def setReadDone (b : Bool) (s : State) : State := { s with ctx := { s.ctx with readDone := b } }

/-- Bit `n` of a register word (00_scope.md R10). -/
def bitOf (w : Word) (n : Nat) : Bool := w.getLsbD n

/-- The word with only bit `n` set: `1 << n`. -/
def bitMask (n : Nat) : Word := 1#32 <<< n

/-- The word with bit `n` cleared, every other bit as read (44_hif_engine.md R194). -/
def clearBit (w : Word) (n : Nat) : Word := w &&& ~~~ bitMask n

/-- The word with bit `n` set, every other bit as read (44_hif_engine.md R211). -/
def setBit (w : Word) (n : Nat) : Word := w ||| bitMask n

end Sys2Proof.Machine
end

