-- ==== Sys2Proof/Machine/Operands.lean ====
section
/-! DEFINITION. Operand forms and the tests on received bytes: fields of commands (41_spi_commands.md R131), the
response bytes (30_encoding.md R88 to R93), the routing tables (R103 to R106), the payload layouts (44 R215, R219). -/

namespace Sys2Proof.Machine

open Sys2Proof

/-- `zeros(n)`: `n` bytes of `FILL` (00_scope.md R10). -/
def zeros (p : Params) (n : Nat) : List Byte := List.replicate n p.fill

/-- Byte `i` of a byte sequence the caller knows to be long enough. -/
def at' (b : List Byte) (i : Nat) : Byte := b.getD i 0

/-- An address that is an integer sum, as the u32 operand of ENCODE: the encoder uses its low 24 bits only
(30_encoding.md R107(e), 41_spi_commands.md R131). -/
def asWord (n : Nat) : Word := BitVec.ofNat 32 n

/-- `OPC(op)`. -/
def opc (p : Params) (op : WireOp) : Byte := p.opc.byteOf op

/-- `decode_status(b)` (30_encoding.md R93). -/
def decodeStatus (p : Params) (b : Byte) : SpiCommandError :=
  match (b &&& p.statusMask).toNat with
  | 0 => .noError
  | 1 => .unsupportedCommand
  | 2 => .unexpectedDataReceived
  | 3 => .crc7Error
  | 4 => .crc16Error
  | 5 => .internalError
  | _ => .invalidError

/-- The marker test `(mk and 0xF0) == 0xF0` (R88). -/
def isMarker (b : Byte) : Bool := b &&& 0xF0 == 0xF0

/-- The completion test of a block write (42_register_block_access.md R163). -/
def isWriteDone (b : Byte) : Bool := b == Config.writeDone

/-- `size = reg[13:2]` (44_hif_engine.md R196). -/
def sizeField (reg : Word) : Word := (reg >>> 2) &&& 0xFFF

/-- `((A << 2) mod 2^32) | (1 << TX_READY_BIT)` (30_encoding.md R96, R107(d)). -/
def commitWord (p : Params) (a : Word) : Word := (a <<< 2) ||| bitMask p.txReadyBit

/-- The row of a table with this opcode byte. -/
def lookupName : List (Byte × Nat) → Byte → Option Nat
  | [], _ => none
  | (b, n) :: rest, o => if o = b then some n else lookupName rest o

/-- `WIFI_TABLE` (30_encoding.md R104), total with the catch-all. -/
def wifiTable (p : Params) (o : Byte) : WifiCommand :=
  if o = p.wifiConState then .respConStateChanged
  else if o = p.wifiSysTime then .respGetSysTime
  else if o = p.wifiConnInfo then .respConnInfo
  else if o = p.wifiScanResult then .respScanResult
  else match lookupName p.wifiOther o with
    | some n => .named n
    | none => .invalid

/-- `SOCKET_TABLE` (30_encoding.md R105), total with the catch-all. -/
def socketTable (p : Params) (o : Byte) : SocketCommand :=
  match lookupName p.socketTable o with
  | some n => .named n
  | none => .invalid

/-- The group routing of HISR step 6 (44_hif_engine.md R201, R202): no command for an unknown group. -/
def routeHeader (p : Params) (h : HifHeader) : Option Command :=
  if h.groupId = p.gidWifi then some (.wifi (wifiTable p h.opcode))
  else if h.groupId = p.gidIp then some (.ip (socketTable p h.opcode))
  else none

/-- The connection-state codes (30_encoding.md R106). -/
inductive ConStateCode where
  | connected | disconnected | undefined
  deriving DecidableEq, Repr

/-- The decode of byte 0 of the `RespConStateChanged` payload (R106). -/
def decodeConState (p : Params) (b : Byte) : ConStateCode :=
  if b = p.csConnected then .connected else if b = p.csDisconnected then .disconnected else .undefined

/-- The connection-status transition (44_hif_engine.md R216): the new status, none for no change. -/
def conStatusOf (m : Mode) : ConStateCode → Option ConnStatus
  | .connected => match m with
    | .station => some .connected
    | .ap => some .apConnected
  | .disconnected => match m with
    | .station => some .disconnected
    | .ap => some .apListening
  | .undefined => none

/-- `scan(b)` (44_hif_engine.md R219): the layout of the 44-byte payload. -/
def scanOf (b : List Byte) : ScanResult where
  index := at' b 0
  rssi := (at' b 1).toInt
  authType := at' b 2
  channel := at' b 3
  bssid := (b.drop 4).take 6
  ssid := (b.drop 10).take 33

end Sys2Proof.Machine
end

