-- ==== Sys2Proof/Machine/Ops.lean ====
section
/-! DEFINITION. The named operations of the sequencer: how rules are chained, `raise` and `return` (60_exceptions.md
R260), the transport primitive `Xfer` (20_memory.md R52), accepting a request and ending it (10_state.md R22). -/

namespace Sys2Proof.Machine

open Sys2Proof

/-- A rule of the spec: it reads the state and ends in a value or an error, and in the state its steps left. A raise
rolls nothing back (R260): the state of an error is what the completed steps wrote. -/
abbrev Op (α : Type) := State → Except DriverError α × State

/-- `return v` in a nested rule: the caller goes on with `v` (R260). -/
def Op.ret {α : Type} (a : α) : Op α := fun s => (.ok a, s)

/-- `raise E`: TAKING AN EXCEPTION (R260). Nothing is saved, no vector exists, the state stays (R261). -/
def Op.raise {α : Type} (e : DriverError) : Op α := fun s => (.error e, s)

/-- A rule that calls another: on an error "every enclosing rule stops at the point of the call; no later step of any
of them runs" (R260). -/
def Op.bind {α β : Type} (m : Op α) (f : α → Op β) : Op β := fun s =>
  match m s with
  | (.ok a, s') => f a s'
  | (.error e, s') => (.error e, s')

/-- A call whose value is not used. -/
def Op.seq {α β : Type} (m : Op α) (n : Op β) : Op β := m.bind fun _ => n

/-- `x <- v`: an assignment to state. -/
def Op.assign (f : State → State) : Op Unit := fun s => (.ok (), f s)

/-- Reading state. -/
def Op.read {α : Type} (f : State → α) : Op α := fun s => (.ok (f s), s)

/-- A write to the working storage (10_state.md R21). -/
def Op.note (f : Work → Work) : Op Unit := Op.assign fun s => { s with work := f s.work }

/-- The position `k` inside the position of the rule that calls (10_state.md R22). -/
def Seq.into (k : Nat) : Seq → Seq
  | .idle => .idle
  | .busy op path => .busy op (path ++ [k])

/-- Step `k` of a rule: while it runs the sequencer's position is that step; the next step starts from the rule's own
position again (10_state.md R22: "runs the steps of its rule in the written order"). -/
def Op.at {α : Type} (k : Nat) (m : Op α) : Op α := fun s =>
  match m { s with seq := s.seq.into k } with
  | (r, s') => (r, { s' with seq := s.seq })

/-! ## The transport -/

/-- What the pins and the peer do in the coming transfer: the next scripted answer, and past the script's end the free
value of this transfer's number (R53; log 1). -/
def nextAnswer (s : State) : PeerAnswer :=
  match s.script with
  | a :: _ => a
  | [] => Config.peerAnswer s.trace.length

/-- The receive image of a transfer of `n` bytes: exactly `n` bytes (R52 step 4); where the answer holds fewer, free
bytes (log 18). -/
def receiveImage (number : Nat) (rx : List Byte) (n : Nat) : List Byte :=
  (List.range n).map fun i => rx.getD i (Config.freeByte number i)

/-- The record of a transfer, the script advanced. -/
def afterXfer (s : State) (tx : List Byte) (fin : XferEnd) (cs : Cs) : State :=
  { s with script := s.script.tail, trace := s.trace ++ [⟨tx, fin⟩], cs := cs, work := { s.work with txb := tx } }

/-- `Xfer(tx)` (R52): assert, exchange, deassert, in this order. After a raise `cs` is a free value (R54; log 10). -/
def xfer (tx : List Byte) : Op (List Byte) := fun s =>
  let a := nextAnswer s
  let n := s.trace.length
  if !a.assertOk then (.error (.spi .pinState), afterXfer s tx .assertFailed (Config.freeCs n))
  else if !a.exchangeOk then (.error (.spi .transfer), afterXfer s tx .exchangeFailed (Config.freeCs n))
  else if !a.deassertOk then (.error (.spi .pinState), afterXfer s tx .deassertFailed (Config.freeCs n))
  else
    let rx := receiveImage n a.rx tx.length
    let s' := afterXfer s tx (.done rx) .deasserted
    (.ok rx, { s' with work := { s'.work with rx := rx } })

/-! ## Accepting a request and ending it -/

/-- A host operation is accepted: `seq <- Busy` at its entry, the operand latches taken from the port (10_state.md R21,
R22): those the operation has an operand for, the others keep what they hold (DESIGN CHOICE, log 11). -/
def accept (op : HostOp) (latch : Work → Work) (s : State) : State :=
  { s with seq := .busy op [], work := latch s.work }

/-- The result port's value of an outcome. -/
def replyOf : Except DriverError Value → Reply
  | .ok v => .ok v
  | .error e => .err e

/-- RETURN, from a value and from an exception alike (R260): `seq <- Idle`, the result or the error on the result port,
"the only record". The working storage is undefined from here on: a value of its own after each operation, made fresh
by the count of operations ended (R21, log 11). -/
def complete (r : Except DriverError Value) (s : State) : State :=
  { s with
    seq := .idle
    result := some (replyOf r)
    work := Config.freeWork s.opsEnded
    opsEnded := s.opsEnded + 1 }

/-- One host operation, from acceptance to its end (10_state.md R22). While `seq` is `Busy` the port has no move
(20_memory.md R71, 60_exceptions.md R254). -/
def runOp (op : HostOp) (latch : Work → Work) (body : Op Value) (s : State) : Host.Outcome State Fault Refusal :=
  match s.seq with
  | .busy _ _ => .refused .portBusy
  | .idle => .next (complete (body (accept op latch s)).1 (body (accept op latch s)).2)

/-- A pure function, "not on the sequencer" (30_encoding.md R100): its value on the result port, nothing else changes
(log 9). Valid at any time (70_reset_and_hazards.md R282). A bare wire command and a token of the peer, which the spec
makes no request of at all, are answered the same way, also while `seq` is `Busy` (DESIGN CHOICE, logs 6, 8). -/
def answer (v : Value) (s : State) : Host.Outcome State Fault Refusal := .next { s with result := some (.ok v) }

/-- The bounds of a block access, `1 <= count <= MAX_BLOCK` (42_register_block_access.md R165). -/
def countOk (p : Params) (n : Nat) : Bool := 1 ≤ n && n ≤ p.maxBlock

/-- An operation the port refuses before any transfer when a count is out of its bounds (R165, R254). A busy port is
the first reason. -/
def guarded (ok : Bool) (why : Refusal) (run : State → Host.Outcome State Fault Refusal) (s : State) :
    Host.Outcome State Fault Refusal :=
  match s.seq with
  | .busy _ _ => .refused .portBusy
  | .idle => if ok then run s else .refused why

/-! ## Errors on a numeric port -/

/-- The tag of an error (60_exceptions.md R242). -/
def DriverError.tag : DriverError → Nat
  | .spi .pinState => 1
  | .spi .transfer => 2
  | .spi (.readRegister _ _ _ _) => 3
  | .spi (.writeRegister _ _) => 4
  | .spi (.readData _ _) => 5
  | .spi (.writeData _ _) => 6
  | .spi (.timeout _) => 7
  | .spi .invalidSpiCommand => 8
  | .hif (.sizeMismatch _ _) => 9
  | .hif (.addressMismatch _ _) => 10

end Sys2Proof.Machine
end

