-- ==== Sys2Proof/Machine/Crc7.lean ====
section
/-! DEFINITION. The CRC7 unit (40_crc7.md R121 to R124) and the meanings of its three rows of the opcode table. -/

namespace Sys2Proof.Machine

open Sys2Proof

/-- One bit of R121: shift, and subtract the polynomial when the bit shifted out differs from the data bit. -/
def crc7Bit (poly c : BitVec 7) (b : Bool) : BitVec 7 :=
  if (c.getLsbD 6 ^^ b) = true then (c <<< 1) ^^^ poly else c <<< 1

/-- One byte of R121: bit 7 first. -/
def crc7Byte (poly c : BitVec 7) (d : Byte) : BitVec 7 :=
  let c := crc7Bit poly c (d.getLsbD 7)
  let c := crc7Bit poly c (d.getLsbD 6)
  let c := crc7Bit poly c (d.getLsbD 5)
  let c := crc7Bit poly c (d.getLsbD 4)
  let c := crc7Bit poly c (d.getLsbD 3)
  let c := crc7Bit poly c (d.getLsbD 2)
  let c := crc7Bit poly c (d.getLsbD 1)
  crc7Bit poly c (d.getLsbD 0)

/-- `crc7(init, B)` (R121), with the polynomial as a parameter. -/
def crc7 (poly init : BitVec 7) (b : List Byte) : BitVec 7 := b.foldl (crc7Byte poly) init

/-- `check_byte(cmd)` (R123): the CRC in bits 7:1, bit 0 zero. -/
def checkByte (poly : BitVec 7) (cmd : List Byte) : Byte := (crc7 poly Config.crc7Init cmd).setWidth 8 <<< 1

/-- `crc7_valid(F)` (R124): the last byte is the check byte of those before it. -/
def crc7Valid (poly : BitVec 7) (frame : List Byte) : Bool :=
  match frame.getLast? with
  | some last => last == checkByte poly frame.dropLast
  | none => false

/-- CRC7 (R121). -/
def execCrc7 (init : BitVec 7) (bytes : List Byte) (s : State) : Host.Outcome State Fault Refusal :=
  answer (.crc (crc7 s.params.crc7Poly init bytes)) s

/-- CHECK_BYTE (R123). -/
def execCheckByte (cmd : List Byte) (s : State) : Host.Outcome State Fault Refusal :=
  answer (.byte (checkByte s.params.crc7Poly cmd)) s

/-- CRC7_VALID (R124), for a frame of n + 1 bytes. On no bytes R124 states no result: the answer is a free value
(DESIGN CHOICE, log 21). -/
def execCrc7Valid (frame : List Byte) (s : State) : Host.Outcome State Fault Refusal :=
  answer (.bool
    (if frame = [] then Config.emptyFrameValid s.params.crc7Poly else crc7Valid s.params.crc7Poly frame)) s

end Sys2Proof.Machine
end

