-- ==== Sys2Proof/Machine/Encoder.lean ====
section
/-! DEFINITION. The command encoder ENCODE (41_spi_commands.md R130, R131) with one body per wire command (R132 to
R142), and the meanings of ENCODE and of the eleven wire commands. A wire command's rule defines its bytes and says
"Flags: none. Exceptions: none": its meaning is its frame on the result port, the check byte included when `crc_on`
(log 6). -/

namespace Sys2Proof.Machine

open Sys2Proof

/-- The four shapes of R80. -/
inductive Shape where
  | typeA | typeB | typeC | typeD
  deriving DecidableEq, Repr

/-- `LEN_shape` (00_scope.md R6, 30_encoding.md R80). -/
def lenShape : Shape → Nat
  | .typeA => 4
  | .typeB => 6
  | .typeC => 7
  | .typeD => 8

/-- The shape of each opcode (30_encoding.md R86). -/
def shapeOf : WireOp → Shape
  | .dmaWrite => .typeB
  | .dmaRead => .typeB
  | .internalWrite => .typeC
  | .internalRead => .typeA
  | .terminate => .typeA
  | .repeatLast => .typeA
  | .dmaExtWrite => .typeC
  | .dmaExtRead => .typeC
  | .singleWrite => .typeD
  | .singleRead => .typeA
  | .reset => .typeA

/-- `LEN_shape` of an opcode. -/
def lenOf (op : WireOp) : Nat := lenShape (shapeOf op)

/-- `address[23:16], address[15:8], address[7:0]` (R131, R132). -/
def address24 (a : Word) : List Byte := [byteAt a 2, byteAt a 1, byteAt a 0]

/-- Byte 1 of the 16-bit forms: `address[15:8]`, "or 0x80" when clockless (R134, R135; 90_conflicts.md C14). -/
def clocklessByte (a : Word) (clockless : Bool) : Byte :=
  if clockless then byteAt a 1 ||| 0x80 else byteAt a 1

/-- `data[31:24], data[23:16], data[15:8], data[7:0]` (R131). -/
def data32 (d : Word) : List Byte := [byteAt d 3, byteAt d 2, byteAt d 1, byteAt d 0]

/-- The `LEN_shape` bytes of a command, by the rule of its opcode (R132 to R142). -/
def body (p : Params) (op : WireOp) (address data size : Word) (clockless : Bool) : List Byte :=
  match op with
  | .dmaWrite => [opc p op] ++ address24 address ++ [byteAt size 1, byteAt size 0]
  | .dmaRead => [opc p op] ++ address24 address ++ [byteAt size 1, byteAt size 0]
  | .internalWrite => [opc p op, clocklessByte address clockless, byteAt address 0] ++ data32 data
  | .internalRead => [opc p op, clocklessByte address clockless, byteAt address 0, 0x00]
  | .terminate => [opc p op, 0x00, 0x00, 0x00]
  | .repeatLast => [opc p op, 0x00, 0x00, 0x00]
  | .dmaExtWrite => [opc p op] ++ address24 address ++ [byteAt size 2, byteAt size 1, byteAt size 0]
  | .dmaExtRead => [opc p op] ++ address24 address ++ [byteAt size 2, byteAt size 1, byteAt size 0]
  | .singleWrite => [opc p op] ++ address24 address ++ data32 data
  | .singleRead => [opc p op] ++ address24 address
  | .reset => [opc p op, 0xFF, 0xFF, 0xFF]

/-- The check byte behind a body when `crc_on` (30_encoding.md R85, R130). -/
def withCheck (crc : Bool) (p : Params) (b : List Byte) : List Byte :=
  if crc then b ++ [checkByte p.crc7Poly b] else b

/-- `ENCODE(op, address, data, size, clockless)` (R130): total on the eleven opcodes; reads `crc_disabled` through
`crc_on`, writes nothing. -/
def encodeFrame (s : State) (op : WireOp) (address data size : Word) (clockless : Bool) : List Byte :=
  withCheck (crcOn s) s.params (body s.params op address data size clockless)

/-- ENCODE. -/
def execEncodeCmd (op : WireOp) (address data size : Word) (clockless : Bool) (s : State) :
    Host.Outcome State Fault Refusal :=
  answer (.bytes (encodeFrame s op address data size clockless)) s

/-- DMA_WRITE (R132). -/
def execDmaWrite (address : BitVec 24) (size : BitVec 16) (s : State) : Host.Outcome State Fault Refusal :=
  answer (.bytes (encodeFrame s .dmaWrite (address.setWidth 32) 0 (size.setWidth 32) false)) s

/-- DMA_READ (R133). -/
def execDmaRead (address : BitVec 24) (size : BitVec 16) (s : State) : Host.Outcome State Fault Refusal :=
  answer (.bytes (encodeFrame s .dmaRead (address.setWidth 32) 0 (size.setWidth 32) false)) s

/-- INTERNAL_WRITE (R134); `c` is bit 7 of byte 1, "clockless OR address[15]". -/
def execInternalWrite (c : Bool) (a : BitVec 15) (data : Word) (s : State) : Host.Outcome State Fault Refusal :=
  answer (.bytes (encodeFrame s .internalWrite (a.setWidth 32) data 0 c)) s

/-- INTERNAL_READ (R135); `c` as in INTERNAL_WRITE. -/
def execInternalRead (c : Bool) (a : BitVec 15) (s : State) : Host.Outcome State Fault Refusal :=
  answer (.bytes (encodeFrame s .internalRead (a.setWidth 32) 0 0 c)) s

/-- TERMINATE (R136). -/
def execTerminate (s : State) : Host.Outcome State Fault Refusal :=
  answer (.bytes (encodeFrame s .terminate 0 0 0 false)) s

/-- REPEAT (R137). -/
def execRepeatLast (s : State) : Host.Outcome State Fault Refusal :=
  answer (.bytes (encodeFrame s .repeatLast 0 0 0 false)) s

/-- DMA_EXT_WRITE (R138). -/
def execDmaExtWrite (address size : BitVec 24) (s : State) : Host.Outcome State Fault Refusal :=
  answer (.bytes (encodeFrame s .dmaExtWrite (address.setWidth 32) 0 (size.setWidth 32) false)) s

/-- DMA_EXT_READ (R139). -/
def execDmaExtRead (address size : BitVec 24) (s : State) : Host.Outcome State Fault Refusal :=
  answer (.bytes (encodeFrame s .dmaExtRead (address.setWidth 32) 0 (size.setWidth 32) false)) s

/-- SINGLE_WRITE (R140). -/
def execSingleWrite (address : BitVec 24) (data : Word) (s : State) : Host.Outcome State Fault Refusal :=
  answer (.bytes (encodeFrame s .singleWrite (address.setWidth 32) data 0 false)) s

/-- SINGLE_READ (R141). -/
def execSingleRead (address : BitVec 24) (s : State) : Host.Outcome State Fault Refusal :=
  answer (.bytes (encodeFrame s .singleRead (address.setWidth 32) 0 0 false)) s

/-- RESET (R142): a command to the peer, not the block's own reset. -/
def execResetPeer (s : State) : Host.Outcome State Fault Refusal :=
  answer (.bytes (encodeFrame s .reset 0 0 0 false)) s

end Sys2Proof.Machine
end

