-- ==== Sys2Proof/Machine/Access.lean ====
section
/-! DEFINITION. Register and block access (42_register_block_access.md R150 to R166): the accesses as rules other rules
call, and the meanings of RDREG, WRREG, RDBLK, WRBLK. -/

namespace Sys2Proof.Machine

open Sys2Proof

/-- ENCODE as a step of an access: the frame, its operands latched (10_state.md R21(a)). R21(a) says of the latches only
that they are taken from the host port; that an access inside a rule writes all four of them again, and with them `size`
and `clockless`, which no host operation brings, is the model's choice (DESIGN CHOICE, log 11). -/
def encodeStep (op : WireOp) (address data size : Word) (clockless : Bool) : Op (List Byte) :=
  (Op.note fun w => { w with address := address, data := data, size := size, clockless := clockless }).seq
    (Op.read fun s => encodeFrame s op address data size clockless)

/-- The opcode RDREG chooses (R150): clockless at or below `RD_CLOCKLESS_MAX`. -/
def readOpFor (address : Word) : WireOp :=
  if address.toNat ≤ Config.rdClocklessMax then .internalRead else .singleRead

/-- The opcode WRREG chooses (R153): clockless at or below `WR_CLOCKLESS_MAX`. -/
def writeOpFor (address : Word) : WireOp :=
  if address.toNat ≤ Config.wrClocklessMax then .internalWrite else .singleWrite

/-- The register-read response in the receive image from `rs` on (30_encoding.md R88, R150, R152): one condition with
three terms. -/
def readResponse (p : Params) (op : WireOp) (rs : Nat) (rx : List Byte) : Except DriverError Word :=
  let echo := at' rx rs
  let st := at' rx (rs + 1)
  let mk := at' rx (rs + 2)
  if echo = opc p op ∧ decodeStatus p st = .noError ∧ isMarker mk = true then
    .ok (le32 (at' rx (rs + 3)) (at' rx (rs + 4)) (at' rx (rs + 5)) (at' rx (rs + 6)))
  else .error (.spi (.readRegister op (decodeStatus p st) st mk))

/-- The register-write response from `rs` on (30_encoding.md R89, R153, R155): the whole status byte is compared. -/
def writeResponse (p : Params) (op : WireOp) (rs : Nat) (rx : List Byte) : Except DriverError Unit :=
  if at' rx rs = opc p op ∧ at' rx (rs + 1) = 0x00 then .ok ()
  else .error (.spi (.writeRegister op (decodeStatus p (at' rx (rs + 1)))))

/-- The block-read response after its echo was found (R156 step 3, R158). -/
def readDataResponse (p : Params) (rsp : List Byte) : Except DriverError Unit :=
  if decodeStatus p (at' rsp 1) = .noError ∧ isMarker (at' rsp 2) = true then .ok ()
  else .error (.spi (.readData .dmaExtRead (decodeStatus p (at' rsp 1))))

/-- The block-write response after its echo was found (R160 step 3, R161). -/
def writeDataResponse (p : Params) (rsp : List Byte) : Except DriverError Unit :=
  if at' rsp 1 = 0x00 then .ok () else .error (.spi (.writeData .dmaExtWrite (decodeStatus p (at' rsp 1))))

/-- A test on received bytes as a step: its value, or the raise of its error. -/
def Op.check {α : Type} (r : Except DriverError α) : Op α := fun s => (r, s)

/-- `RDREG(address)` (R150): one transfer, the response in the same transfer from `rs = LEN_A + c` on (R151). Its steps,
which the spec does not number: 1 encode, 2 transfer, 3 check (log 12). -/
def rdreg (address : Word) : Op Word := fun s =>
  let op := readOpFor address
  ((Op.at 1 (encodeStep op address 0 0 (op = .internalRead))).bind fun cmd =>
    (Op.at 2 (xfer (cmd ++ zeros s.params s.params.regRspRd))).bind fun rx =>
      Op.at 3 (Op.check (readResponse s.params op (lenOf op + crcLen s) rx))) s

/-- `WRREG(address, data)` (R153): one transfer, the response from `rs = L + c` on (R154). Steps as in RDREG. -/
def wrreg (address data : Word) : Op Unit := fun s =>
  let op := writeOpFor address
  ((Op.at 1 (encodeStep op address data 0 (op = .internalWrite))).bind fun cmd =>
    (Op.at 2 (xfer (cmd ++ zeros s.params s.params.regRspWr))).bind fun rx =>
      Op.at 3 (Op.check (writeResponse s.params op (lenOf op + crcLen s) rx))) s

/-- `poll_response(opc, n, site)` (R157), `left` attempts still to make: each is one transfer of `n` fill bytes, only
byte 0 is tested, and running out raises TimeoutError(site). -/
def pollResponse (echo : Byte) (n : Nat) (site : PollSite) : Nat → Op (List Byte)
  | 0 => Op.raise (.spi (.timeout site))
  | left + 1 => fun s =>
    ((Op.note fun w => { w with respAttempt := Config.blockRetry - left }).seq
      ((xfer (zeros s.params n)).bind fun rsp =>
        if at' rsp 0 = echo then Op.ret rsp else pollResponse echo n site left)) s

/-- The completion poll of WRBLK (R160 step 6, R163), `left` attempts still to make. -/
def pollDone : Nat → Op Unit
  | 0 => Op.raise (.spi (.timeout .writeDataComplete))
  | left + 1 => fun s =>
    ((Op.note fun w => { w with doneAttempt := Config.blockRetry - left }).seq
      ((xfer (zeros s.params 1)).bind fun r =>
        if isWriteDone (at' r 0) = true then Op.ret () else pollDone left)) s

/-- Step 1 of RDBLK and WRBLK (R156, R160): the command of a block of `count` bytes in a transfer of its own, "rx
ignored". The latch `count` is written again by each block access, inside a rule too (DESIGN CHOICE, log 11). -/
def sendCommand (op : WireOp) (address count : Nat) : Op Unit :=
  (Op.note fun w => { w with count := count }).seq
    ((encodeStep op (asWord address) 0 (asWord count) false).bind fun cmd => (xfer cmd).seq (Op.ret ()))

/-- `RDBLK(address, count)` (R156), the address an integer (30_encoding.md R107(e)). The bounds on `count` are the
port's (R165): the callers have checked them. -/
def rdblk (address count : Nat) : Op (List Byte) := fun s =>
  ((Op.at 1 (sendCommand .dmaExtRead address count)).seq
    ((Op.at 2 (pollResponse (opc s.params .dmaExtRead) s.params.rdRspLen .readDataResponse Config.blockRetry)).bind
      fun rsp =>
        (Op.at 3 (Op.check (readDataResponse s.params rsp))).seq (Op.at 4 (xfer (zeros s.params count))))) s

/-- Step 4 of WRBLK (R160, R162): the mark, "rx ignored". -/
def sendMark : Op Unit := (Op.at 4 (xfer [Config.dataMark])).seq (Op.ret ())

/-- `WRBLK(address, B)` (R160): command, response poll, mark, payload, completion poll. -/
def wrblk (address : Nat) (bytes : List Byte) : Op Unit := fun s =>
  ((Op.at 1 (sendCommand .dmaExtWrite address bytes.length)).seq
    ((Op.at 2 (pollResponse (opc s.params .dmaExtWrite) s.params.wrRspLen .writeDataResponse Config.blockRetry)).bind
      fun rsp =>
        (Op.at 3 (Op.check (writeDataResponse s.params rsp))).seq
          (sendMark.seq ((Op.at 5 (xfer bytes)).seq (Op.at 6 (pollDone Config.blockRetry)))))) s

/-- The value of an operation that returns unit. -/
def Op.unit (m : Op Unit) : Op Value := m.seq (Op.ret .unit)

/-- RDREG (R150). -/
def execRdreg (address : Word) (s : State) : Host.Outcome State Fault Refusal :=
  runOp .rdreg (fun w => { w with address := address }) ((rdreg address).bind fun v => Op.ret (.word v)) s

/-- WRREG (R153). -/
def execWrreg (address data : Word) (s : State) : Host.Outcome State Fault Refusal :=
  runOp .wrreg (fun w => { w with address := address, data := data }) (wrreg address data).unit s

/-- RDBLK (R156), refused outside the bounds of R165. -/
def execRdblk (address : Word) (count : Nat) (s : State) : Host.Outcome State Fault Refusal :=
  guarded (countOk s.params count) (.countOutOfRange count)
    (runOp .rdblk (fun w => { w with address := address, count := count })
      ((rdblk address.toNat count).bind fun b => Op.ret (.bytes b))) s

/-- WRBLK (R160), refused outside the bounds of R165. -/
def execWrblk (address : Word) (bytes : List Byte) (s : State) : Host.Outcome State Fault Refusal :=
  guarded (countOk s.params bytes.length) (.countOutOfRange bytes.length)
    (runOp .wrblk (fun w => { w with address := address, count := bytes.length }) (wrblk address.toNat bytes).unit) s

end Sys2Proof.Machine
end

