-- ==== Sys2Proof/Machine/HifHeader.lean ====
section
/-! DEFINITION. The HIF header codec (43_hif_header.md R180 to R187): four pure functions and the inverse R187, and the
meanings of their five rows. -/

namespace Sys2Proof.Machine

open Sys2Proof

/-- `HDR.NEW` within its domain (R181): the length is the payload length plus 8, in 16 bits. -/
def hdrNew (g o : Byte) (n : Nat) : HifHeader := ⟨g, o, BitVec.ofNat 16 (n + Config.hifHdrLen)⟩

/-- `HDR.TOBYTES(h)` (R182). -/
def hdrToBytes (h : HifHeader) : List Byte :=
  [h.groupId, h.opcode, byteAt h.length 0, byteAt h.length 1, 0x00, 0x00, 0x00, 0x00]

/-- `HDR.FROMBYTES(B)` (R183), for at least 4 bytes: the length as received, bytes 4 and above ignored. -/
def hdrFromBytes (b : List Byte) : HifHeader := ⟨at' b 0, at' b 1, be16 (at' b 3) (at' b 2)⟩

/-- `HDR.PACK(h)` (R184): `(length << 16) | (opcode << 8) | group_id`. -/
def hdrPack (h : HifHeader) : Word :=
  (h.length.setWidth 32 <<< 16) ||| (h.opcode.setWidth 32 <<< 8) ||| h.groupId.setWidth 32

/-- `HDR.UNPACK w` (R187). -/
def hdrUnpack (w : Word) : HifHeader := ⟨byteAt w 0, byteAt w 1, (w >>> 16).setWidth 16⟩

/-- HDR.NEW (R181), refused above 0xFFF7. -/
def execHdrNew (g o : Byte) (n : Nat) (s : State) : Host.Outcome State Fault Refusal :=
  if n ≤ Config.hdrPayloadMax then answer (.header (hdrNew g o n)) s else .refused (.payloadTooLong n)

/-- HDR.TOBYTES (R182). -/
def execHdrToBytes (h : HifHeader) (s : State) : Host.Outcome State Fault Refusal := answer (.bytes (hdrToBytes h)) s

/-- HDR.FROMBYTES (R183), "for len(B) >= 4". For fewer bytes R183 states no result: the header is a free value, every
header being the unpacking of one word (DESIGN CHOICE, log 21). -/
def execHdrFromBytes (b : List Byte) (s : State) : Host.Outcome State Fault Refusal :=
  answer (.header (if 4 ≤ b.length then hdrFromBytes b else hdrUnpack (Config.shortHeader b))) s

/-- HDR.PACK (R184). -/
def execHdrPack (h : HifHeader) (s : State) : Host.Outcome State Fault Refusal := answer (.word (hdrPack h)) s

/-- HDR.UNPACK (R187). -/
def execHdrUnpack (w : Word) (s : State) : Host.Outcome State Fault Refusal := answer (.header (hdrUnpack w)) s

end Sys2Proof.Machine
end

