-- ==== Sys2Proof/Machine/HifEngine.lean ====
section
/-! DEFINITION. The HIF engine (44_hif_engine.md R190 to R222): send, interrupt service, receive, finish and dispatch
as rules that call each other, and the meanings of HSEND, HISR, HRECV, HFIN. -/

namespace Sys2Proof.Machine

open Sys2Proof

/-! ## HSEND -/

/-- The busy poll (R192), `left` attempts still to make: one RDREG each, one bit tested. -/
def pollBusy : Nat → Op Unit
  | 0 => Op.raise (.spi (.timeout .sendBusy))
  | left + 1 => fun s =>
    ((Op.note fun w => { w with busyAttempt := Config.sendRetry - left }).seq
      ((rdreg s.params.regTxCtrl).bind fun v =>
        if bitOf v s.params.txBusyBit = false then Op.ret () else pollBusy left)) s

/-- A block write that is skipped for an empty buffer (R190 steps 6 and 7, R191(b)). -/
def wrblkIfAny (address : Nat) (bytes : List Byte) : Op Unit :=
  if bytes = [] then Op.ret () else wrblk address bytes

/-- `HSEND(h, data, ctrl)` (R190), steps 1 to 8. -/
def hsend (h : HifHeader) (data ctrl : List Byte) : Op Unit := fun s =>
  ((Op.at 1 (wrreg s.params.regHifHdr (hdrPack h))).seq
    ((Op.at 2 (wrreg s.params.regTxCtrl (bitMask s.params.txFlagBit))).seq
      ((Op.at 3 (pollBusy Config.sendRetry)).seq
        ((Op.at 4 (rdreg s.params.regTxAddr)).bind fun a =>
          (Op.at 5 (wrblk a.toNat (hdrToBytes h))).seq
            ((Op.at 6 (wrblkIfAny (a.toNat + Config.hifHdrLen) data)).seq
              ((Op.at 7 (wrblkIfAny (a.toNat + Config.hifHdrLen + data.length) ctrl)).seq
                (Op.at 8 (wrreg s.params.regTxCommit (commitWord s.params a))))))))) s

/-! ## HFIN and HRECV -/

/-- `HFIN()` (R210): the flag first, then read, then write back with bit 1 set (R211). -/
def hfin : Op Unit := fun s =>
  ((Op.at 1 (Op.assign (setReadDone true))).seq
    ((Op.at 2 (rdreg s.params.regRcvCtrl0)).bind fun reg =>
      Op.at 3 (wrreg s.params.regRcvCtrl0 (setBit reg Config.rxDoneBit)))) s

/-- The size check of HRECV (R205). -/
def sizeCheck (c : Ctx) (n : Nat) : Except DriverError Unit :=
  if c.readSize.toNat < n then .error (.hif (.sizeMismatch n c.readSize.toNat)) else .ok ()

/-- The containment check of HRECV (R206), on integers without wrap. -/
def windowCheck (c : Ctx) (address n : Nat) : Except DriverError Unit :=
  if address < c.readAddr.toNat ∨ c.readAddr.toNat + c.readSize.toNat < address + n then
    .error (.hif (.addressMismatch address c.readAddr.toNat))
  else .ok ()

/-- Both checks of HRECV pass. -/
def inWindow (c : Ctx) (address n : Nat) : Bool := (sizeCheck c n).isOk && (windowCheck c address n).isOk

/-- Step 4 of HRECV (R208): HFIN when the read ends at the packet's end. -/
def finishAtEnd (address n : Nat) : Op Unit := fun s =>
  if s.ctx.readAddr.toNat + s.ctx.readSize.toNat ≤ address + n then hfin s else Op.ret () s

/-- `HRECV(address, n)` (R204): checks, block read, and HFIN when the read ends at the packet's end (R208). It does not
look at `ctx.read_done` (R207). -/
def hrecv (address n : Nat) : Op (List Byte) := fun s =>
  ((Op.at 1 (Op.check (sizeCheck s.ctx n))).seq
    ((Op.at 2 (Op.check (windowCheck s.ctx address n))).seq
      ((Op.at 3 (rdblk address n)).bind fun d =>
        (Op.at 4 (finishAtEnd address n)).seq (Op.ret d)))) s

/-! ## Dispatch -/

/-- The write of the connection-status transition, from payload byte 0 (R215, R216). -/
def applyConState (b : List Byte) (s : State) : State :=
  match conStatusOf s.ds.mode (decodeConState s.params (at' b 0)) with
  | some c => { s with ds := { s.ds with connStatus := some c } }
  | none => s

/-- The write of the system-time handler (R217). -/
def applySysTime (b : List Byte) (s : State) : State := { s with ds := { s.ds with sysTime := some b } }

/-- The write of the connection-info handler (R218). -/
def applyConnInfo (b : List Byte) (s : State) : State := { s with ds := { s.ds with connInfo := some b } }

/-- The write of the scan-result handler (R219). -/
def applyScanResult (b : List Byte) (s : State) : State := { s with ds := { s.ds with scanResult := some (scanOf b) } }

/-- The handler template (R214): one HRECV of a fixed size at the payload address, then the write to `ds`. -/
def handler (paddr size : Nat) (write : List Byte → State → State) : Op Unit :=
  (hrecv paddr size).bind fun b => Op.assign (write b)

/-- `wifi_callback(v, paddr)` (R213, R220). -/
def wifiCallback (v : WifiCommand) (paddr : Nat) : Op Unit :=
  match v with
  | .respConStateChanged => handler paddr Config.szConState applyConState
  | .respGetSysTime => handler paddr Config.szSysTime applySysTime
  | .respConnInfo => handler paddr Config.szConnInfo applyConnInfo
  | .respScanResult => handler paddr Config.szScanResult applyScanResult
  | .named _ => Op.ret ()
  | .invalid => Op.ret ()

/-- `ip_callback(v, paddr)` (R221): nothing, for every variant. -/
def ipCallback (_v : SocketCommand) (_paddr : Nat) : Op Unit := Op.ret ()

/-- HISR step 6 after routing (R201): the callback of the group, nothing for an unknown group. -/
def dispatch (cmd : Option Command) (paddr : Nat) : Op Unit :=
  match cmd with
  | some (.wifi v) => wifiCallback v paddr
  | some (.ip v) => ipCallback v paddr
  | none => Op.ret ()

/-- HISR step 7 (R203): HFIN unless a handler's read already ran it. -/
def finishIfOpen : Op Unit := fun s => if s.ctx.readDone = false then hfin s else Op.ret () s

/-- HISR steps 6 and 7 for a packet whose header has been read: dispatch at `ctx.read_addr + 8` (R200), release, and
the command as the result (R202). -/
def servicePacket (cmd : Option Command) : Op Value := fun s =>
  ((Op.at 6 (dispatch cmd (s.ctx.readAddr.toNat + Config.hifHdrLen))).seq
    ((Op.at 7 finishIfOpen).seq (Op.ret (.command cmd)))) s

/-- HISR step 5 (R198): the address read, `ctx` written, then the header read by a plain RDBLK of 4 bytes. -/
def fetchHeader (size : Word) : Op HifHeader := fun s =>
  ((rdreg s.params.regRcvCtrl1).bind fun addr =>
    (Op.assign fun s => { s with ctx := { s.ctx with readAddr := addr, readSize := size } }).seq
      ((rdblk addr.toNat Config.hifHdrRead).bind fun hb => Op.ret (hdrFromBytes hb))) s

/-- `HISR()` (R193), with the nested reading of step 2 (R194) and `size = 0` as R197 says. -/
def hisr : Op Value := fun s =>
  ((Op.at 1 (rdreg s.params.regRcvCtrl0)).bind fun reg =>
    if bitOf reg s.params.newDataBit = false then Op.ret (.command none)
    else
      (Op.at 2 (wrreg s.params.regRcvCtrl0 (clearBit reg s.params.newDataBit))).seq
        ((Op.at 3 (Op.assign (setReadDone false))).seq
          ((Op.at 4 (Op.ret (sizeField reg))).bind fun size =>
            if size = 0 then (Op.at 7 finishIfOpen).seq (Op.ret (.command none))
            else (Op.at 5 (fetchHeader size)).bind fun h => servicePacket (routeHeader s.params h)))) s

/-! ## The meanings -/

/-- HSEND (R190): each buffer "of length 0 to `MAX_BLOCK`". -/
def execHsend (h : HifHeader) (data ctrl : List Byte) (s : State) : Host.Outcome State Fault Refusal :=
  guarded (decide (data.length ≤ s.params.maxBlock)) (.countOutOfRange data.length)
    (guarded (decide (ctrl.length ≤ s.params.maxBlock)) (.countOutOfRange ctrl.length)
      (runOp .hsend id (hsend h data ctrl).unit)) s

/-- HISR (R193): `ds.mode` is its argument (10_state.md R31; log 13). -/
def execHisr (mode : Mode) (s : State) : Host.Outcome State Fault Refusal :=
  runOp .hisr id ((Op.assign fun s => { s with ds := { s.ds with mode := mode } }).seq hisr) s

/-- HRECV (R204). A count that passes both checks and is outside RDBLK's bounds is refused (R207, R165). -/
def execHrecv (address : Word) (n : Nat) (s : State) : Host.Outcome State Fault Refusal :=
  guarded (!inWindow s.ctx address.toNat n || countOk s.params n) (.countOutOfRange n)
    (runOp .hrecv (fun w => { w with address := address, count := n })
      ((hrecv address.toNat n).bind fun b => Op.ret (.bytes b))) s

/-- HFIN (R210). -/
def execHfin (s : State) : Host.Outcome State Fault Refusal := runOp .hfin id hfin.unit s

end Sys2Proof.Machine
end

