-- ==== Sys2Proof/Machine/Packets.lean ====
section
/-! DEFINITION. The seven kinds of inbound packet (30_encoding.md R103 to R105): the meaning of each is what HISR does
with a packet of that header, its steps 6 and 7 (44_hif_engine.md R193, R201, R213 to R221), on the packet at
`ctx.read_addr` (log 7). The header's length is "parsed and then used by no rule" (R199). -/

namespace Sys2Proof.Machine

open Sys2Proof

/-- HISR from step 6 on, as the sequencer runs it. -/
def runPacket (cmd : Option Command) (s : State) : Host.Outcome State Fault Refusal :=
  runOp .hisr id (servicePacket cmd) s

/-- HIF.WIFI.RespConStateChanged (R215, R216). -/
def execHifConState (_length : BitVec 16) (s : State) : Host.Outcome State Fault Refusal :=
  runPacket (some (.wifi .respConStateChanged)) s

/-- HIF.WIFI.RespGetSysTime (R217). -/
def execHifSysTime (_length : BitVec 16) (s : State) : Host.Outcome State Fault Refusal :=
  runPacket (some (.wifi .respGetSysTime)) s

/-- HIF.WIFI.RespConnInfo (R218). -/
def execHifConnInfo (_length : BitVec 16) (s : State) : Host.Outcome State Fault Refusal :=
  runPacket (some (.wifi .respConnInfo)) s

/-- HIF.WIFI.RespScanResult (R219). -/
def execHifScanResult (_length : BitVec 16) (s : State) : Host.Outcome State Fault Refusal :=
  runPacket (some (.wifi .respScanResult)) s

/-- HIF.WIFI.other (R220): a no-op of dispatch; the packet is released, the variant returned. -/
def execHifWifiOther (opcode : Byte) (_length : BitVec 16) (s : State) : Host.Outcome State Fault Refusal :=
  runPacket (some (.wifi (wifiTable s.params opcode))) s

/-- HIF.IP.any (R221): a no-op of dispatch; the packet is released, the variant returned. -/
def execHifIpAny (opcode : Byte) (_length : BitVec 16) (s : State) : Host.Outcome State Fault Refusal :=
  runPacket (some (.ip (socketTable s.params opcode))) s

/-- HIF.unknown_group (R201): "silently ignored"; the packet is released, no command returned. -/
def execHifUnknownGroup (_groupId _opcode : Byte) (_length : BitVec 16) (s : State) :
    Host.Outcome State Fault Refusal :=
  runPacket none s

end Sys2Proof.Machine
end

