-- ==== Sys2Proof/Machine/Session.lean ====
section
/-! DEFINITION. Session control and reset: CRCOFF (45_session_control.md R230) and BRESET (70_reset_and_hazards.md
R280). -/

namespace Sys2Proof.Machine

open Sys2Proof

/-- The assignments of BRESET (R280) but for `seq`, which the operation's end sets Idle. The peer, the ports, the
parameters and `ds.mode` stay (R280, R281; log 19). -/
def resetBlock (s : State) : State :=
  { s with
    crcDisabled := false
    ctx := Ctx.reset
    cs := .deasserted
    ds := { s.ds with connStatus := none, scanResult := none, sysTime := none, connInfo := none } }

/-- CRCOFF (R230): one write, no transfer. R230 numbers no step: that the write runs at position 1 is the model's choice
(DESIGN CHOICE, log 12). -/
def execCrcoff (s : State) : Host.Outcome State Fault Refusal :=
  runOp .crcoff id ((Op.at 1 (Op.assign setCrcDisabled)).seq (Op.ret .unit)) s

/-- BRESET (R280): no transfer, cannot fail, "admitted only when `seq = Idle`". R280 numbers no step: that its
assignments run as one step at position 1 is the model's choice (DESIGN CHOICE, log 12). -/
def execBreset (s : State) : Host.Outcome State Fault Refusal :=
  runOp .breset id ((Op.at 1 (Op.assign resetBlock)).seq (Op.ret .unit)) s

end Sys2Proof.Machine
end

