-- ==== Sys2Proof/Machine/Tokens.lean ====
section
/-! DEFINITION. The three tokens (30_encoding.md R91, R92; log 8). The token the block sends is the transfer that sends
it; a token the peer sends is the acceptance test the block applies to it. -/

namespace Sys2Proof.Machine

open Sys2Proof

/-- DATA_MARK (R91, 42_register_block_access.md R160 step 4, R162): one byte "in a transfer of its own", what is
received with it ignored; the sequencer is at step 4 of WRBLK. -/
def execDataMark (s : State) : Host.Outcome State Fault Refusal :=
  runOp .wrblk id sendMark.unit s

/-- WRITE_DONE (R163): the completion test on the received byte 0xC3. -/
def execWriteDone (s : State) : Host.Outcome State Fault Refusal := answer (.bool (isWriteDone Config.writeDone)) s

/-- READ_MARKER (R88): the marker test on the received byte; "the low nibble is ignored". -/
def execReadMarker (low : BitVec 4) (s : State) : Host.Outcome State Fault Refusal :=
  answer (.bool (isMarker ((0xF : BitVec 4) ++ low))) s

end Sys2Proof.Machine
end

