-- ==== Sys2Proof/Machine/Dispatch.lean ====
section
/-! DEFINITION. One arm per instruction: the direct call of its meaning. -/

namespace Sys2Proof.Machine

open Sys2Proof

def exec (i : Instr) (s : State) : Host.Outcome State Fault Refusal :=
  match i with
  | .dmaWrite address size => Sys2Proof.Machine.execDmaWrite address size s
  | .dmaRead address size => Sys2Proof.Machine.execDmaRead address size s
  | .internalWrite c a data => Sys2Proof.Machine.execInternalWrite c a data s
  | .internalRead c a => Sys2Proof.Machine.execInternalRead c a s
  | .terminate => Sys2Proof.Machine.execTerminate s
  | .repeatLast => Sys2Proof.Machine.execRepeatLast s
  | .dmaExtWrite address size => Sys2Proof.Machine.execDmaExtWrite address size s
  | .dmaExtRead address size => Sys2Proof.Machine.execDmaExtRead address size s
  | .singleWrite address data => Sys2Proof.Machine.execSingleWrite address data s
  | .singleRead address => Sys2Proof.Machine.execSingleRead address s
  | .resetPeer => Sys2Proof.Machine.execResetPeer s
  | .rdreg address => Sys2Proof.Machine.execRdreg address s
  | .wrreg address data => Sys2Proof.Machine.execWrreg address data s
  | .rdblk address count => Sys2Proof.Machine.execRdblk address count s
  | .wrblk address bytes => Sys2Proof.Machine.execWrblk address bytes s
  | .hsend header data ctrl => Sys2Proof.Machine.execHsend header data ctrl s
  | .hisr mode => Sys2Proof.Machine.execHisr mode s
  | .hrecv address n => Sys2Proof.Machine.execHrecv address n s
  | .hfin => Sys2Proof.Machine.execHfin s
  | .crcoff => Sys2Proof.Machine.execCrcoff s
  | .breset => Sys2Proof.Machine.execBreset s
  | .encodeCmd op address data size clockless => Sys2Proof.Machine.execEncodeCmd op address data size clockless s
  | .crc7 init bytes => Sys2Proof.Machine.execCrc7 init bytes s
  | .checkByte cmd => Sys2Proof.Machine.execCheckByte cmd s
  | .crc7Valid frame => Sys2Proof.Machine.execCrc7Valid frame s
  | .hdrNew groupId opcode payloadLen => Sys2Proof.Machine.execHdrNew groupId opcode payloadLen s
  | .hdrToBytes h => Sys2Proof.Machine.execHdrToBytes h s
  | .hdrFromBytes bytes => Sys2Proof.Machine.execHdrFromBytes bytes s
  | .hdrPack h => Sys2Proof.Machine.execHdrPack h s
  | .hdrUnpack w => Sys2Proof.Machine.execHdrUnpack w s
  | .hifConState length => Sys2Proof.Machine.execHifConState length s
  | .hifSysTime length => Sys2Proof.Machine.execHifSysTime length s
  | .hifConnInfo length => Sys2Proof.Machine.execHifConnInfo length s
  | .hifScanResult length => Sys2Proof.Machine.execHifScanResult length s
  | .hifWifiOther opcode length => Sys2Proof.Machine.execHifWifiOther opcode length s
  | .hifIpAny opcode length => Sys2Proof.Machine.execHifIpAny opcode length s
  | .hifUnknownGroup groupId opcode length => Sys2Proof.Machine.execHifUnknownGroup groupId opcode length s
  | .dataMark => Sys2Proof.Machine.execDataMark s
  | .writeDone => Sys2Proof.Machine.execWriteDone s
  | .readMarker low => Sys2Proof.Machine.execReadMarker low s

end Sys2Proof.Machine
end

