-- ==== Sys2Proof/Machine/Step.lean ====
section
/-! DEFINITION. One step: the request at the front of the host port is decoded and run. With nothing on the port the
sequencer stays as it is (10_state.md R22: it is the host that issues operations; log 17). -/

namespace Sys2Proof.Machine

open Sys2Proof

/-- The state with the front request taken from the port. -/
def State.popPort (s : State) : State := { s with port := s.port.tail }

/-- One step of the machine: one whole request (70_reset_and_hazards.md R300: "A model steps per host operation or per
transfer"; log 12). -/
def step (s : State) : Host.Outcome State Fault Refusal :=
  match s.port with
  | [] => .next s
  | r :: _ =>
    match decode s.params r with
    | .ok i => exec i s.popPort
    | .error e => .refused (.undecodable e)

/-- `s` with the request a table word stands for at the front of the port: what the host does when it issues a request
(log 4). -/
def State.withFetchWord (s : State) (nbits w : Nat) : State :=
  { s with port := tableRequest s.params nbits w :: s.port }

end Sys2Proof.Machine
end

