-- ==== Sys2Proof/Safety.lean ====
section
/-! DEFINITION. The terms claims are stated in: the invariant of the state, what a run that goes on is, and the
TRANSCRIPTS of the spec. A transcript says, without reference to how the machine computes, which transfers an
operation makes and what the peer answers in each, for the operation to end as its rule says (30_encoding.md R102 is
the table of them). -/

namespace Sys2Proof.Machine

open Sys2Proof

/-! ## The invariant -/

/-- The widths of the sink registers (10_state.md R33 to R35). -/
def DriverState.widthsOk (d : DriverState) : Prop :=
  (∀ b, d.sysTime = some b → b.length = 8) ∧
  (∀ b, d.connInfo = some b → b.length = 48) ∧
  (∀ r, d.scanResult = some r → r.bssid.length = 6 ∧ r.ssid.length = 33 ∧ -128 ≤ r.rssi ∧ r.rssi ≤ 127)

/-- What every reachable state satisfies: the parameters meet the spec's constraints, `ctx.read_size <= 4095`
(70_reset_and_hazards.md R306(a)), the sink registers have their widths. -/
structure State.Inv (s : State) : Prop where
  params : s.params.WellFormed
  readSize : s.ctx.readSize.toNat ≤ 4095
  widths : s.ds.widthsOk

/-- The machine goes on. -/
def goesOn (o : Host.Outcome State Fault Refusal) : Prop := ∃ t, o = .next t

/-! ## Transcripts -/

/-- One transfer in which pins and link succeed: the bytes sent and the bytes received. -/
structure Exchange where
  tx : List Byte
  rx : List Byte
  deriving DecidableEq, Repr

/-- What the peer does in it. -/
def Exchange.answer (x : Exchange) : PeerAnswer := ⟨true, true, true, x.rx⟩

/-- How the transport port shows it. -/
def Exchange.transfer (x : Exchange) : Transfer := ⟨x.tx, .done x.rx⟩

/-- The bytes `tx` are sent; as many are received (20_memory.md R52). -/
def Exchange.sends (x : Exchange) (tx : List Byte) : Prop := x.tx = tx ∧ x.rx.length = tx.length

/-- The peer answers `exs` next, and `rest` after that. -/
def State.meets (s : State) (exs : List Exchange) (rest : List PeerAnswer) : Prop :=
  s.script = exs.map Exchange.answer ++ rest

/-- The state after an operation that ended in `r` and made exactly the transfers `exs`: idle, the reply on the result
port, the transfers on the transport port, chip-select released after the last of them; the working storage is the free
value of this operation. Nothing else differs from `s`. -/
def State.ended (s : State) (r : Reply) (exs : List Exchange) (rest : List PeerAnswer) : State :=
  { s with
    seq := .idle
    result := some r
    cs := if exs = [] then s.cs else .deasserted
    script := rest
    trace := s.trace ++ exs.map Exchange.transfer
    work := Config.freeWork s.opsEnded
    opsEnded := s.opsEnded + 1 }

/-- RDREG reads `v` (R88, R150): the command of R135 or R141 and fill; from `rs = 4 + c` on the echo, a status whose
code is 0, a marker, and the four bytes of `v`, least significant first. -/
def ReadsReg (s : State) (a v : Word) (exs : List Exchange) : Prop :=
  ∃ x, exs = [x] ∧
    ∃ op clk, (a.toNat ≤ 0xFF ∧ op = .internalRead ∧ clk = true ∨ 0xFF < a.toNat ∧ op = .singleRead ∧ clk = false) ∧
      x.sends (encodeFrame s op a 0 0 clk ++ zeros s.params s.params.regRspRd) ∧
      at' x.rx (4 + crcLen s) = s.params.opc.byteOf op ∧
      at' x.rx (5 + crcLen s) &&& s.params.statusMask = 0 ∧
      at' x.rx (6 + crcLen s) &&& 0xF0 = 0xF0 ∧
      v = le32 (at' x.rx (7 + crcLen s)) (at' x.rx (8 + crcLen s)) (at' x.rx (9 + crcLen s)) (at' x.rx (10 + crcLen s))

/-- WRREG writes `d` (R89, R153): the command of R134 or R140 and fill; from `rs = L + c` on the echo and a zero byte.
-/
def WritesReg (s : State) (a d : Word) (exs : List Exchange) : Prop :=
  ∃ x, exs = [x] ∧
    ∃ op clk L, (a.toNat ≤ 0x30 ∧ op = .internalWrite ∧ clk = true ∧ L = 7 ∨
        0x30 < a.toNat ∧ op = .singleWrite ∧ clk = false ∧ L = 8) ∧
      x.sends (encodeFrame s op a d 0 clk ++ zeros s.params s.params.regRspWr) ∧
      at' x.rx (L + crcLen s) = s.params.opc.byteOf op ∧
      at' x.rx (L + 1 + crcLen s) = 0

/-- A response poll that finds its echo in `hit` after the misses (R157): at most ten transfers of `n` fill bytes. -/
def PollsEcho (s : State) (op : WireOp) (n : Nat) (misses : List Exchange) (hit : Exchange) : Prop :=
  misses.length < 10 ∧
  (∀ m ∈ misses, m.sends (zeros s.params n) ∧ at' m.rx 0 ≠ s.params.opc.byteOf op) ∧
  hit.sends (zeros s.params n) ∧ at' hit.rx 0 = s.params.opc.byteOf op

/-- RDBLK reads the bytes `d` (R156): command, response poll with status code 0 and a marker, data. -/
def ReadsBlock (s : State) (a n : Nat) (d : List Byte) (exs : List Exchange) : Prop :=
  ∃ cmd misses hit dat, exs = cmd :: (misses ++ [hit, dat]) ∧
    cmd.sends (encodeFrame s .dmaExtRead (BitVec.ofNat 32 a) 0 (BitVec.ofNat 32 n) false) ∧
    PollsEcho s .dmaExtRead s.params.rdRspLen misses hit ∧
    at' hit.rx 1 &&& s.params.statusMask = 0 ∧ at' hit.rx 2 &&& 0xF0 = 0xF0 ∧
    dat.sends (zeros s.params n) ∧ dat.rx = d

/-- WRBLK writes the bytes `b` (R160): command, response poll with a zero status byte, mark, payload, completion poll.
-/
def WritesBlock (s : State) (a : Nat) (b : List Byte) (exs : List Exchange) : Prop :=
  ∃ cmd misses hit mark payload waits last, exs = cmd :: (misses ++ hit :: mark :: payload :: (waits ++ [last])) ∧
    cmd.sends (encodeFrame s .dmaExtWrite (BitVec.ofNat 32 a) 0 (BitVec.ofNat 32 b.length) false) ∧
    PollsEcho s .dmaExtWrite s.params.wrRspLen misses hit ∧ at' hit.rx 1 = 0 ∧
    mark.sends [0xF3] ∧ payload.sends b ∧
    waits.length < 10 ∧ (∀ w ∈ waits, w.sends (zeros s.params 1) ∧ at' w.rx 0 ≠ 0xC3) ∧
    last.sends (zeros s.params 1) ∧ at' last.rx 0 = 0xC3

/-- HFIN's two transfers (R210, R211): the receive-control word read and written back with bit 1 set. -/
def Finishes (s : State) (exs : List Exchange) : Prop :=
  ∃ reg r w, exs = r ++ w ∧ ReadsReg s s.params.regRcvCtrl0 reg r ∧
    WritesReg s s.params.regRcvCtrl0 (reg ||| 2) w

/-- HFIN's transfers where it is needed, none where it is not. -/
def FinishesIf (s : State) (needed : Prop) (exs : List Exchange) : Prop :=
  needed ∧ Finishes s exs ∨ ¬ needed ∧ exs = []

/-- A block write of HSEND that is skipped for an empty buffer (R191(b)). -/
def WritesBlockIfAny (s : State) (a : Nat) (b : List Byte) (exs : List Exchange) : Prop :=
  b = [] ∧ exs = [] ∨ b ≠ [] ∧ WritesBlock s a b exs

/-- The busy poll of HSEND (R192): `busy` register reads with the busy bit set, at most 99, and one with it clear. -/
def PollsBusy (s : State) (exs : List Exchange) : Prop :=
  ∃ (busy : List (List Exchange)) (free : List Exchange) (v : Word), exs = busy.flatten ++ free ∧ busy.length < 100 ∧
    (∀ b ∈ busy, ∃ u : Word, ReadsReg s s.params.regTxCtrl u b ∧ u.getLsbD s.params.txBusyBit = true) ∧
    ReadsReg s s.params.regTxCtrl v free ∧ v.getLsbD s.params.txBusyBit = false

/-- HSEND (R190), steps 1 to 8 in order. -/
def Sends (s : State) (h : HifHeader) (data ctrl : List Byte) (exs : List Exchange) : Prop :=
  ∃ (a : Word) (e1 e2 e3 e4 e5 e6 e7 e8 : List Exchange),
    exs = e1 ++ e2 ++ e3 ++ e4 ++ e5 ++ e6 ++ e7 ++ e8 ∧
    WritesReg s s.params.regHifHdr (hdrPack h) e1 ∧
    WritesReg s s.params.regTxCtrl (1#32 <<< s.params.txFlagBit) e2 ∧
    PollsBusy s e3 ∧
    ReadsReg s s.params.regTxAddr a e4 ∧
    WritesBlock s a.toNat (hdrToBytes h) e5 ∧
    WritesBlockIfAny s (a.toNat + 8) data e6 ∧
    WritesBlockIfAny s (a.toNat + 8 + data.length) ctrl e7 ∧
    WritesReg s s.params.regTxCommit ((a <<< 2) ||| (1#32 <<< s.params.txReadyBit)) e8

/-- HISR's steps 1, 2 and 5 for a packet of `size` bytes at `addr` whose first four bytes are `hb` (R193 to R199):
`size` is bits 13:2 of the word read, the word is written back with only the new-data bit cleared. -/
def Announces (s : State) (size addr : Word) (hb : List Byte) (exs : List Exchange) : Prop :=
  ∃ (reg : Word) (e1 e2 e3 e4 : List Exchange), exs = e1 ++ e2 ++ e3 ++ e4 ∧
    reg.getLsbD s.params.newDataBit = true ∧ size.toNat = reg.toNat / 4 % 4096 ∧ size ≠ 0 ∧
    ReadsReg s s.params.regRcvCtrl0 reg e1 ∧
    WritesReg s s.params.regRcvCtrl0 (reg &&& ~~~(1#32 <<< s.params.newDataBit)) e2 ∧
    ReadsReg s s.params.regRcvCtrl1 addr e3 ∧
    ReadsBlock s addr.toNat 4 hb e4

/-- The payload size of a handled variant (44_hif_engine.md R213), none for a no-op. -/
def payloadSize : Option Command → Option Nat
  | some (.wifi .respConStateChanged) => some 4
  | some (.wifi .respGetSysTime) => some 8
  | some (.wifi .respConnInfo) => some 48
  | some (.wifi .respScanResult) => some 44
  | _ => none

/-- What the payload `b` of a handled variant leaves in the sink registers (R215 to R219): the table of R216 for the
connection state, the other three as R217 to R219 say. -/
def sinkAfter (s : State) (cmd : Option Command) (b : List Byte) : DriverState :=
  match cmd with
  | some (.wifi .respConStateChanged) =>
    if at' b 0 = s.params.csConnected then
      { s.ds with connStatus := some (match s.ds.mode with | .station => .connected | .ap => .apConnected) }
    else if at' b 0 = s.params.csDisconnected then
      { s.ds with connStatus := some (match s.ds.mode with | .station => .disconnected | .ap => .apListening) }
    else s.ds
  | some (.wifi .respGetSysTime) => { s.ds with sysTime := some b }
  | some (.wifi .respConnInfo) => { s.ds with connInfo := some b }
  | some (.wifi .respScanResult) =>
    let r : ScanResult :=
      ⟨at' b 0, (at' b 1).toInt, at' b 2, at' b 3, (b.drop 4).take 6, (b.drop 10).take 33⟩
    { s.ds with scanResult := some r }
  | _ => s.ds

/-- The transfers of steps 6 and 7 for a packet at `ctx` (R203, R208, R213, R214): the handler's one read at
`ctx.read_addr + 8` where there is a handler and the packet is long enough, then HFIN if the packet is still open or
the read ended at its end. `b` is the payload read, empty for a no-op. -/
def Services (s : State) (cmd : Option Command) (b : List Byte) (exs : List Exchange) : Prop :=
  match payloadSize cmd with
  | some k => 8 + k ≤ s.ctx.readSize.toNat ∧ ∃ e1 e2, exs = e1 ++ e2 ∧
      ReadsBlock s (s.ctx.readAddr.toNat + 8) k b e1 ∧
      FinishesIf s (s.ctx.readDone = false ∨ s.ctx.readSize.toNat = 8 + k) e2
  | none => b = [] ∧ FinishesIf s (s.ctx.readDone = false) exs

/-! ## Ends -/

/-- What a pure function leaves: its value on the result port, nothing else changed (30_encoding.md R100; log 9). -/
def State.answered (s : State) (v : Value) : State := { s with result := some (.ok v) }

/-- What a wire command leaves: its bytes and, when `crc_on`, their check byte (R80, R85; log 6). -/
def State.framed (s : State) (b : List Byte) : State :=
  s.answered (.bytes (b ++ if crcOn s = true then [checkByte s.params.crc7Poly b] else []))

/-- How an answer of the pins and the link fails a transfer, in the order of 20_memory.md R52. -/
def transferFails (a : PeerAnswer) (e : SpiError) (fin : XferEnd) : Prop :=
  a.assertOk = false ∧ e = .pinState ∧ fin = .assertFailed ∨
  a.assertOk = true ∧ a.exchangeOk = false ∧ e = .transfer ∧ fin = .exchangeFailed ∨
  a.assertOk = true ∧ a.exchangeOk = true ∧ a.deassertOk = false ∧ e = .pinState ∧ fin = .deassertFailed

/-- `t` differs from `s` at most in what every operation of the sequencer may touch: the link (chip-select, the script
advanced, transfers on the trace), the working storage and the count it is drawn by, the result, and `ctx` and `ds` as
given. -/
def State.onlyTouches (s t : State) (ctx : Ctx) (ds : DriverState) : Prop :=
  ∃ ts : List Transfer,
    t = { s with
      seq := .idle
      cs := t.cs
      ctx := ctx
      ds := ds
      work := Config.freeWork s.opsEnded
      opsEnded := s.opsEnded + 1
      script := s.script.drop ts.length
      trace := s.trace ++ ts
      result := t.result }

/-! ## Failing transcripts (60_exceptions.md R258, R260, R262, R264)

A rule fails either because a transfer breaks or because bytes received in a good transfer do not pass its test. -/

/-- A transfer that the pins or the link break: the bytes presented, what pins and link do, how it ends. -/
structure Cut where
  tx : List Byte
  answer : PeerAnswer
  fin : XferEnd
  deriving DecidableEq, Repr

/-- How the transport port shows it. -/
def Cut.transfer (c : Cut) : Transfer := ⟨c.tx, c.fin⟩

/-- A way to fail: the error, the transfers that succeeded, and behind them the one that broke, if one did. -/
abbrev Failure := DriverError → List Exchange → Option Cut → Prop

/-- The transfer of the bytes `tx` breaks: the transport error of 20_memory.md R52 it breaks with. -/
def Breaks (tx : List Byte) : Failure := fun e exs cut =>
  exs = [] ∧ ∃ c x, cut = some c ∧ c.tx = tx ∧ transferFails c.answer x c.fin ∧ e = .spi x

/-- The peer and the pins answer `exs` next, then `cut`, and `rest` after that. -/
def State.meetsCut (s : State) (exs : List Exchange) (cut : Option Cut) (rest : List PeerAnswer) : Prop :=
  s.script = exs.map Exchange.answer ++ (cut.toList.map Cut.answer ++ rest)

/-- `t` is the state after an operation that failed that way: idle, the error on the result port, the transfers on the
transport port; chip-select is whatever it is after a transfer that broke (R54), released otherwise. Nothing else
differs from `s`. -/
def State.failed (s t : State) (e : DriverError) (exs : List Exchange) (cut : Option Cut) (rest : List PeerAnswer) :
    Prop :=
  t = { s with
    seq := .idle
    result := some (.err e)
    cs := t.cs
    script := rest
    trace := s.trace ++ exs.map Exchange.transfer ++ cut.toList.map Cut.transfer
    work := Config.freeWork s.opsEnded
    opsEnded := s.opsEnded + 1 } ∧
  (cut = none → t.cs = if exs = [] then s.cs else .deasserted)

/-- RDREG fails: its transfer breaks, or echo, status or marker is wrong (R152, R245). -/
def ReadsRegFails (s : State) (a : Word) : Failure := fun e exs cut =>
  ∃ op clk, (a.toNat ≤ 0xFF ∧ op = .internalRead ∧ clk = true ∨ 0xFF < a.toNat ∧ op = .singleRead ∧ clk = false) ∧
    (Breaks (encodeFrame s op a 0 0 clk ++ zeros s.params s.params.regRspRd) e exs cut ∨
      ∃ x, exs = [x] ∧ cut = none ∧ x.sends (encodeFrame s op a 0 0 clk ++ zeros s.params s.params.regRspRd) ∧
        (at' x.rx (4 + crcLen s) ≠ s.params.opc.byteOf op ∨ at' x.rx (5 + crcLen s) &&& s.params.statusMask ≠ 0 ∨
          at' x.rx (6 + crcLen s) &&& 0xF0 ≠ 0xF0) ∧
        e = .spi (.readRegister op (decodeStatus s.params (at' x.rx (5 + crcLen s))) (at' x.rx (5 + crcLen s))
          (at' x.rx (6 + crcLen s))))

/-- WRREG fails: its transfer breaks, or the echo is wrong or the status byte is not zero (R155, R246). -/
def WritesRegFails (s : State) (a d : Word) : Failure := fun e exs cut =>
  ∃ op clk L, (a.toNat ≤ 0x30 ∧ op = .internalWrite ∧ clk = true ∧ L = 7 ∨
      0x30 < a.toNat ∧ op = .singleWrite ∧ clk = false ∧ L = 8) ∧
    (Breaks (encodeFrame s op a d 0 clk ++ zeros s.params s.params.regRspWr) e exs cut ∨
      ∃ x, exs = [x] ∧ cut = none ∧ x.sends (encodeFrame s op a d 0 clk ++ zeros s.params s.params.regRspWr) ∧
        (at' x.rx (L + crcLen s) ≠ s.params.opc.byteOf op ∨ at' x.rx (L + 1 + crcLen s) ≠ 0) ∧
        e = .spi (.writeRegister op (decodeStatus s.params (at' x.rx (L + 1 + crcLen s)))))

/-- A polling loop of transfers of `n` fill bytes fails: it breaks on one of its ten attempts, or ten miss (R157, R163,
R248). -/
def PollFails (s : State) (n : Nat) (miss : List Byte → Prop) (site : PollSite) : Failure := fun e exs cut =>
  ∃ misses rest, exs = misses ++ rest ∧ (∀ m ∈ misses, m.sends (zeros s.params n) ∧ miss m.rx) ∧
    (misses.length < 10 ∧ Breaks (zeros s.params n) e rest cut ∨
      misses.length = 10 ∧ rest = [] ∧ cut = none ∧ e = .spi (.timeout site))

/-- RDBLK fails, in the order of R258. -/
inductive ReadsBlockFails (s : State) (a n : Nat) : Failure where
  /-- the command transfer breaks -/
  | command {e exs cut} : Breaks (encodeFrame s .dmaExtRead (BitVec.ofNat 32 a) 0 (BitVec.ofNat 32 n) false) e exs cut →
      ReadsBlockFails s a n e exs cut
  /-- the response poll fails -/
  | poll {cmd e exs cut} :
      cmd.sends (encodeFrame s .dmaExtRead (BitVec.ofNat 32 a) 0 (BitVec.ofNat 32 n) false) →
      PollFails s s.params.rdRspLen (fun rx => at' rx 0 ≠ s.params.opc.dmaExtRead) .readDataResponse e exs cut →
      ReadsBlockFails s a n e (cmd :: exs) cut
  /-- status or marker is wrong (R158, R247) -/
  | status {cmd misses hit} :
      cmd.sends (encodeFrame s .dmaExtRead (BitVec.ofNat 32 a) 0 (BitVec.ofNat 32 n) false) →
      PollsEcho s .dmaExtRead s.params.rdRspLen misses hit →
      (at' hit.rx 1 &&& s.params.statusMask ≠ 0 ∨ at' hit.rx 2 &&& 0xF0 ≠ 0xF0) →
      ReadsBlockFails s a n (.spi (.readData .dmaExtRead (decodeStatus s.params (at' hit.rx 1))))
        (cmd :: (misses ++ [hit])) none
  /-- the data transfer breaks -/
  | data {cmd misses hit e exs cut} :
      cmd.sends (encodeFrame s .dmaExtRead (BitVec.ofNat 32 a) 0 (BitVec.ofNat 32 n) false) →
      PollsEcho s .dmaExtRead s.params.rdRspLen misses hit →
      at' hit.rx 1 &&& s.params.statusMask = 0 → at' hit.rx 2 &&& 0xF0 = 0xF0 →
      Breaks (zeros s.params n) e exs cut → ReadsBlockFails s a n e (cmd :: (misses ++ hit :: exs)) cut

/-- WRBLK fails, in the order of R258. -/
inductive WritesBlockFails (s : State) (a : Nat) (b : List Byte) : Failure where
  /-- the command transfer breaks -/
  | command {e exs cut} :
      Breaks (encodeFrame s .dmaExtWrite (BitVec.ofNat 32 a) 0 (BitVec.ofNat 32 b.length) false) e exs cut →
      WritesBlockFails s a b e exs cut
  /-- the response poll fails -/
  | poll {cmd e exs cut} :
      cmd.sends (encodeFrame s .dmaExtWrite (BitVec.ofNat 32 a) 0 (BitVec.ofNat 32 b.length) false) →
      PollFails s s.params.wrRspLen (fun rx => at' rx 0 ≠ s.params.opc.dmaExtWrite) .writeDataResponse e exs cut →
      WritesBlockFails s a b e (cmd :: exs) cut
  /-- the status byte is not zero (R161, R250) -/
  | status {cmd misses hit} :
      cmd.sends (encodeFrame s .dmaExtWrite (BitVec.ofNat 32 a) 0 (BitVec.ofNat 32 b.length) false) →
      PollsEcho s .dmaExtWrite s.params.wrRspLen misses hit → at' hit.rx 1 ≠ 0 →
      WritesBlockFails s a b (.spi (.writeData .dmaExtWrite (decodeStatus s.params (at' hit.rx 1))))
        (cmd :: (misses ++ [hit])) none
  /-- the mark breaks -/
  | mark {cmd misses hit e exs cut} :
      cmd.sends (encodeFrame s .dmaExtWrite (BitVec.ofNat 32 a) 0 (BitVec.ofNat 32 b.length) false) →
      PollsEcho s .dmaExtWrite s.params.wrRspLen misses hit → at' hit.rx 1 = 0 → Breaks [0xF3] e exs cut →
      WritesBlockFails s a b e (cmd :: (misses ++ hit :: exs)) cut
  /-- the payload breaks -/
  | payload {cmd misses hit mark e exs cut} :
      cmd.sends (encodeFrame s .dmaExtWrite (BitVec.ofNat 32 a) 0 (BitVec.ofNat 32 b.length) false) →
      PollsEcho s .dmaExtWrite s.params.wrRspLen misses hit → at' hit.rx 1 = 0 → mark.sends [0xF3] →
      Breaks b e exs cut → WritesBlockFails s a b e (cmd :: (misses ++ hit :: mark :: exs)) cut
  /-- the completion poll fails (R163) -/
  | completion {cmd misses hit mark payload e exs cut} :
      cmd.sends (encodeFrame s .dmaExtWrite (BitVec.ofNat 32 a) 0 (BitVec.ofNat 32 b.length) false) →
      PollsEcho s .dmaExtWrite s.params.wrRspLen misses hit → at' hit.rx 1 = 0 → mark.sends [0xF3] →
      payload.sends b → PollFails s 1 (fun rx => at' rx 0 ≠ 0xC3) .writeDataComplete e exs cut →
      WritesBlockFails s a b e (cmd :: (misses ++ hit :: mark :: payload :: exs)) cut

/-- HFIN fails: its read fails, or its write does (R210). -/
def FinishesFails (s : State) : Failure := fun e exs cut =>
  ReadsRegFails s s.params.regRcvCtrl0 e exs cut ∨
  ∃ reg r w, exs = r ++ w ∧ ReadsReg s s.params.regRcvCtrl0 reg r ∧
    WritesRegFails s s.params.regRcvCtrl0 (reg ||| 2) e w cut

/-- The busy poll of HSEND fails: one of its hundred reads fails, or all find the bit set (R192, R248). -/
def BusyFails (s : State) : Failure := fun e exs cut =>
  ∃ (busy : List (List Exchange)) (last : List Exchange), exs = busy.flatten ++ last ∧
    (∀ b ∈ busy, ∃ u : Word, ReadsReg s s.params.regTxCtrl u b ∧ u.getLsbD s.params.txBusyBit = true) ∧
    (busy.length < 100 ∧ ReadsRegFails s s.params.regTxCtrl e last cut ∨
      busy.length = 100 ∧ last = [] ∧ cut = none ∧ e = .spi (.timeout .sendBusy))

/-- HSEND's steps 1 to 4 (R190): header word, flag, busy poll, and the allocated address `a`. -/
def Allocates (s : State) (h : HifHeader) (a : Word) (exs : List Exchange) : Prop :=
  ∃ e1 e2 e3 e4, exs = e1 ++ e2 ++ e3 ++ e4 ∧ WritesReg s s.params.regHifHdr (hdrPack h) e1 ∧
    WritesReg s s.params.regTxCtrl (1#32 <<< s.params.txFlagBit) e2 ∧ PollsBusy s e3 ∧
    ReadsReg s s.params.regTxAddr a e4

/-- HSEND fails, by the step of R190 that fails. -/
inductive SendsFails (s : State) (h : HifHeader) (d c : List Byte) : Failure where
  /-- step 1 -/
  | header {e exs cut} : WritesRegFails s s.params.regHifHdr (hdrPack h) e exs cut → SendsFails s h d c e exs cut
  /-- step 2 -/
  | flag {e1 e exs cut} : WritesReg s s.params.regHifHdr (hdrPack h) e1 →
      WritesRegFails s s.params.regTxCtrl (1#32 <<< s.params.txFlagBit) e exs cut → SendsFails s h d c e (e1 ++ exs) cut
  /-- step 3 -/
  | busy {e1 e2 e exs cut} : WritesReg s s.params.regHifHdr (hdrPack h) e1 →
      WritesReg s s.params.regTxCtrl (1#32 <<< s.params.txFlagBit) e2 → BusyFails s e exs cut →
      SendsFails s h d c e (e1 ++ (e2 ++ exs)) cut
  /-- step 4 -/
  | address {e1 e2 e3 e exs cut} : WritesReg s s.params.regHifHdr (hdrPack h) e1 →
      WritesReg s s.params.regTxCtrl (1#32 <<< s.params.txFlagBit) e2 → PollsBusy s e3 →
      ReadsRegFails s s.params.regTxAddr e exs cut → SendsFails s h d c e (e1 ++ (e2 ++ (e3 ++ exs))) cut
  /-- step 5 -/
  | headerBlock {a e1 e exs cut} : Allocates s h a e1 → WritesBlockFails s a.toNat (hdrToBytes h) e exs cut →
      SendsFails s h d c e (e1 ++ exs) cut
  /-- step 6 -/
  | data {a e1 e2 e exs cut} : Allocates s h a e1 → WritesBlock s a.toNat (hdrToBytes h) e2 → d ≠ [] →
      WritesBlockFails s (a.toNat + 8) d e exs cut → SendsFails s h d c e (e1 ++ (e2 ++ exs)) cut
  /-- step 7 -/
  | ctrl {a e1 e2 e3 e exs cut} : Allocates s h a e1 → WritesBlock s a.toNat (hdrToBytes h) e2 →
      WritesBlockIfAny s (a.toNat + 8) d e3 → c ≠ [] → WritesBlockFails s (a.toNat + 8 + d.length) c e exs cut →
      SendsFails s h d c e (e1 ++ (e2 ++ (e3 ++ exs))) cut
  /-- step 8 -/
  | commit {a e1 e2 e3 e4 e exs cut} : Allocates s h a e1 → WritesBlock s a.toNat (hdrToBytes h) e2 →
      WritesBlockIfAny s (a.toNat + 8) d e3 → WritesBlockIfAny s (a.toNat + 8 + d.length) c e4 →
      WritesRegFails s s.params.regTxCommit ((a <<< 2) ||| (1#32 <<< s.params.txReadyBit)) e exs cut →
      SendsFails s h d c e (e1 ++ (e2 ++ (e3 ++ (e4 ++ exs)))) cut

/-- HISR's steps 6 and 7 fail for a packet at `ctx`, leaving `ctx` and `ds` so (R262, the rows from step 6 on). -/
inductive ServiceFails (s : State) (cmd : Option Command) : Ctx → DriverState → Failure where
  /-- the packet is shorter than its header and payload: no transfer (R214) -/
  | short {k} : payloadSize cmd = some k → s.ctx.readSize.toNat < 8 + k →
      ServiceFails s cmd s.ctx s.ds (.hif (if s.ctx.readSize.toNat < k then .sizeMismatch k s.ctx.readSize.toNat
        else .addressMismatch (s.ctx.readAddr.toNat + 8) s.ctx.readAddr.toNat)) [] none
  /-- the handler's block read fails -/
  | payload {k e exs cut} : payloadSize cmd = some k → 8 + k ≤ s.ctx.readSize.toNat →
      ReadsBlockFails s (s.ctx.readAddr.toNat + 8) k e exs cut → ServiceFails s cmd s.ctx s.ds e exs cut
  /-- the HFIN inside the handler's HRECV fails: `read_done` is true, the sink register is not written -/
  | releaseInHandler {k b e1 e exs cut} : payloadSize cmd = some k → s.ctx.readSize.toNat = 8 + k →
      ReadsBlock s (s.ctx.readAddr.toNat + 8) k b e1 → FinishesFails s e exs cut →
      ServiceFails s cmd { s.ctx with readDone := true } s.ds e (e1 ++ exs) cut
  /-- the HFIN of step 7 fails after a handler: its sink register is written -/
  | releaseAfterHandler {k b e1 e exs cut} : payloadSize cmd = some k → 8 + k < s.ctx.readSize.toNat →
      s.ctx.readDone = false → ReadsBlock s (s.ctx.readAddr.toNat + 8) k b e1 → FinishesFails s e exs cut →
      ServiceFails s cmd { s.ctx with readDone := true } (sinkAfter s cmd b) e (e1 ++ exs) cut
  /-- the HFIN of step 7 fails, no handler having run -/
  | releaseUnhandled {e exs cut} : payloadSize cmd = none → s.ctx.readDone = false → FinishesFails s e exs cut →
      ServiceFails s cmd { s.ctx with readDone := true } s.ds e exs cut

/-- HISR's steps 1 and 2 find new data and claim it (R194): the word read, and the new-data bit written back clear. -/
def Claims (s : State) (reg : Word) (exs : List Exchange) : Prop :=
  ∃ e1 e2, exs = e1 ++ e2 ∧ ReadsReg s s.params.regRcvCtrl0 reg e1 ∧ reg.getLsbD s.params.newDataBit = true ∧
    WritesReg s s.params.regRcvCtrl0 (reg &&& ~~~(1#32 <<< s.params.newDataBit)) e2

/-- The command that four header bytes route to (R199, R201). -/
def headerCommand (s : State) (hb : List Byte) : Option Command :=
  routeHeader s.params ⟨at' hb 0, at' hb 1, be16 (at' hb 3) (at' hb 2)⟩

/-- HISR fails, leaving `ctx` and `ds` so: one row of R262 each. -/
inductive HisrFails (s : State) : Ctx → DriverState → Failure where
  /-- step 1 -/
  | read {e exs cut} : ReadsRegFails s s.params.regRcvCtrl0 e exs cut → HisrFails s s.ctx s.ds e exs cut
  /-- step 2: `read_done` not yet touched -/
  | claim {reg e1 e exs cut} : ReadsReg s s.params.regRcvCtrl0 reg e1 → reg.getLsbD s.params.newDataBit = true →
      WritesRegFails s s.params.regRcvCtrl0 (reg &&& ~~~(1#32 <<< s.params.newDataBit)) e exs cut →
      HisrFails s s.ctx s.ds e (e1 ++ exs) cut
  /-- step 7 for a packet of size 0 (R197) -/
  | releaseEmpty {reg e1 e exs cut} : Claims s reg e1 → reg.toNat / 4 % 4096 = 0 → FinishesFails s e exs cut →
      HisrFails s { s.ctx with readDone := true } s.ds e (e1 ++ exs) cut
  /-- step 5, the address read: the window is the old one -/
  | address {reg e1 e exs cut} : Claims s reg e1 → reg.toNat / 4 % 4096 ≠ 0 →
      ReadsRegFails s s.params.regRcvCtrl1 e exs cut →
      HisrFails s { s.ctx with readDone := false } s.ds e (e1 ++ exs) cut
  /-- step 5, the header read: the window is the new one -/
  | header {reg addr size e1 e2 e exs cut} : Claims s reg e1 → size.toNat = reg.toNat / 4 % 4096 → size ≠ 0 →
      ReadsReg s s.params.regRcvCtrl1 addr e2 → ReadsBlockFails s addr.toNat 4 e exs cut →
      HisrFails s ⟨addr, size, false⟩ s.ds e (e1 ++ (e2 ++ exs)) cut
  /-- steps 6 and 7 -/
  | service {addr size hb e1 ctx ds e exs cut} : Announces s size addr hb e1 →
      ServiceFails { s with ctx := ⟨addr, size, false⟩ } (headerCommand s hb) ctx ds e exs cut →
      HisrFails s ctx ds e (e1 ++ exs) cut

/-! ## What an operation leaves, whatever the peer does -/

/-- The transfers of `t` go on from those of `s` with `exs`. -/
def State.begins (s t : State) (exs : List Exchange) : Prop := s.trace ++ exs.map Exchange.transfer <+: t.trace

/-- What HISR's steps 6 and 7 can leave for a packet at `ctx` (R203, R214, R222), the transfers `exs` made before them:
the window unchanged and `ctx.read_done` moved towards true only; the sink registers unchanged, or the one of the
command's kind written from the payload bytes of a handler's HRECV that succeeded (R306(f)). -/
def ServiceLeaves (s t : State) (cmd : Option Command) (exs : List Exchange) : Prop :=
  s.onlyTouches t { s.ctx with readDone := s.ctx.readDone || t.ctx.readDone } s.ds ∨
  ∃ k b e1 e2, payloadSize cmd = some k ∧ 8 + k ≤ s.ctx.readSize.toNat ∧
    ReadsBlock s (s.ctx.readAddr.toNat + 8) k b e1 ∧ FinishesIf s (s.ctx.readSize.toNat = 8 + k) e2 ∧
    s.begins t (exs ++ e1 ++ e2) ∧ s.onlyTouches t { s.ctx with readDone := true } (sinkAfter s cmd b)

/-- What HISR can leave, whatever the peer does, from the state with its operand in `ds.mode` (R193 to R203, R262). -/
inductive HisrLeaves (s t : State) : Prop where
  /-- it ended at step 1 or 2: no data, a failed read, a failed claim -/
  | unclaimed : s.onlyTouches t s.ctx s.ds → HisrLeaves s t
  /-- it ended behind the claim with no new window: a packet of size 0, a failed address read -/
  | claimed {reg e} : Claims s reg e → s.begins t e →
      s.onlyTouches t { s.ctx with readDone := t.ctx.readDone } s.ds → HisrLeaves s t
  /-- it ended at the header read: the announced window, open -/
  | windowed {reg addr size e1 e2} : Claims s reg e1 → size.toNat = reg.toNat / 4 % 4096 → size ≠ 0 →
      ReadsReg s s.params.regRcvCtrl1 addr e2 → s.begins t (e1 ++ e2) → s.onlyTouches t ⟨addr, size, false⟩ s.ds →
      HisrLeaves s t
  /-- it reached step 6, for the command that the header bytes read route to -/
  | serviced {addr size hb e} : Announces s size addr hb e → s.begins t e →
      ServiceLeaves { s with ctx := ⟨addr, size, false⟩ } t (headerCommand s hb) e → HisrLeaves s t

/-- The command of a packet that stands as a request (log 7); none for what is no packet. -/
def packetCommand (p : Params) : Instr → Option (Option Command)
  | .hifConState _ => some (some (.wifi .respConStateChanged))
  | .hifSysTime _ => some (some (.wifi .respGetSysTime))
  | .hifConnInfo _ => some (some (.wifi .respConnInfo))
  | .hifScanResult _ => some (some (.wifi .respScanResult))
  | .hifWifiOther opcode _ => some (some (.wifi (wifiTable p opcode)))
  | .hifIpAny opcode _ => some (some (.ip (socketTable p opcode)))
  | .hifUnknownGroup _ _ _ => some none
  | _ => none

/-! ## The host operations as a class -/

/-- The ten operations of the host port (30_encoding.md R100). -/
def isHostOp : Instr → Bool
  | .rdreg _ => true
  | .wrreg _ _ => true
  | .rdblk _ _ => true
  | .wrblk _ _ => true
  | .hsend _ _ _ => true
  | .hisr _ => true
  | .hrecv _ _ => true
  | .hfin => true
  | .crcoff => true
  | .breset => true
  | _ => false

/-- The request is none of the refused block accesses of 60_exceptions.md R254: the counts of R165 and R190; for HRECV
the count matters only where both checks pass (44_hif_engine.md R207). -/
def inBounds (s : State) : Instr → Prop
  | .rdblk _ n => 1 ≤ n ∧ n ≤ s.params.maxBlock
  | .wrblk _ b => 1 ≤ b.length ∧ b.length ≤ s.params.maxBlock
  | .hsend _ d c => d.length ≤ s.params.maxBlock ∧ c.length ≤ s.params.maxBlock
  | .hrecv a n =>
    n ≤ s.ctx.readSize.toNat → s.ctx.readAddr.toNat ≤ a.toNat →
      a.toNat + n ≤ s.ctx.readAddr.toNat + s.ctx.readSize.toNat → 1 ≤ n ∧ n ≤ s.params.maxBlock
  | _ => True

/-- The upper bounds on transfers of 60_exceptions.md R272; CRCOFF and BRESET make none (R230, R280). -/
def transferBound : Instr → Nat
  | .rdreg _ => 1
  | .wrreg _ _ => 1
  | .rdblk _ _ => 12
  | .wrblk _ _ => 23
  | .hfin => 2
  | .hrecv _ _ => 14
  | .hsend _ _ _ => 173
  | .hisr _ => 29
  | _ => 0

/-- The wire command that `ENCODE`'s operands stand for: each field the low bits of its operand (41_spi_commands.md
R131), the clockless bit merged with `address[15]` (30_encoding.md R87). -/
def wireInstr (address data size : Word) (clockless : Bool) : WireOp → Instr
  | .dmaWrite => .dmaWrite (address.setWidth 24) (size.setWidth 16)
  | .dmaRead => .dmaRead (address.setWidth 24) (size.setWidth 16)
  | .internalWrite => .internalWrite (clockless || address.getLsbD 15) (address.setWidth 15) data
  | .internalRead => .internalRead (clockless || address.getLsbD 15) (address.setWidth 15)
  | .terminate => .terminate
  | .repeatLast => .repeatLast
  | .dmaExtWrite => .dmaExtWrite (address.setWidth 24) (size.setWidth 24)
  | .dmaExtRead => .dmaExtRead (address.setWidth 24) (size.setWidth 24)
  | .singleWrite => .singleWrite (address.setWidth 24) data
  | .singleRead => .singleRead (address.setWidth 24)
  | .reset => .resetPeer

end Sys2Proof.Machine
end

