-- ==== Sys2Proof/Certificates/Slice0/Obligations.lean ====
section
/-! DEFINITION. The statements for the provers, from the numbered rules of spec/. `Machine/Safety` terms: a transcript
(`ReadsReg`, `WritesBlock`, ...) says which transfers an operation makes and what the peer answers; `State.meets` says
the peer answers them next; `State.ended` is the state after them. A failing transcript (`ReadsRegFails`, `HisrFails`,
...) says how a rule goes wrong, `State.meetsCut` that the peer and the pins do that next, `State.failed` what it
leaves. -/

open Sys2Proof Sys2Proof.Machine

/-! ## Encoding and the host port -/

/-- Decoding what the encoder wrote gives the instruction back, for every well-formed instruction and every choice of
the parameters the spec admits. The layout of host operations and pure functions behind their selector is the model's
choice (log 4). -/
def Obligations.DecodeOfEncode : Prop :=
  ∀ (p : Params) (i : Instr), p.WellFormed → i.wf p = true → decode p (encode p i) = .ok i

/-- What decodes is well formed, and encoding it gives the same bytes back: one word for each meaning. Of a packet
header only bytes 0 to 3 count; bytes 4 to 7 are "zero when sent, ignored when received" (R99(e)). The bytes of a host
operation's and a pure function's operands are the model's choice (log 4). -/
def Obligations.EncodeOfDecode : Prop :=
  ∀ (p : Params) (r : Request) (i : Instr), decode p r = .ok i →
    i.wf p = true ∧ (encode p i).chan = r.chan ∧
      (r.chan ≠ .packet → encode p i = r) ∧
      (r.chan = .packet → r.bytes.length = 8 ∧ (encode p i).bytes = r.bytes.take 4 ++ [0, 0, 0, 0])

/-- Words written out from the tables of 30_encoding.md decode to the instruction they stand for, one per family, under
the default opcode bytes and group ids (log 2). That a host operation without operands is its `op_sel` in one byte is
the model's choice (log 4). -/
def Obligations.SpecWordsDecode : Prop :=
  decode Params.default ⟨.wire, [0xC1, 0x01, 0x23, 0x45, 0x02, 0x00]⟩ = .ok (.dmaWrite 0x012345 0x0200) ∧
  decode Params.default ⟨.wire, [0xC3, 0x80, 0x30, 0xDE, 0xAD, 0xBE, 0xEF]⟩ =
    .ok (.internalWrite true 0x30 0xDEADBEEF) ∧
  decode Params.default ⟨.wire, [0xC4, 0x12, 0x34, 0x00]⟩ = .ok (.internalRead false 0x1234) ∧
  decode Params.default ⟨.wire, [0xC9, 0x00, 0x10, 0x8C, 0x00, 0x0C, 0x2C, 0x01]⟩ =
    .ok (.singleWrite 0x108C 0x000C2C01) ∧
  decode Params.default ⟨.wire, [0xCF, 0xFF, 0xFF, 0xFF]⟩ = .ok .resetPeer ∧
  decode Params.default ⟨.packet, [0x01, 0x2C, 0x0C, 0x00, 0x00, 0x00, 0x00, 0x00]⟩ = .ok (.hifConState 12) ∧
  decode Params.default ⟨.host, [0x8]⟩ = .ok .crcoff ∧
  decode Params.default ⟨.tokenOut, [0xF3]⟩ = .ok .dataMark ∧
  decode Params.default ⟨.tokenIn, [0xC3]⟩ = .ok .writeDone ∧
  decode Params.default ⟨.tokenIn, [0xF7]⟩ = .ok (.readMarker 7)

/-- When the request at the front of the port decodes, the step is that instruction's meaning, at the state with the
request taken from the port. That requests wait in a queue of bytes is the model's choice (log 4), and so is that a step
takes the front one and runs it whole (log 12). -/
def Obligations.StepRunsDecoded : Prop :=
  ∀ (s : State) (r : Request) (rest : List Request) (i : Instr), s.port = r :: rest → decode s.params r = .ok i →
    step s = exec i { s with port := rest }

/-- What no instruction is, is refused: a byte 0 that is none of the eleven opcodes (R86), an `op_sel` of 0xA to 0xF
(R100, R254). That `op_sel` stands in a whole byte, so that 0x10 to 0xFF are refused with them, is the model's layout of
the port (log 4). With nothing on the port the machine stays as it is (log 17, the model's choice). -/
def Obligations.StepRefusesNonInstructions : Prop :=
  (∀ (s : State) (b : Byte) (t : List Byte) (rest : List Request), b ∉ s.params.opc.toList →
    s.port = ⟨.wire, b :: t⟩ :: rest → step s = .refused (.undecodable (.unknownWireOpcode b))) ∧
  (∀ (s : State) (sel : Byte) (t : List Byte) (rest : List Request), 0xA ≤ sel.toNat →
    s.port = ⟨.host, sel :: t⟩ :: rest → step s = .refused (.undecodable (.undefinedOpSel sel))) ∧
  (∀ s : State, s.port = [] → step s = .next s)

/-- No host operation is accepted while another is in progress (R22, R71, R254). -/
def Obligations.BusyPortRefuses : Prop :=
  ∀ (i : Instr) (s : State) (op : HostOp) (k : List Nat), isHostOp i = true → s.seq = .busy op k →
    exec i s = .refused .portBusy

/-- The byte counts that have no meaning are refused before any transfer: RDBLK and WRBLK outside the bounds (R165,
R254), HRECV with a count that passes both checks and is outside them (R207). The spec names no refusal of HSEND for a
buffer above `MAX_BLOCK` ("each of length 0 to `MAX_BLOCK`", R190): that it is refused, and which buffer the refusal
names, is deduced (log 16). -/
def Obligations.CountsRefused : Prop :=
  ∀ (s : State), s.seq = .idle →
    (∀ (a : Word) (n : Nat), (n = 0 ∨ s.params.maxBlock < n) →
      exec (.rdblk a n) s = .refused (.countOutOfRange n)) ∧
    (∀ (a : Word) (b : List Byte), (b.length = 0 ∨ s.params.maxBlock < b.length) →
      exec (.wrblk a b) s = .refused (.countOutOfRange b.length)) ∧
    (∀ (h : HifHeader) (d c : List Byte), s.params.maxBlock < d.length →
      exec (.hsend h d c) s = .refused (.countOutOfRange d.length)) ∧
    (∀ (h : HifHeader) (d c : List Byte), d.length ≤ s.params.maxBlock → s.params.maxBlock < c.length →
      exec (.hsend h d c) s = .refused (.countOutOfRange c.length)) ∧
    (∀ (a : Word) (n : Nat), n ≤ s.ctx.readSize.toNat → s.ctx.readAddr.toNat ≤ a.toNat →
      a.toNat + n ≤ s.ctx.readAddr.toNat + s.ctx.readSize.toNat → (n = 0 ∨ s.params.maxBlock < n) →
      exec (.hrecv a n) s = .refused (.countOutOfRange n))

/-! ## CRC7 -/

/-- The test values of R127: CRC and check byte of seven byte strings. -/
def Obligations.Crc7TestValues : Prop :=
  ∀ v ∈ ([([], 0x7F, 0xFE), ([0x00], 0x70, 0xE0), ([0xFF], 0x09, 0x12), ([0xC4], 0x71, 0xE2),
      ([0xC4, 0x80, 0x10, 0x00], 0x32, 0x64), ([0xCA, 0x00, 0x10, 0x00], 0x65, 0xCA),
      ([0x31, 0x32, 0x33, 0x34, 0x35, 0x36, 0x37, 0x38, 0x39], 0x50, 0xA0)] : List (List Byte × BitVec 7 × Byte)),
    crc7 0x09 0x7F v.1 = v.2.1 ∧ checkByte 0x09 v.1 = v.2.2

/-- CRC7 is the loop of R121: bytes in order, bit 7 first, the polynomial subtracted where the bit shifted out differs
from the data bit; the value goes on the result port and no state is read or written. With the spec's polynomial the
worked example and the two anchor values come out. -/
def Obligations.Crc7IsTheLoop : Prop :=
  (∀ (init : BitVec 7) (b : List Byte) (s : State),
    exec (.crc7 init b) s = .next (s.answered (.crc (crc7 s.params.crc7Poly init b)))) ∧
  (∀ poly c : BitVec 7, crc7 poly c [] = c) ∧
  (∀ (poly c : BitVec 7) (d : Byte) (b : List Byte), crc7 poly c (d :: b) =
    crc7 poly ([7, 6, 5, 4, 3, 2, 1, 0].foldl
      (fun c j => (c <<< 1) ^^^ (if c.getLsbD 6 = d.getLsbD j then 0 else poly)) c) b) ∧
  crc7 0x09 0x7F [0xC4, 0x80, 0x10, 0x00] = 0x32 ∧
  crc7 0x09 0x00 [0x31, 0x32, 0x33, 0x34, 0x35, 0x36, 0x37, 0x38, 0x39] = 0x75 ∧
  crc7 0x09 0x7F [0x31, 0x32, 0x33, 0x34, 0x35, 0x36, 0x37, 0x38, 0x39] = 0x50

/-- The laws of R125 for the spec's polynomial: the value depends on `init` and the bytes only, it is below 0x80, it
composes over concatenation, and two commands of equal length that differ in exactly one bit have different check
bytes. -/
def Obligations.Crc7Laws : Prop :=
  (∀ (s t : State) (init : BitVec 7) (b : List Byte), s.params.crc7Poly = 0x09 → t.params.crc7Poly = 0x09 →
    ∃ v : BitVec 7, exec (.crc7 init b) s = .next (s.answered (.crc v)) ∧
      exec (.crc7 init b) t = .next (t.answered (.crc v)) ∧ v.toNat < 0x80) ∧
  (∀ (init : BitVec 7) (b1 b2 : List Byte), crc7 0x09 init (b1 ++ b2) = crc7 0x09 (crc7 0x09 init b1) b2) ∧
  (∀ (b1 b2 : List Byte) (d : Byte) (k : Nat), k < 8 →
    checkByte 0x09 (b1 ++ d :: b2) ≠ checkByte 0x09 (b1 ++ (d ^^^ (1#8 <<< k)) :: b2))

/-- The table form of R122: one byte step by a table of single-byte CRCs, and the table's first 32 entries. -/
def Obligations.Crc7TableForm : Prop :=
  (∀ (c : BitVec 7) (d : Byte) (b : List Byte),
    crc7 0x09 c (d :: b) = crc7 0x09 (crc7 0x09 0 [(c.setWidth 8 <<< 1) ^^^ d]) b) ∧
  (List.range 32).map (fun d => (crc7 0x09 0 [BitVec.ofNat 8 d]).toNat) =
    [0x00, 0x09, 0x12, 0x1B, 0x24, 0x2D, 0x36, 0x3F, 0x48, 0x41, 0x5A, 0x53, 0x6C, 0x65, 0x7E, 0x77,
     0x19, 0x10, 0x0B, 0x02, 0x3D, 0x34, 0x2F, 0x26, 0x51, 0x58, 0x43, 0x4A, 0x75, 0x7C, 0x67, 0x6E]

/-- The check byte is twice the CRC, bit 0 clear, and loses no bit (R123); the validator accepts exactly a frame whose
last byte is the check byte of those before it, and never one whose last bit 0 is set (R124). For a frame of no bytes
R124 states no result: the validator completes with some truth value (log 21, the model's choice). -/
def Obligations.CheckByteAndValidator : Prop :=
  (∀ (cmd : List Byte) (s : State), ∃ b : Byte, exec (.checkByte cmd) s = .next (s.answered (.byte b)) ∧
    b.toNat = 2 * (crc7 s.params.crc7Poly 0x7F cmd).toNat) ∧
  (∀ (cmd : List Byte) (last : Byte) (s : State), exec (.crc7Valid (cmd ++ [last])) s =
    .next (s.answered (.bool (decide (last.toNat = 2 * (crc7 s.params.crc7Poly 0x7F cmd).toNat))))) ∧
  (∀ (cmd : List Byte) (last : Byte) (s : State), last.getLsbD 0 = true →
    exec (.crc7Valid (cmd ++ [last])) s = .next (s.answered (.bool false))) ∧
  (∀ s : State, ∃ v : Bool, exec (.crc7Valid []) s = .next (s.answered (.bool v)))

/-! ## The command encoder -/

/-- With `crc_on` every frame is `LEN_shape + 1` bytes and passes the validator; without it the frame is `LEN_shape`
bytes (R144). The lengths are those of R80 and R86. -/
def Obligations.EncodeSelfCheck : Prop :=
  ∀ (s : State) (op : WireOp) (address data size : Word) (clockless : Bool),
    ∃ n, (op ∈ [WireOp.internalRead, .terminate, .repeatLast, .singleRead, .reset] ∧ n = 4 ∨
        op ∈ [WireOp.dmaWrite, .dmaRead] ∧ n = 6 ∨ op ∈ [WireOp.internalWrite, .dmaExtWrite, .dmaExtRead] ∧ n = 7 ∨
        op = .singleWrite ∧ n = 8) ∧
      (crcOn s = true → crc7Valid s.params.crc7Poly (encodeFrame s op address data size clockless) = true ∧
        (encodeFrame s op address data size clockless).length = n + 1) ∧
      (crcOn s = false → (encodeFrame s op address data size clockless).length = n)

/-- ENCODE completes with the bytes of the command its operands stand for, each field truncated to the low bits of its
operand and the clockless bit merged by OR with `address[15]` (R87, R130, R131), and the check byte when `crc_on`. -/
def Obligations.EncodeTruncates : Prop :=
  ∀ (s : State) (op : WireOp) (address data size : Word) (clockless : Bool), s.params.WellFormed →
    ∃ b : List Byte, exec (.encodeCmd op address data size clockless) s = .next (s.framed b) ∧
      decode s.params ⟨.wire, b⟩ = .ok (wireInstr address data size clockless op)

/-- The eleven wire commands complete with the bytes of their rules (R132 to R142) and the check byte when `crc_on`.
That a wire command's meaning is its frame on the result port is the model's reading (log 6). -/
def Obligations.WireCommandFrames : Prop :=
  ∀ s : State,
    (∀ (a : BitVec 24) (z : BitVec 16), exec (.dmaWrite a z) s = .next (s.framed [s.params.opc.dmaWrite,
      a.extractLsb' 16 8, a.extractLsb' 8 8, a.extractLsb' 0 8, z.extractLsb' 8 8, z.extractLsb' 0 8])) ∧
    (∀ (a : BitVec 24) (z : BitVec 16), exec (.dmaRead a z) s = .next (s.framed [s.params.opc.dmaRead,
      a.extractLsb' 16 8, a.extractLsb' 8 8, a.extractLsb' 0 8, z.extractLsb' 8 8, z.extractLsb' 0 8])) ∧
    (∀ (c : Bool) (a : BitVec 15) (d : Word), exec (.internalWrite c a d) s = .next (s.framed
      [s.params.opc.internalWrite, BitVec.ofBool c ++ a.extractLsb' 8 7, a.extractLsb' 0 8,
      d.extractLsb' 24 8, d.extractLsb' 16 8, d.extractLsb' 8 8, d.extractLsb' 0 8])) ∧
    (∀ (c : Bool) (a : BitVec 15), exec (.internalRead c a) s = .next (s.framed [s.params.opc.internalRead,
      BitVec.ofBool c ++ a.extractLsb' 8 7, a.extractLsb' 0 8, 0x00])) ∧
    exec .terminate s = .next (s.framed [s.params.opc.terminate, 0x00, 0x00, 0x00]) ∧
    exec .repeatLast s = .next (s.framed [s.params.opc.repeatLast, 0x00, 0x00, 0x00]) ∧
    (∀ a z : BitVec 24, exec (.dmaExtWrite a z) s = .next (s.framed [s.params.opc.dmaExtWrite,
      a.extractLsb' 16 8, a.extractLsb' 8 8, a.extractLsb' 0 8,
      z.extractLsb' 16 8, z.extractLsb' 8 8, z.extractLsb' 0 8])) ∧
    (∀ a z : BitVec 24, exec (.dmaExtRead a z) s = .next (s.framed [s.params.opc.dmaExtRead,
      a.extractLsb' 16 8, a.extractLsb' 8 8, a.extractLsb' 0 8,
      z.extractLsb' 16 8, z.extractLsb' 8 8, z.extractLsb' 0 8])) ∧
    (∀ (a : BitVec 24) (d : Word), exec (.singleWrite a d) s = .next (s.framed [s.params.opc.singleWrite,
      a.extractLsb' 16 8, a.extractLsb' 8 8, a.extractLsb' 0 8,
      d.extractLsb' 24 8, d.extractLsb' 16 8, d.extractLsb' 8 8, d.extractLsb' 0 8])) ∧
    (∀ a : BitVec 24, exec (.singleRead a) s = .next (s.framed [s.params.opc.singleRead,
      a.extractLsb' 16 8, a.extractLsb' 8 8, a.extractLsb' 0 8])) ∧
    exec .resetPeer s = .next (s.framed [s.params.opc.reset, 0xFF, 0xFF, 0xFF])

/-! ## The HIF header codec -/

/-- The laws of R185: bytes and back is the header itself (and so a constructed header carries payload length plus 8),
the packed word is the little-endian word of bytes 0 to 3, and packing is injective. -/
def Obligations.HeaderLaws : Prop :=
  (∀ h : HifHeader, hdrFromBytes (hdrToBytes h) = h) ∧
  (∀ (g o : Byte) (n : Nat), n ≤ 0xFFF7 → (hdrFromBytes (hdrToBytes (hdrNew g o n))).length.toNat = n + 8) ∧
  (∀ h : HifHeader, hdrPack h =
    le32 (at' (hdrToBytes h) 0) (at' (hdrToBytes h) 1) (at' (hdrToBytes h) 2) (at' (hdrToBytes h) 3)) ∧
  (∀ h k : HifHeader, hdrPack h = hdrPack k → h = k)

/-- HDR.PACK completes with the word of R184 in both its forms, OR and sum; its worked example. -/
def Obligations.HeaderPackWord : Prop :=
  (∀ (h : HifHeader) (s : State), ∃ w : Word, exec (.hdrPack h) s = .next (s.answered (.word w)) ∧
    w = ((h.length >>> 8).setWidth 32 <<< 24) ||| ((h.length &&& 0xFF).setWidth 32 <<< 16) |||
      (h.opcode.setWidth 32 <<< 8) ||| h.groupId.setWidth 32 ∧
    w.toNat = h.length.toNat * 65536 + h.opcode.toNat * 256 + h.groupId.toNat) ∧
  hdrPack ⟨1, 44, 12⟩ = 0x000C2C01

/-- HDR.UNPACK completes with the three fields of the word and is the inverse of HDR.PACK, on both sides (R187). -/
def Obligations.HeaderUnpackWord : Prop :=
  (∀ (w : Word) (s : State), exec (.hdrUnpack w) s =
    .next (s.answered (.header ⟨w.extractLsb' 0 8, w.extractLsb' 8 8, w.extractLsb' 16 16⟩))) ∧
  (∀ h : HifHeader, hdrUnpack (hdrPack h) = h) ∧ (∀ w : Word, hdrPack (hdrUnpack w) = w)

/-- HDR.NEW, HDR.TOBYTES and HDR.FROMBYTES complete as R181 to R183 say: the length is the payload length plus 8; the
bytes are those of R94; parsing takes the length as received and ignores bytes 4 and above. HDR.NEW above 0xFFF7 is
refused (R181). For fewer than 4 bytes R183 states no header: HDR.FROMBYTES completes with some header (log 21, the
model's choice). -/
def Obligations.HeaderValues : Prop :=
  (∀ (g o : Byte) (n : Nat) (s : State), n ≤ 0xFFF7 → ∃ l : BitVec 16, l.toNat = n + 8 ∧
    exec (.hdrNew g o n) s = .next (s.answered (.header ⟨g, o, l⟩))) ∧
  (∀ (g o : Byte) (n : Nat) (s : State), 0xFFF7 < n → exec (.hdrNew g o n) s = .refused (.payloadTooLong n)) ∧
  (∀ (h : HifHeader) (s : State), exec (.hdrToBytes h) s = .next (s.answered (.bytes
    [h.groupId, h.opcode, h.length.extractLsb' 0 8, h.length.extractLsb' 8 8, 0, 0, 0, 0]))) ∧
  (∀ (g o l0 l1 : Byte) (r : List Byte) (s : State), ∃ l : BitVec 16, l.toNat = l0.toNat + 256 * l1.toNat ∧
    exec (.hdrFromBytes (g :: o :: l0 :: l1 :: r)) s = .next (s.answered (.header ⟨g, o, l⟩))) ∧
  (∀ (b : List Byte) (s : State), b.length < 4 → ∃ h : HifHeader,
    exec (.hdrFromBytes b) s = .next (s.answered (.header h)))

/-! ## Register access -/

/-- RDREG along a good response ends with the little-endian word of the response, one transfer made (R150). -/
def Obligations.RdregReads : Prop :=
  ∀ (s : State) (a v : Word) (exs : List Exchange) (rest : List PeerAnswer), s.seq = .idle → ReadsReg s a v exs →
    s.meets exs rest → exec (.rdreg a) s = .next (s.ended (.ok (.word v)) exs rest)

/-- RDREG whose echo, status or marker is wrong ends in ReadRegisterError with the opcode sent, the decoded status and
the two raw bytes, never in a value, after its one transfer (R152, R245). -/
def Obligations.RdregRejects : Prop :=
  ∀ (s : State) (a : Word) (op : WireOp) (clk : Bool) (x : Exchange) (rest : List PeerAnswer), s.seq = .idle →
    (a.toNat ≤ 0xFF ∧ op = .internalRead ∧ clk = true ∨ 0xFF < a.toNat ∧ op = .singleRead ∧ clk = false) →
    x.sends (encodeFrame s op a 0 0 clk ++ zeros s.params s.params.regRspRd) →
    (at' x.rx (4 + crcLen s) ≠ s.params.opc.byteOf op ∨ at' x.rx (5 + crcLen s) &&& s.params.statusMask ≠ 0 ∨
      at' x.rx (6 + crcLen s) &&& 0xF0 ≠ 0xF0) →
    s.meets [x] rest →
    exec (.rdreg a) s = .next (s.ended (.err (.spi (.readRegister op
      (decodeStatus s.params (at' x.rx (5 + crcLen s))) (at' x.rx (5 + crcLen s)) (at' x.rx (6 + crcLen s))))) [x] rest)

/-- WRREG along a good response ends with unit, one transfer made (R153). -/
def Obligations.WrregWrites : Prop :=
  ∀ (s : State) (a d : Word) (exs : List Exchange) (rest : List PeerAnswer), s.seq = .idle → WritesReg s a d exs →
    s.meets exs rest → exec (.wrreg a d) s = .next (s.ended (.ok .unit) exs rest)

/-- WRREG whose echo is wrong or whose status byte is not zero as a whole ends in WriteRegisterError with the opcode
sent and the decoded status, after its one transfer (R155, R246). -/
def Obligations.WrregRejects : Prop :=
  ∀ (s : State) (a d : Word) (op : WireOp) (clk : Bool) (L : Nat) (x : Exchange) (rest : List PeerAnswer),
    s.seq = .idle →
    (a.toNat ≤ 0x30 ∧ op = .internalWrite ∧ clk = true ∧ L = 7 ∨
      0x30 < a.toNat ∧ op = .singleWrite ∧ clk = false ∧ L = 8) →
    x.sends (encodeFrame s op a d 0 clk ++ zeros s.params s.params.regRspWr) →
    (at' x.rx (L + crcLen s) ≠ s.params.opc.byteOf op ∨ at' x.rx (L + 1 + crcLen s) ≠ 0) →
    s.meets [x] rest →
    exec (.wrreg a d) s = .next (s.ended (.err (.spi (.writeRegister op
      (decodeStatus s.params (at' x.rx (L + 1 + crcLen s)))))) [x] rest)

/-- The boundary property of R166, whatever the peer answers: the opcode of the one transfer made. -/
def Obligations.ClocklessThresholds : Prop :=
  ∀ (s : State) (d : Word), s.seq = .idle →
    ∀ v ∈ [(Instr.rdreg 0xFF, s.params.opc.internalRead), (.rdreg 0x100, s.params.opc.singleRead),
        (.wrreg 0x30 d, s.params.opc.internalWrite), (.wrreg 0x31 d, s.params.opc.singleWrite),
        (.rdreg 0x30, s.params.opc.internalRead), (.rdreg 0x31, s.params.opc.internalRead)],
      ∃ t x, exec v.1 s = .next t ∧ t.trace = s.trace ++ [x] ∧ x.tx.head? = some v.2

/-- Whatever the peer answers, the first transfer of each of the four accesses sends the command of its rule, check byte
included when `crc_on`, before any fill byte (R102, R144, R306(g)). -/
def Obligations.AccessSendsCommandFirst : Prop :=
  ∀ (s : State) (i : Instr) (op : WireOp) (a d z : Word) (clk : Bool) (n : Nat), s.seq = .idle → inBounds s i →
    (i = .rdreg a ∧ a.toNat ≤ 0xFF ∧ op = .internalRead ∧ d = 0 ∧ z = 0 ∧ clk = true ∧ n = s.params.regRspRd ∨
      i = .rdreg a ∧ 0xFF < a.toNat ∧ op = .singleRead ∧ d = 0 ∧ z = 0 ∧ clk = false ∧ n = s.params.regRspRd ∨
      i = .wrreg a d ∧ a.toNat ≤ 0x30 ∧ op = .internalWrite ∧ z = 0 ∧ clk = true ∧ n = s.params.regRspWr ∨
      i = .wrreg a d ∧ 0x30 < a.toNat ∧ op = .singleWrite ∧ z = 0 ∧ clk = false ∧ n = s.params.regRspWr ∨
      i = .rdblk a z.toNat ∧ op = .dmaExtRead ∧ d = 0 ∧ clk = false ∧ n = 0 ∨
      (∃ b, i = .wrblk a b ∧ b.length = z.toNat) ∧ op = .dmaExtWrite ∧ d = 0 ∧ clk = false ∧ n = 0) →
    ∃ t x ts, exec i s = .next t ∧ t.trace = s.trace ++ x :: ts ∧
      x.tx = encodeFrame s op a d z clk ++ List.replicate n s.params.fill ∧
      (crcOn s = true → crc7Valid s.params.crc7Poly (encodeFrame s op a d z clk) = true)

/-- A transfer that fails ends the operation that made it with PinStateError or TransferError, in the order of R52 and
R258, having presented the bytes `tx` of its rule, and with nothing changed but the link: RDREG, WRREG and DATA_MARK,
which make one transfer. That DATA_MARK is a request of its own is the model's choice (log 8). -/
def Obligations.TransportErrors : Prop :=
  ∀ (s : State) (ans : PeerAnswer) (rest : List PeerAnswer) (e : SpiError) (fin : XferEnd) (i : Instr) (tx : List Byte),
    s.seq = .idle → s.script = ans :: rest → transferFails ans e fin →
    ((∃ a op clk, i = .rdreg a ∧
        (a.toNat ≤ 0xFF ∧ op = .internalRead ∧ clk = true ∨ 0xFF < a.toNat ∧ op = .singleRead ∧ clk = false) ∧
        tx = encodeFrame s op a 0 0 clk ++ zeros s.params s.params.regRspRd) ∨
      (∃ a d op clk, i = .wrreg a d ∧
        (a.toNat ≤ 0x30 ∧ op = .internalWrite ∧ clk = true ∨ 0x30 < a.toNat ∧ op = .singleWrite ∧ clk = false) ∧
        tx = encodeFrame s op a d 0 clk ++ zeros s.params s.params.regRspWr) ∨
      i = .dataMark ∧ tx = [0xF3]) →
    ∃ t, exec i s = .next t ∧ s.failed t (.spi e) [] (some ⟨tx, ans, fin⟩) rest

/-! ## Block access -/

/-- RDBLK along a good transcript ends with the bytes of its data transfer (R156, R159). -/
def Obligations.RdblkReads : Prop :=
  ∀ (s : State) (a : Word) (n : Nat) (d : List Byte) (exs : List Exchange) (rest : List PeerAnswer), s.seq = .idle →
    1 ≤ n → n ≤ s.params.maxBlock → ReadsBlock s a.toNat n d exs → s.meets exs rest →
    exec (.rdblk a n) s = .next (s.ended (.ok (.bytes d)) exs rest)

/-- Ten misses of RDBLK's response poll end in TimeoutError(ReadDataResponse): eleven transfers, no data transfer
(R157, R248, R271(a)). -/
def Obligations.RdblkTimesOut : Prop :=
  ∀ (s : State) (a : Word) (n : Nat) (cmd : Exchange) (misses : List Exchange) (rest : List PeerAnswer), s.seq = .idle →
    1 ≤ n → n ≤ s.params.maxBlock →
    cmd.sends (encodeFrame s .dmaExtRead a 0 (BitVec.ofNat 32 n) false) → misses.length = 10 →
    (∀ m ∈ misses, m.sends (zeros s.params s.params.rdRspLen) ∧ at' m.rx 0 ≠ s.params.opc.dmaExtRead) →
    s.meets (cmd :: misses) rest →
    exec (.rdblk a n) s = .next (s.ended (.err (.spi (.timeout .readDataResponse))) (cmd :: misses) rest)

/-- A block-read response with a wrong status or marker ends in ReadDataError; no data transfer is made (R158, R247). -/
def Obligations.RdblkRejects : Prop :=
  ∀ (s : State) (a : Word) (n : Nat) (cmd hit : Exchange) (misses : List Exchange) (rest : List PeerAnswer),
    s.seq = .idle → 1 ≤ n → n ≤ s.params.maxBlock →
    cmd.sends (encodeFrame s .dmaExtRead a 0 (BitVec.ofNat 32 n) false) →
    PollsEcho s .dmaExtRead s.params.rdRspLen misses hit →
    (at' hit.rx 1 &&& s.params.statusMask ≠ 0 ∨ at' hit.rx 2 &&& 0xF0 ≠ 0xF0) →
    s.meets (cmd :: (misses ++ [hit])) rest →
    exec (.rdblk a n) s = .next (s.ended
      (.err (.spi (.readData .dmaExtRead (decodeStatus s.params (at' hit.rx 1))))) (cmd :: (misses ++ [hit])) rest)

/-- WRBLK along a good transcript ends with unit: command, response poll, mark, payload, completion poll (R160). -/
def Obligations.WrblkWrites : Prop :=
  ∀ (s : State) (a : Word) (b : List Byte) (exs : List Exchange) (rest : List PeerAnswer), s.seq = .idle →
    1 ≤ b.length → b.length ≤ s.params.maxBlock → WritesBlock s a.toNat b exs → s.meets exs rest →
    exec (.wrblk a b) s = .next (s.ended (.ok .unit) exs rest)

/-- The two timeouts of WRBLK: ten misses of the response poll (nothing of the payload sent), and ten misses of the
completion poll (the payload sent) (R157, R163, R248). -/
def Obligations.WrblkTimesOut : Prop :=
  ∀ (s : State) (a : Word) (b : List Byte) (cmd hit mark payload : Exchange) (misses waits : List Exchange)
    (rest : List PeerAnswer), s.seq = .idle → 1 ≤ b.length → b.length ≤ s.params.maxBlock →
    cmd.sends (encodeFrame s .dmaExtWrite a 0 (BitVec.ofNat 32 b.length) false) →
    (misses.length = 10 →
      (∀ m ∈ misses, m.sends (zeros s.params s.params.wrRspLen) ∧ at' m.rx 0 ≠ s.params.opc.dmaExtWrite) →
      s.meets (cmd :: misses) rest →
      exec (.wrblk a b) s = .next (s.ended (.err (.spi (.timeout .writeDataResponse))) (cmd :: misses) rest)) ∧
    (PollsEcho s .dmaExtWrite s.params.wrRspLen misses hit → at' hit.rx 1 = 0 → mark.sends [0xF3] →
      payload.sends b → waits.length = 10 → (∀ w ∈ waits, w.sends (zeros s.params 1) ∧ at' w.rx 0 ≠ 0xC3) →
      s.meets (cmd :: (misses ++ hit :: mark :: payload :: waits)) rest →
      exec (.wrblk a b) s = .next (s.ended (.err (.spi (.timeout .writeDataComplete)))
        (cmd :: (misses ++ hit :: mark :: payload :: waits)) rest))

/-- A block-write response whose status byte is not zero ends in WriteDataError; neither the mark nor the payload is
sent (R161, R250). -/
def Obligations.WrblkRejects : Prop :=
  ∀ (s : State) (a : Word) (b : List Byte) (cmd hit : Exchange) (misses : List Exchange) (rest : List PeerAnswer),
    s.seq = .idle → 1 ≤ b.length → b.length ≤ s.params.maxBlock →
    cmd.sends (encodeFrame s .dmaExtWrite a 0 (BitVec.ofNat 32 b.length) false) →
    PollsEcho s .dmaExtWrite s.params.wrRspLen misses hit → at' hit.rx 1 ≠ 0 →
    s.meets (cmd :: (misses ++ [hit])) rest →
    exec (.wrblk a b) s = .next (s.ended
      (.err (.spi (.writeData .dmaExtWrite (decodeStatus s.params (at' hit.rx 1))))) (cmd :: (misses ++ [hit])) rest)

/-- RDBLK, WRBLK and HSEND end in the error of the first thing that goes wrong, in the order of R258, wherever it goes
wrong: the command, a response poll (a transport error wins over the poll's timeout, R157), the status and the marker,
the data, the mark, the payload, the completion poll (R163); for HSEND each of its eight steps (R190), the busy poll
included (R192). What was transferred before stands, nothing behind it is sent, and nothing else of the block changes
(R260, R262). -/
def Obligations.PollTransportErrors : Prop :=
  ∀ (s : State) (e : DriverError) (exs : List Exchange) (cut : Option Cut) (rest : List PeerAnswer), s.seq = .idle →
    s.meetsCut exs cut rest →
    (∀ (a : Word) (n : Nat), 1 ≤ n → n ≤ s.params.maxBlock → ReadsBlockFails s a.toNat n e exs cut →
      ∃ t, exec (.rdblk a n) s = .next t ∧ s.failed t e exs cut rest) ∧
    (∀ (a : Word) (b : List Byte), 1 ≤ b.length → b.length ≤ s.params.maxBlock →
      WritesBlockFails s a.toNat b e exs cut → ∃ t, exec (.wrblk a b) s = .next t ∧ s.failed t e exs cut rest) ∧
    (∀ (h : HifHeader) (d c : List Byte), d.length ≤ s.params.maxBlock → c.length ≤ s.params.maxBlock →
      SendsFails s h d c e exs cut → ∃ t, exec (.hsend h d c) s = .next t ∧ s.failed t e exs cut rest)

/-- `decode_status` (R93): the masked status byte, 0 to 5 by name, above 5 InvalidError. -/
def Obligations.StatusCodes : Prop :=
  ∀ (p : Params) (b : Byte),
    ((b &&& p.statusMask).toNat = 0 → decodeStatus p b = .noError) ∧
    ((b &&& p.statusMask).toNat = 1 → decodeStatus p b = .unsupportedCommand) ∧
    ((b &&& p.statusMask).toNat = 2 → decodeStatus p b = .unexpectedDataReceived) ∧
    ((b &&& p.statusMask).toNat = 3 → decodeStatus p b = .crc7Error) ∧
    ((b &&& p.statusMask).toNat = 4 → decodeStatus p b = .crc16Error) ∧
    ((b &&& p.statusMask).toNat = 5 → decodeStatus p b = .internalError) ∧
    (6 ≤ (b &&& p.statusMask).toNat → decodeStatus p b = .invalidError)

/-- The three tokens (R91, R92): DATA_MARK is one transfer of 0xF3 whose received byte is ignored; WRITE_DONE and every
READ_MARKER pass the block's acceptance tests, and no other byte does. That a token is a request of its own is the
model's choice (log 8). -/
def Obligations.TokensComplete : Prop :=
  (∀ (s : State) (x : Exchange) (rest : List PeerAnswer), s.seq = .idle → x.sends [0xF3] → s.meets [x] rest →
    exec .dataMark s = .next (s.ended (.ok .unit) [x] rest)) ∧
  (∀ s : State, exec .writeDone s = .next (s.answered (.bool true))) ∧
  (∀ (low : BitVec 4) (s : State), exec (.readMarker low) s = .next (s.answered (.bool true))) ∧
  (∀ b : Byte, (isWriteDone b = true ↔ b = 0xC3) ∧ (isMarker b = true ↔ 0xF0 ≤ b.toNat))

/-! ## The HIF engine -/

/-- HSEND runs its eight steps in order and ends with unit (R190 to R192): the header word, the flag, the busy poll, the
allocated address, three block writes of which the empty ones are skipped, the commit word. -/
def Obligations.HsendSends : Prop :=
  ∀ (s : State) (h : HifHeader) (d c : List Byte) (exs : List Exchange) (rest : List PeerAnswer), s.seq = .idle →
    d.length ≤ s.params.maxBlock → c.length ≤ s.params.maxBlock → Sends s h d c exs → s.meets exs rest →
    exec (.hsend h d c) s = .next (s.ended (.ok .unit) exs rest)

/-- A busy bit that stays set for a hundred reads ends HSEND in TimeoutError(SendBusy): nothing is written to the
peer's buffer and nothing is committed (R192, R248). -/
def Obligations.HsendBusyTimesOut : Prop :=
  ∀ (s : State) (h : HifHeader) (d c : List Byte) (e1 e2 : List Exchange) (busy : List (List Exchange))
    (rest : List PeerAnswer), s.seq = .idle → d.length ≤ s.params.maxBlock → c.length ≤ s.params.maxBlock →
    WritesReg s s.params.regHifHdr (hdrPack h) e1 →
    WritesReg s s.params.regTxCtrl (1#32 <<< s.params.txFlagBit) e2 → busy.length = 100 →
    (∀ b ∈ busy, ∃ u : Word, ReadsReg s s.params.regTxCtrl u b ∧ u.getLsbD s.params.txBusyBit = true) →
    s.meets (e1 ++ e2 ++ busy.flatten) rest →
    exec (.hsend h d c) s = .next (s.ended (.err (.spi (.timeout .sendBusy))) (e1 ++ e2 ++ busy.flatten) rest)

/-- HISR that finds the new-data bit clear returns None after one register read and changes nothing else (R194). The
write of `ds.mode` is the operand's (log 13). -/
def Obligations.HisrNothingPending : Prop :=
  ∀ (s : State) (m : Mode) (reg : Word) (e : List Exchange) (rest : List PeerAnswer), s.seq = .idle →
    ReadsReg s s.params.regRcvCtrl0 reg e → reg.getLsbD s.params.newDataBit = false → s.meets e rest →
    exec (.hisr m) s = .next ({ s with ds := { s.ds with mode := m } }.ended (.ok (.command none)) e rest)

/-- HISR with new data of size 0 clears the bit, runs HFIN and returns None; the window of `ctx` keeps its values
(R197). The write of `ds.mode` is the operand's (log 13, the model's choice). -/
def Obligations.HisrEmptyPacket : Prop :=
  ∀ (s : State) (m : Mode) (reg : Word) (e1 e2 e3 : List Exchange) (rest : List PeerAnswer), s.seq = .idle →
    ReadsReg s s.params.regRcvCtrl0 reg e1 → reg.getLsbD s.params.newDataBit = true → reg.toNat / 4 % 4096 = 0 →
    WritesReg s s.params.regRcvCtrl0 (reg &&& ~~~(1#32 <<< s.params.newDataBit)) e2 → Finishes s e3 →
    s.meets (e1 ++ e2 ++ e3) rest →
    exec (.hisr m) s = .next ({ s with
      ds := { s.ds with mode := m }
      ctx := { s.ctx with readDone := true } }.ended (.ok (.command none)) (e1 ++ e2 ++ e3) rest)

/-- HISR services a packet (R193 to R203): announced at `addr` with `size` bytes, its header read, dispatched by group
and opcode, its payload read where a handler exists, released exactly once; the decoded command is the result, `ctx`
holds the packet's window closed, and the sink registers hold what the payload says. The write of `ds.mode` is the
operand's (log 13, the model's choice). -/
def Obligations.HisrServicesPacket : Prop :=
  ∀ (s : State) (m : Mode) (size addr : Word) (hb b : List Byte) (cmd : Option Command) (e1 e2 : List Exchange)
    (rest : List PeerAnswer), s.seq = .idle → Announces s size addr hb e1 →
    cmd = routeHeader s.params ⟨at' hb 0, at' hb 1, be16 (at' hb 3) (at' hb 2)⟩ →
    Services { s with ds := { s.ds with mode := m }, ctx := ⟨addr, size, false⟩ } cmd b e2 → s.meets (e1 ++ e2) rest →
    exec (.hisr m) s = .next ({ s with
      ctx := ⟨addr, size, true⟩
      ds := sinkAfter { s with ds := { s.ds with mode := m } } cmd b }.ended (.ok (.command cmd)) (e1 ++ e2) rest)

/-- HISR with a handled packet announced too small ends in SizeMismatch or AddressMismatch after the header read; no
handler read, no HFIN, the sink registers unchanged and `ctx.read_done` false (R214, R302). The write of `ds.mode` is
the operand's (log 13, the model's choice). -/
def Obligations.HisrShortPacket : Prop :=
  ∀ (s : State) (m : Mode) (size addr : Word) (hb : List Byte) (cmd : Option Command) (k : Nat) (e : List Exchange)
    (rest : List PeerAnswer), s.seq = .idle → Announces s size addr hb e →
    cmd = routeHeader s.params ⟨at' hb 0, at' hb 1, be16 (at' hb 3) (at' hb 2)⟩ → payloadSize cmd = some k →
    size.toNat < 8 + k → s.meets e rest →
    exec (.hisr m) s = .next ({ s with
      ctx := ⟨addr, size, false⟩
      ds := { s.ds with mode := m } }.ended (.err (.hif
        (if size.toNat < k then .sizeMismatch k size.toNat else .addressMismatch (addr.toNat + 8) addr.toNat))) e rest)

/-- Whatever the peer does after the first read: a HISR that found the new-data bit set and returns Ok leaves
`ctx.read_done` true, and one that found it clear leaves `ctx` as it was (R306(b)). -/
def Obligations.HisrReleases : Prop :=
  ∀ (s t : State) (m : Mode) (reg : Word) (e : List Exchange) (rest : List PeerAnswer), s.seq = .idle →
    ReadsReg s s.params.regRcvCtrl0 reg e → s.meets e rest → exec (.hisr m) s = .next t →
    (reg.getLsbD s.params.newDataBit = true → ∀ v, t.result = some (.ok v) → t.ctx.readDone = true) ∧
    (reg.getLsbD s.params.newDataBit = false → t.ctx = s.ctx)

/-- The routing of a header (R103 to R105, R201, R202): by group, then by opcode, a row of either table giving the
variant it names; an unknown group gives no command, an unknown opcode the catch-all. -/
def Obligations.RoutingTables : Prop :=
  ∀ (p : Params) (h : HifHeader), p.WellFormed →
    (h.groupId ≠ p.gidWifi → h.groupId ≠ p.gidIp → routeHeader p h = none) ∧
    (h.groupId = p.gidIp →
      (∀ n, (h.opcode, n) ∈ p.socketTable → routeHeader p h = some (.ip (.named n))) ∧
      (h.opcode ∉ p.socketTable.map Prod.fst → routeHeader p h = some (.ip .invalid))) ∧
    (h.groupId = p.gidWifi →
      (h.opcode = p.wifiConState → routeHeader p h = some (.wifi .respConStateChanged)) ∧
      (h.opcode = p.wifiSysTime → routeHeader p h = some (.wifi .respGetSysTime)) ∧
      (h.opcode = p.wifiConnInfo → routeHeader p h = some (.wifi .respConnInfo)) ∧
      (h.opcode = p.wifiScanResult → routeHeader p h = some (.wifi .respScanResult)) ∧
      (∀ n, (h.opcode, n) ∈ p.wifiOther → routeHeader p h = some (.wifi (.named n))) ∧
      (h.opcode ∉ p.handledOpcodes → h.opcode ∉ p.wifiOther.map Prod.fst → routeHeader p h = some (.wifi .invalid)))

/-- The two checks of HRECV, in order and without a transfer: the size, then containment in the packet's window, on
integers without wrap (R205, R206, R251, R252). -/
def Obligations.HrecvChecks : Prop :=
  ∀ (s : State) (a : Word) (n : Nat), s.seq = .idle →
    (s.ctx.readSize.toNat < n → exec (.hrecv a n) s =
      .next (s.ended (.err (.hif (.sizeMismatch n s.ctx.readSize.toNat))) [] s.script)) ∧
    (n ≤ s.ctx.readSize.toNat →
      a.toNat < s.ctx.readAddr.toNat ∨ s.ctx.readAddr.toNat + s.ctx.readSize.toNat < a.toNat + n →
      exec (.hrecv a n) s =
        .next (s.ended (.err (.hif (.addressMismatch a.toNat s.ctx.readAddr.toNat))) [] s.script))

/-- HRECV inside the window reads the bytes and runs HFIN exactly when the read ends at the packet's end (R204, R207,
R208); `ctx.read_done` is not looked at. -/
def Obligations.HrecvReads : Prop :=
  ∀ (s : State) (a : Word) (n : Nat) (d : List Byte) (e1 e2 : List Exchange) (rest : List PeerAnswer), s.seq = .idle →
    1 ≤ n → n ≤ s.params.maxBlock → n ≤ s.ctx.readSize.toNat → s.ctx.readAddr.toNat ≤ a.toNat →
    a.toNat + n ≤ s.ctx.readAddr.toNat + s.ctx.readSize.toNat → ReadsBlock s a.toNat n d e1 →
    FinishesIf s (a.toNat + n = s.ctx.readAddr.toNat + s.ctx.readSize.toNat) e2 → s.meets (e1 ++ e2) rest →
    exec (.hrecv a n) s = .next ({ s with
      ctx := { s.ctx with
        readDone := s.ctx.readDone || decide (a.toNat + n = s.ctx.readAddr.toNat + s.ctx.readSize.toNat) } }.ended
          (.ok (.bytes d)) (e1 ++ e2) rest)

/-- HFIN reads the receive-control word, writes it back with bit 1 set, and leaves `ctx.read_done` true (R210, R211). -/
def Obligations.HfinFinishes : Prop :=
  ∀ (s : State) (exs : List Exchange) (rest : List PeerAnswer), s.seq = .idle → Finishes s exs → s.meets exs rest →
    exec .hfin s = .next ({ s with ctx := { s.ctx with readDone := true } }.ended (.ok .unit) exs rest)

/-- The four handled packets (R213 to R219): one read of the payload's fixed size, the sink register of the packet's
kind written from it, the packet released. That a packet is a request of its own, on the window `ctx` holds, is the
model's reading (log 7). -/
def Obligations.HandledPackets : Prop :=
  ∀ (s : State) (l : BitVec 16) (i : Instr) (v : WifiCommand) (b : List Byte) (exs : List Exchange)
    (rest : List PeerAnswer), s.seq = .idle →
    (i = .hifConState l ∧ v = .respConStateChanged ∨ i = .hifSysTime l ∧ v = .respGetSysTime ∨
      i = .hifConnInfo l ∧ v = .respConnInfo ∨ i = .hifScanResult l ∧ v = .respScanResult) →
    Services s (some (.wifi v)) b exs → s.meets exs rest →
    exec i s = .next ({ s with
      ctx := { s.ctx with readDone := true }
      ds := sinkAfter s (some (.wifi v)) b }.ended (.ok (.command (some (.wifi v)))) exs rest)

/-- The packets without a handler (R201, R220, R221): no payload read, no sink register written, the packet released
if it is open; the variant is returned, nothing for an unknown group (log 7). -/
def Obligations.UnhandledPackets : Prop :=
  ∀ (s : State) (g o : Byte) (l : BitVec 16) (i : Instr) (cmd : Option Command) (exs : List Exchange)
    (rest : List PeerAnswer), s.seq = .idle → i.wf s.params = true →
    (i = .hifWifiOther o l ∧ cmd = routeHeader s.params ⟨s.params.gidWifi, o, l⟩ ∨
      i = .hifIpAny o l ∧ s.params.gidWifi ≠ s.params.gidIp ∧ cmd = routeHeader s.params ⟨s.params.gidIp, o, l⟩ ∨
      i = .hifUnknownGroup g o l ∧ cmd = routeHeader s.params ⟨g, o, l⟩) →
    FinishesIf s (s.ctx.readDone = false) exs → s.meets exs rest →
    exec i s = .next ({ s with ctx := { s.ctx with readDone := true } }.ended (.ok (.command cmd)) exs rest)

/-- The connection-status transition of R216, from the first payload byte and the mode alone, whatever the old status;
any other byte changes nothing. It is stated through the packet as a request of its own, on the window `ctx` holds (log
7, the model's choice). -/
def Obligations.ConnectionStatus : Prop :=
  ∀ (s : State) (l : BitVec 16) (b : List Byte) (exs : List Exchange) (rest : List PeerAnswer), s.seq = .idle →
    s.params.csConnected ≠ s.params.csDisconnected → Services s (some (.wifi .respConStateChanged)) b exs →
    s.meets exs rest → ∃ t, exec (.hifConState l) s = .next t ∧
      (b[0]? = some s.params.csConnected → s.ds.mode = .station → t.ds.connStatus = some .connected) ∧
      (b[0]? = some s.params.csConnected → s.ds.mode = .ap → t.ds.connStatus = some .apConnected) ∧
      (b[0]? = some s.params.csDisconnected → s.ds.mode = .station → t.ds.connStatus = some .disconnected) ∧
      (b[0]? = some s.params.csDisconnected → s.ds.mode = .ap → t.ds.connStatus = some .apListening) ∧
      (b[0]? ≠ some s.params.csConnected → b[0]? ≠ some s.params.csDisconnected →
        t.ds.connStatus = s.ds.connStatus)

/-! ## Session control and reset -/

/-- CRCOFF writes one bit, makes no transfer and cannot fail; it is idempotent (a second one changes nothing but the
record of its end); under `CRC_FORCED` it has no effect on `crc_on`; after reset it shortens the command of `RDREG
0x1000` from five bytes to four (R230). -/
def Obligations.CrcoffWrites : Prop :=
  (∀ s : State, s.seq = .idle →
    exec .crcoff s = .next ({ s with crcDisabled := true }.ended (.ok .unit) [] s.script) ∧
      (∀ t, exec .crcoff s = .next t → exec .crcoff t = .next (t.ended (.ok .unit) [] t.script) ∧
        t.crcDisabled = true ∧ (s.params.crcForced = true → crcOn t = true) ∧
        (s.params.crcForced = false → crcOn t = false))) ∧
  encodeFrame State.reset .singleRead 0x1000 0 0 false = [0xCA, 0x00, 0x10, 0x00, 0xCA] ∧
  (∀ t, exec .crcoff State.reset = .next t → encodeFrame t .singleRead 0x1000 0 0 false = [0xCA, 0x00, 0x10, 0x00])

/-- Nothing but the reset event sets `crc_disabled` back to false, and it does (R231). -/
def Obligations.CrcModeMonotone : Prop :=
  (∀ (i : Instr) (s t : State), exec i s = .next t → s.crcDisabled = true → t.crcDisabled = false → i = .breset) ∧
  (∀ (s t : State), exec .breset s = .next t → t.crcDisabled = false)

/-- BRESET gives the block's state its initial values, makes no transfer, cannot fail, does not touch the peer, and is
admitted only when idle (R280); the state after reset is one it gives. -/
def Obligations.BresetResets : Prop :=
  (∀ s : State, s.seq = .idle → exec .breset s = .next ({ s with
    crcDisabled := false
    ctx := ⟨0, 0, true⟩
    cs := .deasserted
    ds := ⟨s.ds.mode, none, none, none, none⟩ }.ended (.ok .unit) [] s.script)) ∧
  (∀ s : State, s.seq ≠ .idle → exec .breset s = .refused .portBusy) ∧
  (∀ s t : State, exec .breset s = .next t → t.seq = State.reset.seq ∧ t.crcDisabled = State.reset.crcDisabled ∧
    t.ctx = State.reset.ctx ∧ t.cs = State.reset.cs ∧ { t.ds with mode := .station } = State.reset.ds)

/-- The reset values of R45. -/
def Obligations.ResetValues : Prop :=
  State.reset.seq = .idle ∧ State.reset.crcDisabled = false ∧ State.reset.ctx.readAddr = 0 ∧
  State.reset.ctx.readSize = 0 ∧ State.reset.ctx.readDone = true ∧ State.reset.cs = .deasserted ∧
  State.reset.ds.connStatus = none ∧ State.reset.ds.scanResult = none ∧ State.reset.ds.sysTime = none ∧
  State.reset.ds.connInfo = none

/-! ## What an instruction leaves unchanged, over every peer -/

/-- RDREG, WRREG, RDBLK, WRBLK, HSEND and DATA_MARK write nothing but the link and the result; HFIN and HRECV also
`ctx.read_done`, towards true only, HFIN on every outcome; the parameters, `crc_disabled`, the window, the sink
registers and the requests waiting stay (R28, R150 to R160, R190, R204, R210, R262). That DATA_MARK is a request of its
own is the model's choice (log 8). -/
def Obligations.AccessFrames : Prop :=
  ∀ s t : State,
    (∀ i, ((∃ a, i = Instr.rdreg a) ∨ (∃ a d, i = .wrreg a d) ∨ (∃ a n, i = .rdblk a n) ∨ (∃ a b, i = .wrblk a b) ∨
      (∃ h d c, i = .hsend h d c) ∨ i = .dataMark) → exec i s = .next t → s.onlyTouches t s.ctx s.ds) ∧
    (∀ a n, exec (.hrecv a n) s = .next t →
      s.onlyTouches t s.ctx s.ds ∨ s.onlyTouches t { s.ctx with readDone := true } s.ds) ∧
    (exec .hfin s = .next t → s.onlyTouches t { s.ctx with readDone := true } s.ds)

/-- HISR and the packet rows write nothing but the link, the result, `ctx` and `ds`, whatever the peer does. A packet
keeps the window and moves `read_done` towards true only; of `ds` it writes nothing, or what its own kind leaves of the
payload bytes it read (R214, R222, R306(f)). HISR writes its operand `mode` and goes as far as its steps went: `ctx` and
the rest of `ds` untouched (steps 1 and 2); `read_done` only, behind the claim; the announced window, open, behind the
address read; then what steps 6 and 7 leave for the command that the header bytes read route to (R193, R198, R262). That
a packet is a request of its own is the model's choice (log 7), and so is the write of `mode` (log 13). -/
def Obligations.DispatchFrames : Prop :=
  ∀ s t : State,
    (∀ i cmd, packetCommand s.params i = some cmd → exec i s = .next t → ServiceLeaves s t cmd []) ∧
    (∀ m, exec (.hisr m) s = .next t → HisrLeaves { s with ds := { s.ds with mode := m } } t)

/-- RDREG, WRREG, RDBLK, WRBLK, HSEND and HFIN end only in the Spi half of the errors, HISR and HRECV in either (R241),
CRCOFF and BRESET in none (R258); InvalidSpiCommandError is never raised (R249). Nothing else can end in an error at all
(the pure functions, the wire commands, the peer's tokens), but for DATA_MARK (Spi only) and the packets (either half
for a handled kind, Spi only for the others), which are requests by the model's choice (logs 7, 8). -/
def Obligations.ErrorFamilies : Prop :=
  ∀ (i : Instr) (s t : State) (e : DriverError), exec i s = .next t → t.result = some (.err e) →
    e ≠ .spi .invalidSpiCommand ∧
    (isHostOp i = true ∨ i = .dataMark ∨ packetCommand s.params i ≠ none) ∧ i ≠ .crcoff ∧ i ≠ .breset ∧
    (((∃ a, i = Instr.rdreg a) ∨ (∃ a d, i = .wrreg a d) ∨ (∃ a n, i = .rdblk a n) ∨ (∃ a b, i = .wrblk a b) ∨
      (∃ h d c, i = .hsend h d c) ∨ i = .hfin ∨ i = .dataMark) → ∃ x, e = .spi x) ∧
    (∀ cmd, packetCommand s.params i = some cmd → payloadSize cmd = none → ∃ x, e = .spi x)

/-! ## The machine as a whole -/

/-- Totality (R272): every host request that is not refused, in every idle state, against every peer byte stream and
every transport outcome, ends in Ok or Err with the port free again, after at most the transfers of R272's table. The
requests set aside are those of R254 and HSEND with a buffer above `MAX_BLOCK` (log 16, deduced). -/
def Obligations.HostOperationsTerminate : Prop :=
  ∀ (s : State) (i : Instr), isHostOp i = true → s.seq = .idle → inBounds s i →
    ∃ t ts, exec i s = .next t ∧ t.seq = .idle ∧ (∃ r, t.result = some r) ∧ t.trace = s.trace ++ ts ∧
      ts.length ≤ transferBound i

/-- Every step keeps the invariant: the parameters' constraints, `ctx.read_size <= 4095` (R306(a)), and the widths of
the sink registers (R33 to R35). -/
def Obligations.StepKeepsInvariant : Prop :=
  ∀ s t : State, s.Inv → step s = .next t → t.Inv

/-- The state after reset satisfies the invariant, the spec's default parameters included (log 2). -/
def Obligations.ResetInvariant : Prop := State.reset.Inv

/-! ## The errors of nested accesses -/

/-- An error raised inside a nested rule ends the operation, unchanged (R260, R264), and leaves what R262 says. HFIN
fails with `read_done` true. HRECV inside the window fails as its block read does, `ctx` unchanged, or as the HFIN
behind it does, `read_done` true. A packet and HISR fail along each row of R262: HISR's steps 1, 2, both halves of 5,
its handler's read, and HFIN inside the handler's HRECV (the sink register not written) or after it. A packet as a
request of its own is the model's choice (log 7), and so is the write of `ds.mode` (log 13). -/
def Obligations.NestedErrorsPropagate : Prop :=
  ∀ (s : State) (e : DriverError) (exs : List Exchange) (cut : Option Cut) (rest : List PeerAnswer), s.seq = .idle →
    s.meetsCut exs cut rest →
    (FinishesFails s e exs cut → ∃ t, exec .hfin s = .next t ∧
      ({ s with ctx := { s.ctx with readDone := true } }).failed t e exs cut rest) ∧
    (∀ (a : Word) (n : Nat), 1 ≤ n → n ≤ s.params.maxBlock → n ≤ s.ctx.readSize.toNat → s.ctx.readAddr.toNat ≤ a.toNat →
      a.toNat + n ≤ s.ctx.readAddr.toNat + s.ctx.readSize.toNat →
      (ReadsBlockFails s a.toNat n e exs cut →
        ∃ t, exec (.hrecv a n) s = .next t ∧ s.failed t e exs cut rest) ∧
      (∀ d e1 e2, a.toNat + n = s.ctx.readAddr.toNat + s.ctx.readSize.toNat → exs = e1 ++ e2 →
        ReadsBlock s a.toNat n d e1 → FinishesFails s e e2 cut → ∃ t, exec (.hrecv a n) s = .next t ∧
          ({ s with ctx := { s.ctx with readDone := true } }).failed t e exs cut rest)) ∧
    (∀ i cmd ctx ds, packetCommand s.params i = some cmd → ServiceFails s cmd ctx ds e exs cut →
      ∃ t, exec i s = .next t ∧ ({ s with ctx := ctx, ds := ds }).failed t e exs cut rest) ∧
    (∀ m ctx ds, HisrFails { s with ds := { s.ds with mode := m } } ctx ds e exs cut →
      ∃ t, exec (.hisr m) s = .next t ∧ ({ s with ctx := ctx, ds := ds }).failed t e exs cut rest)
end

