-- ==== Sys2Proof/Laws/State.lean ====
section
/-! SUPPORT. One lemma per field per update of the state, each true by rfl, so that no later proof unfolds a record
update. -/

namespace Sys2Proof.Machine

open Sys2Proof

/-! ### setCrcDisabled -/

@[simp] theorem setCrcDisabled_params (s : State) : (setCrcDisabled s).params = s.params := rfl
@[simp] theorem setCrcDisabled_seq (s : State) : (setCrcDisabled s).seq = s.seq := rfl
@[simp] theorem setCrcDisabled_crcDisabled (s : State) : (setCrcDisabled s).crcDisabled = true := rfl
@[simp] theorem setCrcDisabled_ctx (s : State) : (setCrcDisabled s).ctx = s.ctx := rfl
@[simp] theorem setCrcDisabled_cs (s : State) : (setCrcDisabled s).cs = s.cs := rfl
@[simp] theorem setCrcDisabled_ds (s : State) : (setCrcDisabled s).ds = s.ds := rfl
@[simp] theorem setCrcDisabled_work (s : State) : (setCrcDisabled s).work = s.work := rfl
@[simp] theorem setCrcDisabled_port (s : State) : (setCrcDisabled s).port = s.port := rfl
@[simp] theorem setCrcDisabled_script (s : State) : (setCrcDisabled s).script = s.script := rfl
@[simp] theorem setCrcDisabled_trace (s : State) : (setCrcDisabled s).trace = s.trace := rfl
@[simp] theorem setCrcDisabled_result (s : State) : (setCrcDisabled s).result = s.result := rfl
@[simp] theorem setCrcDisabled_opsEnded (s : State) : (setCrcDisabled s).opsEnded = s.opsEnded := rfl

/-! ### setReadDone -/

@[simp] theorem setReadDone_params (b : Bool) (s : State) : (setReadDone b s).params = s.params := rfl
@[simp] theorem setReadDone_seq (b : Bool) (s : State) : (setReadDone b s).seq = s.seq := rfl
@[simp] theorem setReadDone_crcDisabled (b : Bool) (s : State) : (setReadDone b s).crcDisabled = s.crcDisabled := rfl
@[simp] theorem setReadDone_ctx (b : Bool) (s : State) : (setReadDone b s).ctx = { s.ctx with readDone := b } := rfl
@[simp] theorem setReadDone_cs (b : Bool) (s : State) : (setReadDone b s).cs = s.cs := rfl
@[simp] theorem setReadDone_ds (b : Bool) (s : State) : (setReadDone b s).ds = s.ds := rfl
@[simp] theorem setReadDone_work (b : Bool) (s : State) : (setReadDone b s).work = s.work := rfl
@[simp] theorem setReadDone_port (b : Bool) (s : State) : (setReadDone b s).port = s.port := rfl
@[simp] theorem setReadDone_script (b : Bool) (s : State) : (setReadDone b s).script = s.script := rfl
@[simp] theorem setReadDone_trace (b : Bool) (s : State) : (setReadDone b s).trace = s.trace := rfl
@[simp] theorem setReadDone_result (b : Bool) (s : State) : (setReadDone b s).result = s.result := rfl
@[simp] theorem setReadDone_opsEnded (b : Bool) (s : State) : (setReadDone b s).opsEnded = s.opsEnded := rfl

/-! ### afterXfer -/

@[simp] theorem afterXfer_params (tx : List Byte) (fin : XferEnd) (c : Cs) (s : State) :
    (afterXfer s tx fin c).params = s.params := rfl
@[simp] theorem afterXfer_seq (tx : List Byte) (fin : XferEnd) (c : Cs) (s : State) :
    (afterXfer s tx fin c).seq = s.seq := rfl
@[simp] theorem afterXfer_crcDisabled (tx : List Byte) (fin : XferEnd) (c : Cs) (s : State) :
    (afterXfer s tx fin c).crcDisabled = s.crcDisabled := rfl
@[simp] theorem afterXfer_ctx (tx : List Byte) (fin : XferEnd) (c : Cs) (s : State) :
    (afterXfer s tx fin c).ctx = s.ctx := rfl
@[simp] theorem afterXfer_cs (tx : List Byte) (fin : XferEnd) (c : Cs) (s : State) :
    (afterXfer s tx fin c).cs = c := rfl
@[simp] theorem afterXfer_ds (tx : List Byte) (fin : XferEnd) (c : Cs) (s : State) :
    (afterXfer s tx fin c).ds = s.ds := rfl
@[simp] theorem afterXfer_work (tx : List Byte) (fin : XferEnd) (c : Cs) (s : State) :
    (afterXfer s tx fin c).work = { s.work with txb := tx } := rfl
@[simp] theorem afterXfer_port (tx : List Byte) (fin : XferEnd) (c : Cs) (s : State) :
    (afterXfer s tx fin c).port = s.port := rfl
@[simp] theorem afterXfer_script (tx : List Byte) (fin : XferEnd) (c : Cs) (s : State) :
    (afterXfer s tx fin c).script = s.script.tail := rfl
@[simp] theorem afterXfer_trace (tx : List Byte) (fin : XferEnd) (c : Cs) (s : State) :
    (afterXfer s tx fin c).trace = s.trace ++ [⟨tx, fin⟩] := rfl
@[simp] theorem afterXfer_result (tx : List Byte) (fin : XferEnd) (c : Cs) (s : State) :
    (afterXfer s tx fin c).result = s.result := rfl
@[simp] theorem afterXfer_opsEnded (tx : List Byte) (fin : XferEnd) (c : Cs) (s : State) :
    (afterXfer s tx fin c).opsEnded = s.opsEnded := rfl

/-! ### accept -/

@[simp] theorem accept_params (op : HostOp) (latch : Work → Work) (s : State) :
    (accept op latch s).params = s.params := rfl
@[simp] theorem accept_seq (op : HostOp) (latch : Work → Work) (s : State) :
    (accept op latch s).seq = .busy op [] := rfl
@[simp] theorem accept_crcDisabled (op : HostOp) (latch : Work → Work) (s : State) :
    (accept op latch s).crcDisabled = s.crcDisabled := rfl
@[simp] theorem accept_ctx (op : HostOp) (latch : Work → Work) (s : State) : (accept op latch s).ctx = s.ctx := rfl
@[simp] theorem accept_cs (op : HostOp) (latch : Work → Work) (s : State) : (accept op latch s).cs = s.cs := rfl
@[simp] theorem accept_ds (op : HostOp) (latch : Work → Work) (s : State) : (accept op latch s).ds = s.ds := rfl
@[simp] theorem accept_work (op : HostOp) (latch : Work → Work) (s : State) :
    (accept op latch s).work = latch s.work := rfl
@[simp] theorem accept_port (op : HostOp) (latch : Work → Work) (s : State) : (accept op latch s).port = s.port := rfl
@[simp] theorem accept_script (op : HostOp) (latch : Work → Work) (s : State) :
    (accept op latch s).script = s.script := rfl
@[simp] theorem accept_trace (op : HostOp) (latch : Work → Work) (s : State) :
    (accept op latch s).trace = s.trace := rfl
@[simp] theorem accept_result (op : HostOp) (latch : Work → Work) (s : State) :
    (accept op latch s).result = s.result := rfl
@[simp] theorem accept_opsEnded (op : HostOp) (latch : Work → Work) (s : State) :
    (accept op latch s).opsEnded = s.opsEnded := rfl

/-! ### complete -/

@[simp] theorem complete_params (r : Except DriverError Value) (s : State) : (complete r s).params = s.params := rfl
@[simp] theorem complete_seq (r : Except DriverError Value) (s : State) : (complete r s).seq = .idle := rfl
@[simp] theorem complete_crcDisabled (r : Except DriverError Value) (s : State) :
    (complete r s).crcDisabled = s.crcDisabled := rfl
@[simp] theorem complete_ctx (r : Except DriverError Value) (s : State) : (complete r s).ctx = s.ctx := rfl
@[simp] theorem complete_cs (r : Except DriverError Value) (s : State) : (complete r s).cs = s.cs := rfl
@[simp] theorem complete_ds (r : Except DriverError Value) (s : State) : (complete r s).ds = s.ds := rfl
@[simp] theorem complete_work (r : Except DriverError Value) (s : State) :
    (complete r s).work = Config.freeWork s.opsEnded := rfl
@[simp] theorem complete_port (r : Except DriverError Value) (s : State) : (complete r s).port = s.port := rfl
@[simp] theorem complete_script (r : Except DriverError Value) (s : State) : (complete r s).script = s.script := rfl
@[simp] theorem complete_trace (r : Except DriverError Value) (s : State) : (complete r s).trace = s.trace := rfl
@[simp] theorem complete_result (r : Except DriverError Value) (s : State) :
    (complete r s).result = some (replyOf r) := rfl
@[simp] theorem complete_opsEnded (r : Except DriverError Value) (s : State) :
    (complete r s).opsEnded = s.opsEnded + 1 := rfl

/-! ### resetBlock -/

@[simp] theorem resetBlock_params (s : State) : (resetBlock s).params = s.params := rfl
@[simp] theorem resetBlock_seq (s : State) : (resetBlock s).seq = s.seq := rfl
@[simp] theorem resetBlock_crcDisabled (s : State) : (resetBlock s).crcDisabled = false := rfl
@[simp] theorem resetBlock_ctx (s : State) : (resetBlock s).ctx = Ctx.reset := rfl
@[simp] theorem resetBlock_cs (s : State) : (resetBlock s).cs = .deasserted := rfl
@[simp] theorem resetBlock_ds (s : State) :
    (resetBlock s).ds = { s.ds with connStatus := none, scanResult := none, sysTime := none, connInfo := none } := rfl
@[simp] theorem resetBlock_work (s : State) : (resetBlock s).work = s.work := rfl
@[simp] theorem resetBlock_port (s : State) : (resetBlock s).port = s.port := rfl
@[simp] theorem resetBlock_script (s : State) : (resetBlock s).script = s.script := rfl
@[simp] theorem resetBlock_trace (s : State) : (resetBlock s).trace = s.trace := rfl
@[simp] theorem resetBlock_result (s : State) : (resetBlock s).result = s.result := rfl
@[simp] theorem resetBlock_opsEnded (s : State) : (resetBlock s).opsEnded = s.opsEnded := rfl

/-! ### applySysTime -/

@[simp] theorem applySysTime_params (b : List Byte) (s : State) : (applySysTime b s).params = s.params := rfl
@[simp] theorem applySysTime_seq (b : List Byte) (s : State) : (applySysTime b s).seq = s.seq := rfl
@[simp] theorem applySysTime_crcDisabled (b : List Byte) (s : State) :
    (applySysTime b s).crcDisabled = s.crcDisabled := rfl
@[simp] theorem applySysTime_ctx (b : List Byte) (s : State) : (applySysTime b s).ctx = s.ctx := rfl
@[simp] theorem applySysTime_cs (b : List Byte) (s : State) : (applySysTime b s).cs = s.cs := rfl
@[simp] theorem applySysTime_ds (b : List Byte) (s : State) :
    (applySysTime b s).ds = { s.ds with sysTime := some b } := rfl
@[simp] theorem applySysTime_work (b : List Byte) (s : State) : (applySysTime b s).work = s.work := rfl
@[simp] theorem applySysTime_port (b : List Byte) (s : State) : (applySysTime b s).port = s.port := rfl
@[simp] theorem applySysTime_script (b : List Byte) (s : State) : (applySysTime b s).script = s.script := rfl
@[simp] theorem applySysTime_trace (b : List Byte) (s : State) : (applySysTime b s).trace = s.trace := rfl
@[simp] theorem applySysTime_result (b : List Byte) (s : State) : (applySysTime b s).result = s.result := rfl
@[simp] theorem applySysTime_opsEnded (b : List Byte) (s : State) : (applySysTime b s).opsEnded = s.opsEnded := rfl

/-! ### applyConnInfo -/

@[simp] theorem applyConnInfo_params (b : List Byte) (s : State) : (applyConnInfo b s).params = s.params := rfl
@[simp] theorem applyConnInfo_seq (b : List Byte) (s : State) : (applyConnInfo b s).seq = s.seq := rfl
@[simp] theorem applyConnInfo_crcDisabled (b : List Byte) (s : State) :
    (applyConnInfo b s).crcDisabled = s.crcDisabled := rfl
@[simp] theorem applyConnInfo_ctx (b : List Byte) (s : State) : (applyConnInfo b s).ctx = s.ctx := rfl
@[simp] theorem applyConnInfo_cs (b : List Byte) (s : State) : (applyConnInfo b s).cs = s.cs := rfl
@[simp] theorem applyConnInfo_ds (b : List Byte) (s : State) :
    (applyConnInfo b s).ds = { s.ds with connInfo := some b } := rfl
@[simp] theorem applyConnInfo_work (b : List Byte) (s : State) : (applyConnInfo b s).work = s.work := rfl
@[simp] theorem applyConnInfo_port (b : List Byte) (s : State) : (applyConnInfo b s).port = s.port := rfl
@[simp] theorem applyConnInfo_script (b : List Byte) (s : State) : (applyConnInfo b s).script = s.script := rfl
@[simp] theorem applyConnInfo_trace (b : List Byte) (s : State) : (applyConnInfo b s).trace = s.trace := rfl
@[simp] theorem applyConnInfo_result (b : List Byte) (s : State) : (applyConnInfo b s).result = s.result := rfl
@[simp] theorem applyConnInfo_opsEnded (b : List Byte) (s : State) : (applyConnInfo b s).opsEnded = s.opsEnded := rfl

/-! ### applyScanResult -/

@[simp] theorem applyScanResult_params (b : List Byte) (s : State) : (applyScanResult b s).params = s.params := rfl
@[simp] theorem applyScanResult_seq (b : List Byte) (s : State) : (applyScanResult b s).seq = s.seq := rfl
@[simp] theorem applyScanResult_crcDisabled (b : List Byte) (s : State) :
    (applyScanResult b s).crcDisabled = s.crcDisabled := rfl
@[simp] theorem applyScanResult_ctx (b : List Byte) (s : State) : (applyScanResult b s).ctx = s.ctx := rfl
@[simp] theorem applyScanResult_cs (b : List Byte) (s : State) : (applyScanResult b s).cs = s.cs := rfl
@[simp] theorem applyScanResult_ds (b : List Byte) (s : State) :
    (applyScanResult b s).ds = { s.ds with scanResult := some (scanOf b) } := rfl
@[simp] theorem applyScanResult_work (b : List Byte) (s : State) : (applyScanResult b s).work = s.work := rfl
@[simp] theorem applyScanResult_port (b : List Byte) (s : State) : (applyScanResult b s).port = s.port := rfl
@[simp] theorem applyScanResult_script (b : List Byte) (s : State) : (applyScanResult b s).script = s.script := rfl
@[simp] theorem applyScanResult_trace (b : List Byte) (s : State) : (applyScanResult b s).trace = s.trace := rfl
@[simp] theorem applyScanResult_result (b : List Byte) (s : State) : (applyScanResult b s).result = s.result := rfl
@[simp] theorem applyScanResult_opsEnded (b : List Byte) (s : State) :
    (applyScanResult b s).opsEnded = s.opsEnded := rfl

/-! ### popPort -/

@[simp] theorem popPort_params (s : State) : (s.popPort).params = s.params := rfl
@[simp] theorem popPort_seq (s : State) : (s.popPort).seq = s.seq := rfl
@[simp] theorem popPort_crcDisabled (s : State) : (s.popPort).crcDisabled = s.crcDisabled := rfl
@[simp] theorem popPort_ctx (s : State) : (s.popPort).ctx = s.ctx := rfl
@[simp] theorem popPort_cs (s : State) : (s.popPort).cs = s.cs := rfl
@[simp] theorem popPort_ds (s : State) : (s.popPort).ds = s.ds := rfl
@[simp] theorem popPort_work (s : State) : (s.popPort).work = s.work := rfl
@[simp] theorem popPort_port (s : State) : (s.popPort).port = s.port.tail := rfl
@[simp] theorem popPort_script (s : State) : (s.popPort).script = s.script := rfl
@[simp] theorem popPort_trace (s : State) : (s.popPort).trace = s.trace := rfl
@[simp] theorem popPort_result (s : State) : (s.popPort).result = s.result := rfl
@[simp] theorem popPort_opsEnded (s : State) : (s.popPort).opsEnded = s.opsEnded := rfl

/-! ### withFetchWord -/

@[simp] theorem withFetchWord_params (nbits w : Nat) (s : State) : (s.withFetchWord nbits w).params = s.params := rfl
@[simp] theorem withFetchWord_seq (nbits w : Nat) (s : State) : (s.withFetchWord nbits w).seq = s.seq := rfl
@[simp] theorem withFetchWord_crcDisabled (nbits w : Nat) (s : State) :
    (s.withFetchWord nbits w).crcDisabled = s.crcDisabled := rfl
@[simp] theorem withFetchWord_ctx (nbits w : Nat) (s : State) : (s.withFetchWord nbits w).ctx = s.ctx := rfl
@[simp] theorem withFetchWord_cs (nbits w : Nat) (s : State) : (s.withFetchWord nbits w).cs = s.cs := rfl
@[simp] theorem withFetchWord_ds (nbits w : Nat) (s : State) : (s.withFetchWord nbits w).ds = s.ds := rfl
@[simp] theorem withFetchWord_work (nbits w : Nat) (s : State) : (s.withFetchWord nbits w).work = s.work := rfl
@[simp] theorem withFetchWord_port (nbits w : Nat) (s : State) :
    (s.withFetchWord nbits w).port = tableRequest s.params nbits w :: s.port := rfl
@[simp] theorem withFetchWord_script (nbits w : Nat) (s : State) : (s.withFetchWord nbits w).script = s.script := rfl
@[simp] theorem withFetchWord_trace (nbits w : Nat) (s : State) : (s.withFetchWord nbits w).trace = s.trace := rfl
@[simp] theorem withFetchWord_result (nbits w : Nat) (s : State) : (s.withFetchWord nbits w).result = s.result := rfl
@[simp] theorem withFetchWord_opsEnded (nbits w : Nat) (s : State) :
    (s.withFetchWord nbits w).opsEnded = s.opsEnded := rfl

/-! ### ended -/

@[simp] theorem ended_params (r : Reply) (exs : List Exchange) (rest : List PeerAnswer) (s : State) :
    (s.ended r exs rest).params = s.params := rfl
@[simp] theorem ended_seq (r : Reply) (exs : List Exchange) (rest : List PeerAnswer) (s : State) :
    (s.ended r exs rest).seq = .idle := rfl
@[simp] theorem ended_crcDisabled (r : Reply) (exs : List Exchange) (rest : List PeerAnswer) (s : State) :
    (s.ended r exs rest).crcDisabled = s.crcDisabled := rfl
@[simp] theorem ended_ctx (r : Reply) (exs : List Exchange) (rest : List PeerAnswer) (s : State) :
    (s.ended r exs rest).ctx = s.ctx := rfl
@[simp] theorem ended_cs (r : Reply) (exs : List Exchange) (rest : List PeerAnswer) (s : State) :
    (s.ended r exs rest).cs = if exs = [] then s.cs else .deasserted := rfl
@[simp] theorem ended_ds (r : Reply) (exs : List Exchange) (rest : List PeerAnswer) (s : State) :
    (s.ended r exs rest).ds = s.ds := rfl
@[simp] theorem ended_work (r : Reply) (exs : List Exchange) (rest : List PeerAnswer) (s : State) :
    (s.ended r exs rest).work = Config.freeWork s.opsEnded := rfl
@[simp] theorem ended_port (r : Reply) (exs : List Exchange) (rest : List PeerAnswer) (s : State) :
    (s.ended r exs rest).port = s.port := rfl
@[simp] theorem ended_script (r : Reply) (exs : List Exchange) (rest : List PeerAnswer) (s : State) :
    (s.ended r exs rest).script = rest := rfl
@[simp] theorem ended_trace (r : Reply) (exs : List Exchange) (rest : List PeerAnswer) (s : State) :
    (s.ended r exs rest).trace = s.trace ++ exs.map Exchange.transfer := rfl
@[simp] theorem ended_result (r : Reply) (exs : List Exchange) (rest : List PeerAnswer) (s : State) :
    (s.ended r exs rest).result = some r := rfl
@[simp] theorem ended_opsEnded (r : Reply) (exs : List Exchange) (rest : List PeerAnswer) (s : State) :
    (s.ended r exs rest).opsEnded = s.opsEnded + 1 := rfl

/-! ### applyConState: it writes only `ds.conn_status`, and only on a defined code (R216) -/

theorem applyConState_eq (b : List Byte) (s : State) :
    applyConState b s = { s with ds := sinkAfter s (some (.wifi .respConStateChanged)) b } := by
  unfold applyConState decodeConState sinkAfter conStatusOf
  by_cases h1 : at' b 0 = s.params.csConnected
  · cases s.ds.mode <;> simp_all
  · by_cases h2 : at' b 0 = s.params.csDisconnected
    · cases s.ds.mode <;> simp_all
    · simp [h1, h2]

@[simp] theorem applyConState_params (b : List Byte) (s : State) : (applyConState b s).params = s.params := by
  rw [applyConState_eq]

@[simp] theorem applyConState_seq (b : List Byte) (s : State) : (applyConState b s).seq = s.seq := by
  rw [applyConState_eq]

@[simp] theorem applyConState_crcDisabled (b : List Byte) (s : State) : (applyConState b s).crcDisabled = s.crcDisabled := by
  rw [applyConState_eq]

@[simp] theorem applyConState_ctx (b : List Byte) (s : State) : (applyConState b s).ctx = s.ctx := by
  rw [applyConState_eq]

@[simp] theorem applyConState_cs (b : List Byte) (s : State) : (applyConState b s).cs = s.cs := by
  rw [applyConState_eq]

@[simp] theorem applyConState_work (b : List Byte) (s : State) : (applyConState b s).work = s.work := by
  rw [applyConState_eq]

@[simp] theorem applyConState_port (b : List Byte) (s : State) : (applyConState b s).port = s.port := by
  rw [applyConState_eq]

@[simp] theorem applyConState_script (b : List Byte) (s : State) : (applyConState b s).script = s.script := by
  rw [applyConState_eq]

@[simp] theorem applyConState_trace (b : List Byte) (s : State) : (applyConState b s).trace = s.trace := by
  rw [applyConState_eq]

@[simp] theorem applyConState_result (b : List Byte) (s : State) : (applyConState b s).result = s.result := by
  rw [applyConState_eq]

@[simp] theorem applyConState_opsEnded (b : List Byte) (s : State) : (applyConState b s).opsEnded = s.opsEnded := by
  rw [applyConState_eq]

end Sys2Proof.Machine
end

