-- ==== Sys2Proof/Laws/Ops.lean ====
section
/-! SUPPORT. What each shared operation of the sequencer can do: how rules chain, what one transfer does, what the link
can change (LinkStep), and how an operation is accepted and ended. -/

namespace Sys2Proof.Machine

open Sys2Proof

/-! ## Chaining -/

@[simp] theorem Op.ret_apply {α : Type} (a : α) (s : State) : Op.ret a s = (.ok a, s) := rfl
@[simp] theorem Op.raise_apply {α : Type} (e : DriverError) (s : State) : (Op.raise e : Op α) s = (.error e, s) := rfl
@[simp] theorem Op.check_apply {α : Type} (r : Except DriverError α) (s : State) : Op.check r s = (r, s) := rfl
@[simp] theorem Op.assign_apply (f : State → State) (s : State) : Op.assign f s = (.ok (), f s) := rfl
@[simp] theorem Op.read_apply {α : Type} (f : State → α) (s : State) : Op.read f s = (.ok (f s), s) := rfl
@[simp] theorem Op.note_apply (f : Work → Work) (s : State) :
    Op.note f s = (.ok (), { s with work := f s.work }) := rfl

@[simp] theorem Op.assign_seq {β : Type} (f : State → State) (n : Op β) (s : State) :
    (Op.assign f).seq n s = n (f s) := rfl
@[simp] theorem Op.ret_seq {α β : Type} (a : α) (n : Op β) (s : State) : (Op.ret a).seq n s = n s := rfl

theorem Op.bind_of_ok {α β : Type} {m : Op α} {f : α → Op β} {s s' : State} {a : α} (h : m s = (.ok a, s')) :
    m.bind f s = f a s' := by simp [Op.bind, h]

theorem Op.bind_of_error {α β : Type} {m : Op α} {f : α → Op β} {s s' : State} {e : DriverError}
    (h : m s = (.error e, s')) : m.bind f s = (.error e, s') := by simp [Op.bind, h]

theorem Op.seq_of_ok {α β : Type} {m : Op α} {n : Op β} {s s' : State} {a : α} (h : m s = (.ok a, s')) :
    m.seq n s = n s' := Op.bind_of_ok h

theorem Op.seq_of_error {α β : Type} {m : Op α} {n : Op β} {s s' : State} {e : DriverError}
    (h : m s = (.error e, s')) : m.seq n s = (.error e, s') := Op.bind_of_error h

/-- A chain raised, or both parts were reached. -/
theorem Op.bind_cases {α β : Type} {m : Op α} {f : α → Op β} {s s' : State} {r : Except DriverError β}
    (h : m.bind f s = (r, s')) :
    (∃ e, m s = (.error e, s') ∧ r = .error e) ∨ ∃ a s1, m s = (.ok a, s1) ∧ f a s1 = (r, s') := by
  rcases hm : m s with ⟨e | a, s1⟩
  · left
    rw [Op.bind_of_error hm] at h
    cases h
    exact ⟨e, rfl, rfl⟩
  · right
    rw [Op.bind_of_ok hm] at h
    exact ⟨a, s1, rfl, h⟩

/-! ## Positions -/

/-- A step of a rule answers what it answers at its position, and leaves the position of the rule (R22). -/
theorem Op.at_eq {α : Type} {k : Nat} {m : Op α} {s s' : State} {r : Except DriverError α}
    (h : m { s with seq := s.seq.into k } = (r, s')) : Op.at k m s = (r, { s' with seq := s.seq }) := by
  simp [Op.at, h]

theorem Op.at_cases {α : Type} {k : Nat} {m : Op α} {s s' : State} {r : Except DriverError α}
    (h : Op.at k m s = (r, s')) :
    ∃ s1, m { s with seq := s.seq.into k } = (r, s1) ∧ s' = { s1 with seq := s.seq } := by
  rcases hm : m { s with seq := s.seq.into k } with ⟨r1, s1⟩
  rw [Op.at_eq hm] at h
  cases h
  exact ⟨s1, rfl, rfl⟩

@[simp] theorem Op.at_assign (k : Nat) (f : State → State) (s : State) :
    Op.at k (Op.assign f) s = (.ok (), { f { s with seq := s.seq.into k } with seq := s.seq }) := rfl
@[simp] theorem Op.at_ret {α : Type} (k : Nat) (a : α) (s : State) : Op.at k (Op.ret a) s = (.ok a, s) := rfl
@[simp] theorem Op.at_check {α : Type} (k : Nat) (c : Except DriverError α) (s : State) :
    Op.at k (Op.check c) s = (c, s) := rfl

/-! ## Accepting and ending -/

theorem runOp_idle {op : HostOp} {latch : Work → Work} {m : Op Value} {s : State} (h : s.seq = .idle) :
    runOp op latch m s = .next (complete (m (accept op latch s)).1 (m (accept op latch s)).2) := by
  simp [runOp, h]

/-- An operation of the sequencer goes on exactly where it was accepted, and ends as its rule ended (R22, R260). -/
theorem runOp_eq_next {op : HostOp} {latch : Work → Work} {m : Op Value} {s t : State}
    (h : runOp op latch m s = .next t) :
    s.seq = .idle ∧ ∃ r s', m (accept op latch s) = (r, s') ∧ t = complete r s' := by
  unfold runOp at h
  cases hs : s.seq with
  | idle => rw [hs] at h; exact ⟨rfl, _, _, rfl, by simpa using h.symm⟩
  | busy o k => rw [hs] at h; simp at h

/-- A guard lets an operation run only when the port is free and the guard holds. -/
theorem guarded_eq_next {ok : Bool} {why : Refusal} {run : State → Host.Outcome State Fault Refusal} {s t : State}
    (h : guarded ok why run s = .next t) : s.seq = .idle ∧ ok = true ∧ run s = .next t := by
  unfold guarded at h
  cases hs : s.seq with
  | idle => rw [hs] at h; cases ok <;> simp_all
  | busy o k => rw [hs] at h; simp at h

theorem guarded_idle {why : Refusal} {run : State → Host.Outcome State Fault Refusal} {s : State}
    (h : s.seq = .idle) : guarded true why run s = run s := by simp [guarded, h]

/-- What the value of a pure function leaves. -/
theorem answer_eq_next {v : Value} {s t : State} (h : answer v s = .next t) :
    t = { s with result := some (.ok v) } := by simpa [answer] using h.symm

/-! ## One transfer -/

@[simp] theorem receiveImage_length (k : Nat) (rx : List Byte) (n : Nat) : (receiveImage k rx n).length = n := by
  simp [receiveImage]

/-- An answer of the right length is received as it is. -/
theorem receiveImage_self (k : Nat) (rx : List Byte) : receiveImage k rx rx.length = rx := by
  apply List.ext_getElem
  · simp
  · intro i h1 h2
    simp [receiveImage, List.getD_eq_getElem?_getD, h2]

/-- What a transfer can change: chip-select, the script, the trace, the working storage; `n` transfers at most. -/
def LinkStep (n : Nat) (s s' : State) : Prop :=
  ∃ ts : List Transfer, ts.length ≤ n ∧
    s' = { s with cs := s'.cs, script := s.script.drop ts.length, trace := s.trace ++ ts, work := s'.work }

theorem LinkStep.refl (n : Nat) (s : State) : LinkStep n s s := ⟨[], by simp, by simp⟩

theorem LinkStep.work (n : Nat) (s : State) (f : Work → Work) : LinkStep n s { s with work := f s.work } :=
  ⟨[], by simp, by simp⟩

theorem LinkStep.trans {n m : Nat} {s s1 s2 : State} (h1 : LinkStep n s s1) (h2 : LinkStep m s1 s2) :
    LinkStep (n + m) s s2 := by
  obtain ⟨t1, l1, e1⟩ := h1
  obtain ⟨t2, l2, e2⟩ := h2
  refine ⟨t1 ++ t2, by simp; omega, ?_⟩
  rw [e1] at e2
  rw [e2]
  simp [List.append_assoc]

theorem LinkStep.mono {n m : Nat} {s s' : State} (h : LinkStep n s s') (hm : n ≤ m) : LinkStep m s s' := by
  obtain ⟨ts, l, e⟩ := h
  exact ⟨ts, l.trans hm, e⟩

theorem LinkStep.params {n : Nat} {s s' : State} (h : LinkStep n s s') : s'.params = s.params := by
  obtain ⟨_, _, e⟩ := h; rw [e]
theorem LinkStep.seq {n : Nat} {s s' : State} (h : LinkStep n s s') : s'.seq = s.seq := by
  obtain ⟨_, _, e⟩ := h; rw [e]
theorem LinkStep.crcDisabled {n : Nat} {s s' : State} (h : LinkStep n s s') : s'.crcDisabled = s.crcDisabled := by
  obtain ⟨_, _, e⟩ := h; rw [e]
theorem LinkStep.ctx {n : Nat} {s s' : State} (h : LinkStep n s s') : s'.ctx = s.ctx := by
  obtain ⟨_, _, e⟩ := h; rw [e]
theorem LinkStep.ds {n : Nat} {s s' : State} (h : LinkStep n s s') : s'.ds = s.ds := by
  obtain ⟨_, _, e⟩ := h; rw [e]
theorem LinkStep.port {n : Nat} {s s' : State} (h : LinkStep n s s') : s'.port = s.port := by
  obtain ⟨_, _, e⟩ := h; rw [e]
theorem LinkStep.result {n : Nat} {s s' : State} (h : LinkStep n s s') : s'.result = s.result := by
  obtain ⟨_, _, e⟩ := h; rw [e]
theorem LinkStep.opsEnded {n : Nat} {s s' : State} (h : LinkStep n s s') : s'.opsEnded = s.opsEnded := by
  obtain ⟨_, _, e⟩ := h; rw [e]
theorem LinkStep.trace {n : Nat} {s s' : State} (h : LinkStep n s s') :
    ∃ ts, ts.length ≤ n ∧ s'.trace = s.trace ++ ts := by
  obtain ⟨ts, l, e⟩ := h; exact ⟨ts, l, by rw [e]⟩

/-- What one transfer does (R52, R53): it raises one of the two transport errors, or gives as many bytes as were sent;
either way it is one link step. -/
theorem xfer_spec (tx : List Byte) (s : State) :
    (∃ s', xfer tx s = (.error (.spi .pinState), s') ∧ LinkStep 1 s s') ∨
    (∃ s', xfer tx s = (.error (.spi .transfer), s') ∧ LinkStep 1 s s') ∨
    ∃ rx s', xfer tx s = (.ok rx, s') ∧ rx.length = tx.length ∧ LinkStep 1 s s' := by
  have link : ∀ fin c (f : Work → Work), LinkStep 1 s
      { afterXfer s tx fin c with work := f (afterXfer s tx fin c).work } := by
    intro fin c f
    exact ⟨[⟨tx, fin⟩], by simp, by simp [afterXfer, List.drop_one]⟩
  unfold xfer
  by_cases h1 : (nextAnswer s).assertOk <;> by_cases h2 : (nextAnswer s).exchangeOk <;>
    by_cases h3 : (nextAnswer s).deassertOk <;>
    simp only [h1, h2, h3, Bool.not_true, Bool.not_false, Bool.false_eq_true, if_true, if_false]
  · right; right
    exact ⟨_, _, rfl, by simp, link _ _ fun w => { w with rx := _ }⟩
  all_goals first
    | exact Or.inl ⟨_, rfl, link _ _ id⟩
    | exact Or.inr (Or.inl ⟨_, rfl, link _ _ id⟩)

/-- A transfer whose scripted answer succeeds and has the right length (R52). -/
theorem xfer_meets {s : State} {x : Exchange} {rest : List PeerAnswer} {tx : List Byte}
    (hs : s.script = x.answer :: rest) (hx : x.sends tx) :
    ∃ w, xfer tx s = (.ok x.rx,
      { s with cs := .deasserted, script := rest, trace := s.trace ++ [x.transfer], work := w }) := by
  obtain ⟨rfl, hl⟩ := hx
  refine ⟨{ s.work with txb := x.tx, rx := x.rx }, ?_⟩
  have ha : nextAnswer s = x.answer := by simp [nextAnswer, hs]
  have hr : receiveImage s.trace.length x.rx x.tx.length = x.rx := by rw [← hl, receiveImage_self]
  simp [xfer, ha, Exchange.answer, Exchange.transfer, afterXfer, hs, hr]

/-- Every transfer of a chain that only makes link steps. -/
theorem Op.bind_link {α β : Type} {m : Op α} {f : α → Op β} {s s' : State} {r : Except DriverError β} {j k : Nat}
    (h : m.bind f s = (r, s')) (hm : ∀ r1 s1, m s = (r1, s1) → LinkStep j s s1)
    (hf : ∀ a s1 r2 s2, m s = (.ok a, s1) → f a s1 = (r2, s2) → LinkStep k s1 s2) : LinkStep (j + k) s s' := by
  rcases Op.bind_cases h with ⟨e, he, _⟩ | ⟨a, s1, h1, h2⟩
  · exact (hm _ _ he).mono (by omega)
  · exact (hm _ _ h1).trans (hf _ _ _ _ h1 h2)

/-- A step of a rule makes the link steps it makes. -/
theorem Op.at_link {α : Type} {k n : Nat} {m : Op α} {s s' : State} {r : Except DriverError α}
    (h : Op.at k m s = (r, s')) (hm : ∀ s0 r1 s1, m s0 = (r1, s1) → LinkStep n s0 s1) : LinkStep n s s' := by
  obtain ⟨s1, h1, rfl⟩ := Op.at_cases h
  obtain ⟨ts, hl, e⟩ := hm _ _ _ h1
  exact ⟨ts, hl, by rw [e]⟩

theorem xfer_link {tx : List Byte} {s s' : State} {r : Except DriverError (List Byte)} (h : xfer tx s = (r, s')) :
    LinkStep 1 s s' := by
  rcases xfer_spec tx s with ⟨t, ht, l⟩ | ⟨t, ht, l⟩ | ⟨rx, t, ht, _, l⟩ <;> (rw [h] at ht; cases ht; exact l)

theorem xfer_length {tx : List Byte} {s s' : State} {rx : List Byte} (h : xfer tx s = (.ok rx, s')) :
    rx.length = tx.length := by
  rcases xfer_spec tx s with ⟨t, ht, l⟩ | ⟨t, ht, l⟩ | ⟨rx', t, ht, hl, l⟩ <;> (rw [h] at ht; cases ht)
  exact hl

theorem note_link (f : Work → Work) {s s' : State} {r : Except DriverError Unit} (h : Op.note f s = (r, s')) :
    LinkStep 0 s s' := by
  simp at h; obtain ⟨_, rfl⟩ := h; exact LinkStep.work 0 s f

theorem ret_link {α : Type} {a : α} {r : Except DriverError α} {s s' : State} (h : Op.ret a s = (r, s')) :
    LinkStep 0 s s' := by
  simp at h; obtain ⟨_, rfl⟩ := h; exact LinkStep.refl 0 s

theorem check_link {α : Type} {c r : Except DriverError α} {s s' : State} (h : Op.check c s = (r, s')) :
    LinkStep 0 s s' := by
  simp at h; obtain ⟨_, rfl⟩ := h; exact LinkStep.refl 0 s

end Sys2Proof.Machine
end

