-- ==== Sys2Proof/Laws/Access.lean ====
section
/-! SUPPORT. What the register and block accesses can do: each only makes link steps, with a bound on the transfers
(60_exceptions.md R272), and each runs along the transcript its rule gives. -/

namespace Sys2Proof.Machine

open Sys2Proof

/-! ## Frames: the parameters and the CRC mode decide every frame -/

theorem crcOn_congr {s s' : State} (hp : s'.params = s.params) (hc : s'.crcDisabled = s.crcDisabled) :
    crcOn s' = crcOn s := by simp [crcOn, hp, hc]

theorem crcLen_congr {s s' : State} (hp : s'.params = s.params) (hc : s'.crcDisabled = s.crcDisabled) :
    crcLen s' = crcLen s := by simp [crcLen, crcOn_congr hp hc]

theorem encodeFrame_congr {s s' : State} (hp : s'.params = s.params) (hc : s'.crcDisabled = s.crcDisabled)
    (op : WireOp) (a d z : Word) (k : Bool) : encodeFrame s' op a d z k = encodeFrame s op a d z k := by
  simp [encodeFrame, hp, crcOn_congr hp hc]

theorem ReadsReg_congr {s s' : State} (hp : s'.params = s.params) (hc : s'.crcDisabled = s.crcDisabled)
    {a v : Word} {exs : List Exchange} : ReadsReg s' a v exs ↔ ReadsReg s a v exs := by
  simp [ReadsReg, hp, crcLen_congr hp hc, encodeFrame_congr hp hc]

theorem WritesReg_congr {s s' : State} (hp : s'.params = s.params) (hc : s'.crcDisabled = s.crcDisabled)
    {a d : Word} {exs : List Exchange} : WritesReg s' a d exs ↔ WritesReg s a d exs := by
  simp [WritesReg, hp, crcLen_congr hp hc, encodeFrame_congr hp hc]

theorem ReadsBlock_congr {s s' : State} (hp : s'.params = s.params) (hc : s'.crcDisabled = s.crcDisabled)
    {a n : Nat} {d : List Byte} {exs : List Exchange} : ReadsBlock s' a n d exs ↔ ReadsBlock s a n d exs := by
  simp [ReadsBlock, PollsEcho, hp, encodeFrame_congr hp hc]

theorem WritesBlock_congr {s s' : State} (hp : s'.params = s.params) (hc : s'.crcDisabled = s.crcDisabled)
    {a : Nat} {b : List Byte} {exs : List Exchange} : WritesBlock s' a b exs ↔ WritesBlock s a b exs := by
  simp [WritesBlock, PollsEcho, hp, encodeFrame_congr hp hc]

theorem Finishes_congr {s s' : State} (hp : s'.params = s.params) (hc : s'.crcDisabled = s.crcDisabled)
    {exs : List Exchange} : Finishes s' exs ↔ Finishes s exs := by
  simp [Finishes, hp, ReadsReg_congr hp hc, WritesReg_congr hp hc]

/-! ## Links -/

@[simp] theorem encodeStep_apply (op : WireOp) (a d z : Word) (k : Bool) (s : State) :
    encodeStep op a d z k s = (.ok (encodeFrame s op a d z k),
      { s with work := { s.work with address := a, data := d, size := z, clockless := k } }) := rfl

theorem encodeStep_link {op : WireOp} {a d z : Word} {k : Bool} {s s' : State} {r : Except DriverError (List Byte)}
    (h : encodeStep op a d z k s = (r, s')) : LinkStep 0 s s' := by
  rw [encodeStep_apply] at h; cases h
  exact LinkStep.work 0 s fun w => { w with address := a, data := d, size := z, clockless := k }

/-- The chain a block read is at a state (R156). -/
theorem rdblk_eq (a n : Nat) (s : State) : rdblk a n s =
    ((Op.at 1 (sendCommand .dmaExtRead a n)).seq
      ((Op.at 2 (pollResponse (opc s.params .dmaExtRead) s.params.rdRspLen .readDataResponse Config.blockRetry)).bind
        fun rsp => (Op.at 3 (Op.check (readDataResponse s.params rsp))).seq (Op.at 4 (xfer (zeros s.params n))))) s := rfl

/-- The chain a block write is at a state (R160). -/
theorem wrblk_eq (a : Nat) (b : List Byte) (s : State) : wrblk a b s =
    ((Op.at 1 (sendCommand .dmaExtWrite a b.length)).seq
      ((Op.at 2 (pollResponse (opc s.params .dmaExtWrite) s.params.wrRspLen .writeDataResponse Config.blockRetry)).bind
        fun rsp => (Op.at 3 (Op.check (writeDataResponse s.params rsp))).seq
          (sendMark.seq ((Op.at 5 (xfer b)).seq (Op.at 6 (pollDone Config.blockRetry)))))) s := rfl

theorem rdreg_link {a : Word} {s s' : State} {r : Except DriverError Word} (h : rdreg a s = (r, s')) :
    LinkStep 1 s s' := by
  unfold rdreg at h
  exact Op.bind_link (j := 0) (k := 1) h (fun _ _ h => Op.at_link h fun _ _ _ => encodeStep_link) fun _ _ _ _ _ h2 =>
    Op.bind_link (j := 1) (k := 0) h2 (fun _ _ h => Op.at_link h fun _ _ _ => xfer_link) fun _ _ _ _ _ h3 =>
      Op.at_link h3 fun _ _ _ => check_link

theorem wrreg_link {a d : Word} {s s' : State} {r : Except DriverError Unit} (h : wrreg a d s = (r, s')) :
    LinkStep 1 s s' := by
  unfold wrreg at h
  exact Op.bind_link (j := 0) (k := 1) h (fun _ _ h => Op.at_link h fun _ _ _ => encodeStep_link) fun _ _ _ _ _ h2 =>
    Op.bind_link (j := 1) (k := 0) h2 (fun _ _ h => Op.at_link h fun _ _ _ => xfer_link) fun _ _ _ _ _ h3 =>
      Op.at_link h3 fun _ _ _ => check_link

theorem pollResponse_link {echo : Byte} {n : Nat} {site : PollSite} {left : Nat} {s s' : State}
    {r : Except DriverError (List Byte)} (h : pollResponse echo n site left s = (r, s')) : LinkStep left s s' := by
  induction left generalizing s s' r with
  | zero => simp [pollResponse] at h; obtain ⟨_, rfl⟩ := h; exact LinkStep.refl 0 s
  | succ k ih =>
    unfold pollResponse at h
    refine (Op.bind_link (j := 0) (k := 1 + k) h (fun _ _ => note_link _) fun _ _ _ _ _ h2 => ?_).mono (by omega)
    refine Op.bind_link (j := 1) (k := k) h2 (fun _ _ => xfer_link) fun _ _ _ _ _ h3 => ?_
    split at h3
    · cases h3; exact LinkStep.refl _ _
    · exact ih h3

theorem pollDone_link {left : Nat} {s s' : State} {r : Except DriverError Unit} (h : pollDone left s = (r, s')) :
    LinkStep left s s' := by
  induction left generalizing s s' r with
  | zero => simp [pollDone] at h; obtain ⟨_, rfl⟩ := h; exact LinkStep.refl 0 s
  | succ k ih =>
    unfold pollDone at h
    refine (Op.bind_link (j := 0) (k := 1 + k) h (fun _ _ => note_link _) fun _ _ _ _ _ h2 => ?_).mono (by omega)
    refine Op.bind_link (j := 1) (k := k) h2 (fun _ _ => xfer_link) fun _ _ _ _ _ h3 => ?_
    split at h3
    · cases h3; exact LinkStep.refl _ _
    · exact ih h3

theorem sendCommand_link {op : WireOp} {a n : Nat} {s s' : State} {r : Except DriverError Unit}
    (h : sendCommand op a n s = (r, s')) : LinkStep 1 s s' := by
  unfold sendCommand at h
  exact Op.bind_link (j := 0) (k := 1) h (fun _ _ => note_link _) fun _ _ _ _ _ h =>
    Op.bind_link (j := 0) (k := 1) h (fun _ _ => encodeStep_link) fun _ _ _ _ _ h =>
      Op.bind_link (j := 1) (k := 0) h (fun _ _ => xfer_link) fun _ _ _ _ _ => ret_link

theorem sendMark_link {s s' : State} {r : Except DriverError Unit} (h : sendMark s = (r, s')) : LinkStep 1 s s' := by
  unfold sendMark at h
  exact Op.bind_link (j := 1) (k := 0) h (fun _ _ h => Op.at_link h fun _ _ _ => xfer_link) fun _ _ _ _ _ => ret_link

/-- RDBLK: at most 12 transfers (R272). -/
theorem rdblk_link {a n : Nat} {s s' : State} {r : Except DriverError (List Byte)} (h : rdblk a n s = (r, s')) :
    LinkStep 12 s s' := by
  unfold rdblk at h
  refine Op.bind_link (j := 1) (k := 11) h (fun _ _ h => Op.at_link h fun _ _ _ => sendCommand_link)
    fun _ _ _ _ _ h => ?_
  refine Op.bind_link (j := 10) (k := 1) h (fun _ _ h => Op.at_link h fun _ _ _ => pollResponse_link)
    fun _ _ _ _ _ h => ?_
  exact Op.bind_link (j := 0) (k := 1) h (fun _ _ h => Op.at_link h fun _ _ _ => check_link) fun _ _ _ _ _ h =>
    Op.at_link h fun _ _ _ => xfer_link

/-- WRBLK: at most 23 transfers (R272). -/
theorem wrblk_link {a : Nat} {b : List Byte} {s s' : State} {r : Except DriverError Unit}
    (h : wrblk a b s = (r, s')) : LinkStep 23 s s' := by
  unfold wrblk at h
  refine Op.bind_link (j := 1) (k := 22) h (fun _ _ h => Op.at_link h fun _ _ _ => sendCommand_link)
    fun _ _ _ _ _ h => ?_
  refine Op.bind_link (j := 10) (k := 12) h (fun _ _ h => Op.at_link h fun _ _ _ => pollResponse_link)
    fun _ _ _ _ _ h => ?_
  refine Op.bind_link (j := 0) (k := 12) h (fun _ _ h => Op.at_link h fun _ _ _ => check_link) fun _ _ _ _ _ h => ?_
  refine Op.bind_link (j := 1) (k := 11) h (fun _ _ => sendMark_link) fun _ _ _ _ _ h => ?_
  exact Op.bind_link (j := 1) (k := 10) h (fun _ _ h => Op.at_link h fun _ _ _ => xfer_link) fun _ _ _ _ _ h =>
    Op.at_link h fun _ _ _ => pollDone_link

/-- RDBLK gives exactly `count` bytes (R159). -/
theorem rdblk_length {a n : Nat} {s s' : State} {d : List Byte} (h : rdblk a n s = (.ok d, s')) : d.length = n := by
  unfold rdblk at h
  rcases Op.bind_cases h with ⟨_, _, h⟩ | ⟨_, _, _, h⟩
  · cases h
  rcases Op.bind_cases h with ⟨_, _, h⟩ | ⟨_, _, _, h⟩
  · cases h
  rcases Op.bind_cases h with ⟨_, _, h⟩ | ⟨_, _, _, h⟩
  · cases h
  obtain ⟨_, h, _⟩ := Op.at_cases h
  simpa [zeros] using xfer_length h

/-! ## Transcripts -/

/-- The state after the exchanges `exs` of a rule inside an operation. -/
def State.linked (s : State) (exs : List Exchange) (rest : List PeerAnswer) (w : Work) : State :=
  { s with
    cs := if exs = [] then s.cs else .deasserted
    script := rest
    trace := s.trace ++ exs.map Exchange.transfer
    work := w }

@[simp] theorem linked_params (s : State) (e r w) : (s.linked e r w).params = s.params := rfl
@[simp] theorem linked_seq (s : State) (e r w) : (s.linked e r w).seq = s.seq := rfl
@[simp] theorem linked_crcDisabled (s : State) (e r w) : (s.linked e r w).crcDisabled = s.crcDisabled := rfl
@[simp] theorem linked_ctx (s : State) (e r w) : (s.linked e r w).ctx = s.ctx := rfl
@[simp] theorem linked_ds (s : State) (e r w) : (s.linked e r w).ds = s.ds := rfl
@[simp] theorem linked_port (s : State) (e r w) : (s.linked e r w).port = s.port := rfl
@[simp] theorem linked_result (s : State) (e r w) : (s.linked e r w).result = s.result := rfl
@[simp] theorem linked_script (s : State) (e r w) : (s.linked e r w).script = r := rfl
@[simp] theorem linked_trace (s : State) (e r w) :
    (s.linked e r w).trace = s.trace ++ e.map Exchange.transfer := rfl

/-- A rule runs along a transcript: with the peer answering `exs` it returns `a`, having made exactly these transfers.
-/
def Runs {α : Type} (m : Op α) (s : State) (a : α) (exs : List Exchange) : Prop :=
  ∀ rest, s.meets exs rest → ∃ w, m s = (.ok a, s.linked exs rest w)

theorem meets_append {s : State} {e1 e2 : List Exchange} {rest : List PeerAnswer} (h : s.meets (e1 ++ e2) rest) :
    s.meets e1 (e2.map Exchange.answer ++ rest) := by
  simpa [State.meets] using h

theorem linked_meets (s : State) (e1 e2 : List Exchange) (rest : List PeerAnswer) (w : Work) :
    (s.linked e1 (e2.map Exchange.answer ++ rest) w).meets e2 rest := rfl

theorem linked_linked (s : State) (e1 e2 : List Exchange) (r1 r2 : List PeerAnswer) (w1 w2 : Work) :
    (s.linked e1 r1 w1).linked e2 r2 w2 = s.linked (e1 ++ e2) r2 w2 := by
  rcases e1 with _ | ⟨x, e1⟩ <;> rcases e2 with _ | ⟨y, e2⟩ <;> simp [State.linked]

/-- Transcripts chain. -/
theorem Runs.bind {α β : Type} {m : Op α} {f : α → Op β} {s : State} {a : α} {b : β} {e1 e2 : List Exchange}
    (h1 : Runs m s a e1) (h2 : ∀ r w, Runs (f a) (s.linked e1 r w) b e2) : Runs (m.bind f) s b (e1 ++ e2) := by
  intro rest hm
  obtain ⟨w1, hw1⟩ := h1 _ (meets_append hm)
  obtain ⟨w2, hw2⟩ := h2 _ w1 rest (linked_meets s e1 e2 rest w1)
  exact ⟨w2, by rw [Op.bind_of_ok hw1, hw2, linked_linked]⟩

theorem Runs.seq {α β : Type} {m : Op α} {n : Op β} {s : State} {a : α} {b : β} {e1 e2 : List Exchange}
    (h1 : Runs m s a e1) (h2 : ∀ r w, Runs n (s.linked e1 r w) b e2) : Runs (m.seq n) s b (e1 ++ e2) :=
  Runs.bind h1 h2

/-- A rule that reads parameters from the state is, at that state, the chain it builds. -/
theorem Runs.of_eq {α : Type} {m m' : Op α} {s : State} {a : α} {exs : List Exchange} (h : m s = m' s)
    (hr : Runs m' s a exs) : Runs m s a exs := by
  intro rest hm
  obtain ⟨w, hw⟩ := hr rest hm
  exact ⟨w, by rw [h, hw]⟩

/-- A step of a rule runs along the transcript it runs along at its position. -/
theorem Runs.at {α : Type} {k : Nat} {m : Op α} {s : State} {a : α} {exs : List Exchange}
    (h : Runs m { s with seq := s.seq.into k } a exs) : Runs (Op.at k m) s a exs := by
  intro rest hm
  obtain ⟨w, hw⟩ := h rest hm
  exact ⟨w, Op.at_eq hw⟩

theorem Runs.ret {α : Type} (a : α) (s : State) : Runs (Op.ret a) s a [] := by
  intro rest hm
  have hr : s.script = rest := by simpa [State.meets] using hm
  exact ⟨s.work, by simp [State.linked, ← hr]⟩

/-- A rule that returns at once and only touches the working storage. -/
theorem Runs.of_apply {α : Type} {m : Op α} {s : State} {a : α} {f : Work → Work}
    (h : m s = (.ok a, { s with work := f s.work })) : Runs m s a [] := by
  intro rest hm
  have hr : s.script = rest := by simpa [State.meets] using hm
  exact ⟨f s.work, by simp [h, State.linked, ← hr]⟩

theorem Runs.note (f : Work → Work) (s : State) : Runs (Op.note f) s () [] := Runs.of_apply rfl

theorem Runs.check {α : Type} {c : Except DriverError α} {a : α} (h : c = .ok a) (s : State) :
    Runs (Op.check c) s a [] := by subst h; exact Runs.ret a s

theorem Runs.encodeStep (op : WireOp) (a d z : Word) (k : Bool) (s : State) :
    Runs (encodeStep op a d z k) s (encodeFrame s op a d z k) [] :=
  Runs.of_apply (f := fun w => { w with address := a, data := d, size := z, clockless := k }) rfl

theorem Runs.xfer {s : State} {x : Exchange} {tx : List Byte} (hx : x.sends tx) : Runs (xfer tx) s x.rx [x] := by
  intro rest hm
  obtain ⟨w, hw⟩ := xfer_meets (rest := rest) (by simpa [State.meets] using hm) hx
  exact ⟨w, by rw [hw]; simp [State.linked]⟩

/-- Status code 0 is NoError (R93). -/
theorem decodeStatus_zero {p : Params} {b : Byte} (h : b &&& p.statusMask = 0) : decodeStatus p b = .noError := by
  simp [decodeStatus, h]

theorem rdreg_runs {s : State} {a v : Word} {exs : List Exchange} (h : ReadsReg s a v exs) :
    Runs (rdreg a) s v exs := by
  obtain ⟨x, rfl, op, clk, hop, hx, he, hst, hmk, rfl⟩ := h
  have ho : readOpFor a = op ∧ decide (op = .internalRead) = clk ∧ lenOf op = 4 := by
    rcases hop with ⟨h, rfl, rfl⟩ | ⟨h, rfl, rfl⟩
    · exact ⟨by simp [readOpFor, Config.rdClocklessMax, h], by simp, rfl⟩
    · exact ⟨by simp [readOpFor, Config.rdClocklessMax, Nat.not_le.mpr h], by simp, rfl⟩
  obtain ⟨h1, h2, h3⟩ := ho
  have key : readResponse s.params op (4 + crcLen s) x.rx = .ok (le32 (at' x.rx (7 + crcLen s))
      (at' x.rx (8 + crcLen s)) (at' x.rx (9 + crcLen s)) (at' x.rx (10 + crcLen s))) := by
    have e : ∀ k, 4 + crcLen s + k = (4 + k) + crcLen s := fun k => by omega
    simp only [readResponse, e, opc, Nat.reduceAdd]
    rw [if_pos ⟨he, decodeStatus_zero hst, by simpa [isMarker] using hmk⟩]
  refine Runs.of_eq (m' := (Op.at 1 (encodeStep op a 0 0 clk)).bind fun cmd =>
    (Op.at 2 (xfer (cmd ++ zeros s.params s.params.regRspRd))).bind fun rx =>
      Op.at 3 (Op.check (readResponse s.params op (4 + crcLen s) rx))) (by simp only [rdreg, h1, h2, h3]) ?_
  refine Runs.bind (e2 := [x] ++ []) (Runs.encodeStep op a 0 0 clk _).at fun _ _ => ?_
  exact Runs.bind (Runs.xfer hx).at fun _ _ => (Runs.check key _).at

theorem wrreg_runs {s : State} {a d : Word} {exs : List Exchange} (h : WritesReg s a d exs) :
    Runs (wrreg a d) s () exs := by
  obtain ⟨x, rfl, op, clk, L, hop, hx, he, hst⟩ := h
  have ho : writeOpFor a = op ∧ decide (op = .internalWrite) = clk ∧ lenOf op = L := by
    rcases hop with ⟨h, rfl, rfl, rfl⟩ | ⟨h, rfl, rfl, rfl⟩
    · exact ⟨by simp [writeOpFor, Config.wrClocklessMax, h], by simp, rfl⟩
    · exact ⟨by simp [writeOpFor, Config.wrClocklessMax, Nat.not_le.mpr h], by simp, rfl⟩
  obtain ⟨h1, h2, h3⟩ := ho
  have key : writeResponse s.params op (L + crcLen s) x.rx = .ok () := by
    have e : L + crcLen s + 1 = L + 1 + crcLen s := by omega
    simp only [writeResponse, e, opc]
    rw [if_pos ⟨he, hst⟩]
  refine Runs.of_eq (m' := (Op.at 1 (encodeStep op a d 0 clk)).bind fun cmd =>
    (Op.at 2 (xfer (cmd ++ zeros s.params s.params.regRspWr))).bind fun rx =>
      Op.at 3 (Op.check (writeResponse s.params op (L + crcLen s) rx))) (by simp only [wrreg, h1, h2, h3]) ?_
  refine Runs.bind (e2 := [x] ++ []) (Runs.encodeStep op a d 0 clk _).at fun _ _ => ?_
  exact Runs.bind (Runs.xfer hx).at fun _ _ => (Runs.check key _).at

/-- The response poll finds its echo after the misses (R157). -/
theorem pollResponse_runs {s : State} {p : Params} (hp : s.params = p) {echo : Byte} {n : Nat} {site : PollSite}
    {misses : List Exchange} {hit : Exchange} {left : Nat} (hl : misses.length < left)
    (hm : ∀ m ∈ misses, m.sends (zeros p n) ∧ at' m.rx 0 ≠ echo)
    (hh : hit.sends (zeros p n)) (he : at' hit.rx 0 = echo) :
    Runs (pollResponse echo n site left) s hit.rx (misses ++ [hit]) := by
  induction left generalizing s misses with
  | zero => omega
  | succ k ih =>
    subst hp
    refine Runs.of_eq (m' := (Op.note fun w => { w with respAttempt := Config.blockRetry - k }).seq
      ((xfer (zeros s.params n)).bind fun rsp =>
        if at' rsp 0 = echo then Op.ret rsp else pollResponse echo n site k)) rfl ?_
    rcases misses with _ | ⟨m, ms⟩
    · refine Runs.seq (e1 := []) (e2 := [hit] ++ []) (Runs.note _ s) fun _ _ => ?_
      refine Runs.bind (Runs.xfer hh) fun _ _ => ?_
      rw [if_pos he]
      exact Runs.ret _ _
    · obtain ⟨h1, h2⟩ := hm m (by simp)
      refine Runs.seq (e1 := []) (e2 := [m] ++ (ms ++ [hit])) (Runs.note _ s) fun _ _ => ?_
      refine Runs.bind (Runs.xfer h1) fun _ _ => ?_
      rw [if_neg h2]
      exact ih (by rfl) (by simpa using hl) (fun x hx => hm x (by simp [hx]))

/-- The completion poll finds WRITE_DONE after the misses (R163). -/
theorem pollDone_runs {s : State} {p : Params} (hp : s.params = p) {waits : List Exchange} {last : Exchange} {left : Nat}
    (hl : waits.length < left) (hm : ∀ m ∈ waits, m.sends (zeros p 1) ∧ at' m.rx 0 ≠ 0xC3)
    (hh : last.sends (zeros p 1)) (he : at' last.rx 0 = 0xC3) :
    Runs (pollDone left) s () (waits ++ [last]) := by
  induction left generalizing s waits with
  | zero => omega
  | succ k ih =>
    subst hp
    refine Runs.of_eq (m' := (Op.note fun w => { w with doneAttempt := Config.blockRetry - k }).seq
      ((xfer (zeros s.params 1)).bind fun r =>
        if isWriteDone (at' r 0) = true then Op.ret () else pollDone k)) rfl ?_
    rcases waits with _ | ⟨m, ms⟩
    · refine Runs.seq (e1 := []) (e2 := [last] ++ []) (Runs.note _ s) fun _ _ => ?_
      refine Runs.bind (Runs.xfer hh) fun _ _ => ?_
      rw [if_pos (by simp [isWriteDone, Config.writeDone, he])]
      exact Runs.ret _ _
    · obtain ⟨h1, h2⟩ := hm m (by simp)
      refine Runs.seq (e1 := []) (e2 := [m] ++ (ms ++ [last])) (Runs.note _ s) fun _ _ => ?_
      refine Runs.bind (Runs.xfer h1) fun _ _ => ?_
      rw [if_neg (by simpa [isWriteDone, Config.writeDone] using h2)]
      exact ih (by rfl) (by simpa using hl) (fun x hx => hm x (by simp [hx]))

/-- The command of a block access goes out in a transfer of its own (R156, R160). -/
theorem sendCommand_runs {op : WireOp} {a n : Nat} {s : State} {x : Exchange}
    (hx : x.sends (encodeFrame s op (BitVec.ofNat 32 a) 0 (BitVec.ofNat 32 n) false)) :
    Runs (sendCommand op a n) s () [x] := by
  refine Runs.seq (e1 := []) (e2 := [] ++ ([x] ++ [])) (Runs.note _ s) fun _ _ => ?_
  refine Runs.bind (Runs.encodeStep _ _ _ _ _ _) fun _ _ => ?_
  exact Runs.seq (Runs.xfer hx) fun _ _ => Runs.ret _ _

theorem sendMark_runs {s : State} {x : Exchange} (hx : x.sends [0xF3]) : Runs sendMark s () [x] :=
  Runs.seq (e2 := []) (Runs.xfer hx).at fun _ _ => Runs.ret _ _

theorem rdblk_runs {s : State} {a n : Nat} {d : List Byte} {exs : List Exchange} (h : ReadsBlock s a n d exs) :
    Runs (rdblk a n) s d exs := by
  obtain ⟨cmd, misses, hit, dat, rfl, hc, ⟨hl, hm, hh, he⟩, hst, hmk, hd, rfl⟩ := h
  have hchk : readDataResponse s.params hit.rx = .ok () := by
    unfold readDataResponse
    rw [if_pos ⟨decodeStatus_zero hst, by simpa [isMarker] using hmk⟩]
  have e : cmd :: (misses ++ [hit, dat]) = [cmd] ++ ((misses ++ [hit]) ++ ([] ++ [dat])) := by simp
  rw [e]
  refine Runs.of_eq (rdblk_eq a n s) ?_
  refine Runs.seq (sendCommand_runs (s := { s with seq := s.seq.into 1 }) hc).at fun _ _ => ?_
  refine Runs.bind (pollResponse_runs (p := s.params) (by rfl) hl hm hh he).at fun _ _ => ?_
  exact Runs.seq (Runs.check hchk _).at fun _ _ => (Runs.xfer hd).at

theorem wrblk_runs {s : State} {a : Nat} {b : List Byte} {exs : List Exchange} (h : WritesBlock s a b exs) :
    Runs (wrblk a b) s () exs := by
  obtain ⟨cmd, misses, hit, mark, payload, waits, last, rfl, hc, ⟨hl, hm, hh, he⟩, hst, hmk, hp, hwl, hw, hlast, hdone⟩ := h
  have hchk : writeDataResponse s.params hit.rx = .ok () := by simp [writeDataResponse, hst]
  have e : cmd :: (misses ++ hit :: mark :: payload :: (waits ++ [last])) =
      [cmd] ++ ((misses ++ [hit]) ++ ([] ++ ([mark] ++ ([payload] ++ (waits ++ [last]))))) := by simp
  rw [e]
  refine Runs.of_eq (wrblk_eq a b s) ?_
  refine Runs.seq (sendCommand_runs (s := { s with seq := s.seq.into 1 }) hc).at fun _ _ => ?_
  refine Runs.bind (pollResponse_runs (p := s.params) (by rfl) hl hm hh he).at fun _ _ => ?_
  refine Runs.seq (Runs.check hchk _).at fun _ _ => ?_
  refine Runs.seq (sendMark_runs hmk) fun _ _ => ?_
  exact Runs.seq (Runs.xfer hp).at fun _ _ => (pollDone_runs (p := s.params) (by rfl) hwl hw hlast hdone).at

/-! ## Ends -/

theorem complete_linked (s : State) (op : HostOp) (latch : Work → Work) (v : Value) (exs : List Exchange)
    (rest : List PeerAnswer) (w : Work) :
    complete (.ok v) ((accept op latch s).linked exs rest w) = s.ended (.ok v) exs rest := by
  simp [complete, accept, State.linked, State.ended, replyOf]

theorem accept_meets {s : State} {op : HostOp} {latch : Work → Work} {exs : List Exchange} {rest : List PeerAnswer} :
    (accept op latch s).meets exs rest ↔ s.meets exs rest := Iff.rfl

/-- An operation whose rule runs along a transcript ends along it. -/
theorem runOp_runs {op : HostOp} {latch : Work → Work} {m : Op Value} {s : State} {v : Value} {exs : List Exchange}
    {rest : List PeerAnswer} (hs : s.seq = .idle) (h : Runs m (accept op latch s) v exs) (hm : s.meets exs rest) :
    runOp op latch m s = .next (s.ended (.ok v) exs rest) := by
  obtain ⟨w, hw⟩ := h rest (accept_meets.mpr hm)
  rw [runOp_idle hs, hw, complete_linked]

end Sys2Proof.Machine
end

