-- ==== Sys2Proof/Laws/Bytes.lean ====
section
/-! SUPPORT. Bytes and fields: taking a value apart and putting it together again (R10, R56 to R58, R97). -/

namespace Sys2Proof

@[simp] theorem getLsbD_byteAt {w : Nat} (v : BitVec w) (k i : Nat) :
    (byteAt v k).getLsbD i = (decide (i < 8) && v.getLsbD (8 * k + i)) := by
  simp [byteAt]

theorem be16_bytes (v : BitVec 16) : be16 (byteAt v 1) (byteAt v 0) = v := by
  apply BitVec.eq_of_getLsbD_eq
  intro i hi
  simp only [be16, BitVec.getLsbD_append, getLsbD_byteAt]
  by_cases h0 : i < 8
  · simp [h0]
  · have : i - 8 < 8 := by omega
    have e : 8 * 1 + (i - 8) = i := by omega
    simp [h0, this, e]

theorem be24_bytes (v : BitVec 24) : be24 (byteAt v 2) (byteAt v 1) (byteAt v 0) = v := by
  apply BitVec.eq_of_getLsbD_eq
  intro i hi
  simp only [be24, BitVec.getLsbD_append, getLsbD_byteAt]
  by_cases h0 : i < 8
  · simp [h0]
  · by_cases h1 : i - 8 < 8
    · have e : 8 * 1 + (i - 8) = i := by omega
      simp [h0, h1, e]
    · have h2 : i - 8 - 8 < 8 := by omega
      have e : 8 * 2 + (i - 8 - 8) = i := by omega
      simp [h0, h1, h2, e]

theorem be32_bytes (v : Word) : be32 (byteAt v 3) (byteAt v 2) (byteAt v 1) (byteAt v 0) = v := by
  apply BitVec.eq_of_getLsbD_eq
  intro i hi
  simp only [be32, BitVec.getLsbD_append, getLsbD_byteAt]
  by_cases h0 : i < 8
  · simp [h0]
  · by_cases h1 : i - 8 < 8
    · have e : 8 * 1 + (i - 8) = i := by omega
      simp [h0, h1, e]
    · by_cases h2 : i - 8 - 8 < 8
      · have e : 8 * 2 + (i - 8 - 8) = i := by omega
        simp [h0, h1, h2, e]
      · have h3 : i - 8 - 8 - 8 < 8 := by omega
        have e : 8 * 3 + (i - 8 - 8 - 8) = i := by omega
        simp [h0, h1, h2, h3, e]

theorem le32_bytes (v : Word) : le32 (byteAt v 0) (byteAt v 1) (byteAt v 2) (byteAt v 3) = v := be32_bytes v

theorem byteAt_be32 (b3 b2 b1 b0 : Byte) :
    byteAt (be32 b3 b2 b1 b0) 3 = b3 ∧ byteAt (be32 b3 b2 b1 b0) 2 = b2 ∧ byteAt (be32 b3 b2 b1 b0) 1 = b1 ∧
      byteAt (be32 b3 b2 b1 b0) 0 = b0 := by
  refine ⟨?_, ?_, ?_, ?_⟩ <;>
  · apply BitVec.eq_of_getLsbD_eq
    intro i hi
    have h24 : ¬ 8 * 3 + i < 8 ∧ ¬ 8 * 3 + i - 8 < 8 ∧ ¬ 8 * 3 + i - 8 - 8 < 8 ∧ 8 * 3 + i - 8 - 8 - 8 = i := by omega
    have h16 : ¬ 8 * 2 + i < 8 ∧ ¬ 8 * 2 + i - 8 < 8 ∧ 8 * 2 + i - 8 - 8 = i := by omega
    have h8 : ¬ 8 * 1 + i < 8 ∧ 8 * 1 + i - 8 = i := by omega
    simp only [getLsbD_byteAt, be32, BitVec.getLsbD_append]
    simp [h24, h16, h8, hi]

/-- Reading a word back from its bytes. -/
@[simp] theorem readWord_bytes32 (v : Word) (r : List Byte) : readWord (bytes32 v ++ r) = .ok (v, r) := by
  simp [bytes32, readWord, be32_bytes]

@[simp] theorem onRead_ok {α β : Type} (a : α) (r : List Byte) (f : α → List Byte → Reads β) :
    onRead (.ok (a, r)) f = f a r := rfl

@[simp] theorem bytes32_length (v : Word) : (bytes32 v).length = 4 := rfl
@[simp] theorem lengthBytes_length (n : Nat) : (lengthBytes n).length = 4 := rfl
@[simp] theorem seqBytes_length (b : List Byte) : (seqBytes b).length = 4 + b.length := by simp [seqBytes]
@[simp] theorem headerOperand_length (h : HifHeader) : (headerOperand h).length = 4 := rfl

/-- Reading a length back. -/
theorem readNat_lengthBytes {n : Nat} (h : n < 2 ^ 32) (r : List Byte) :
    readNat (lengthBytes n ++ r) = .ok (n, r) := by
  simp [readNat, lengthBytes]
  simpa using h

/-- Reading a byte sequence back. -/
theorem readBytes_seqBytes {b : List Byte} (h : b.length < 2 ^ 32) (r : List Byte) :
    readBytes (seqBytes b ++ r) = .ok (b, r) := by
  unfold readBytes seqBytes
  rw [List.append_assoc, readNat_lengthBytes h]
  simp

/-- Reading a header operand back. -/
@[simp] theorem readHeader_headerOperand (h : HifHeader) (r : List Byte) :
    readHeader (headerOperand h ++ r) = .ok (h, r) := by
  simp [headerOperand, bytes16, readHeader, be16_bytes]

/-- Reading a truth value back. -/
@[simp] theorem readBool_boolByte (b : Bool) (r : List Byte) : readBool (boolByte b :: r) = .ok (b, r) := by
  cases b <;> simp [readBool, readByte, boolByte]

/-- Reading an opcode operand back. -/
@[simp] theorem readOp_number (op : WireOp) (r : List Byte) : readOp (op.number :: r) = .ok (op, r) := by
  cases op <;> rfl

end Sys2Proof
end

