-- ==== Sys2Proof/Laws/Engine.lean ====
section
/-! SUPPORT. What the rules of the HIF engine can do: HFIN, HRECV, the busy poll, HSEND, the handlers. -/

namespace Sys2Proof.Machine

open Sys2Proof

/-! ## Links -/

/-- HFIN sets the flag first; the rest is one chain (R210). -/
theorem hfin_eq (s : State) : hfin s = ((Op.at 2 (rdreg s.params.regRcvCtrl0)).bind fun reg =>
    Op.at 3 (wrreg s.params.regRcvCtrl0 (setBit reg Config.rxDoneBit))) (setReadDone true s) := rfl

/-- HFIN: the flag is set first, then at most two transfers (R210). -/
theorem hfin_link {s s' : State} {r : Except DriverError Unit} (h : hfin s = (r, s')) :
    LinkStep 2 (setReadDone true s) s' := by
  rw [hfin_eq] at h
  exact Op.bind_link (j := 1) (k := 1) h (fun _ _ h => Op.at_link h fun _ _ _ => rdreg_link) fun _ _ _ _ _ h2 =>
    Op.at_link h2 fun _ _ _ => wrreg_link

/-- HFIN as a step of another rule. -/
theorem hfin_at_link {k : Nat} {m : Op Unit} {s s' : State} {r : Except DriverError Unit}
    (hm : ∀ r1 s1, m { s with seq := s.seq.into k } = (r1, s1) →
      LinkStep 2 (setReadDone true { s with seq := s.seq.into k }) s1)
    (h : Op.at k m s = (r, s')) : LinkStep 2 (setReadDone true s) s' := by
  obtain ⟨s1, h1, rfl⟩ := Op.at_cases h
  obtain ⟨ts, hl, e⟩ := hm _ _ h1
  exact ⟨ts, hl, by rw [e]; rfl⟩

/-- Step 4 of HRECV: nothing, or HFIN (R208). -/
theorem finishAtEnd_cases {a n : Nat} {s s' : State} {r : Except DriverError Unit} (h : finishAtEnd a n s = (r, s')) :
    (s.ctx.readAddr.toNat + s.ctx.readSize.toNat ≤ a + n ∧ hfin s = (r, s')) ∨
    (¬ s.ctx.readAddr.toNat + s.ctx.readSize.toNat ≤ a + n ∧ r = .ok () ∧ s' = s) := by
  unfold finishAtEnd at h
  split at h
  · exact Or.inl ⟨‹_›, h⟩
  · cases h; exact Or.inr ⟨‹_›, rfl, rfl⟩

/-- HRECV: `ctx.read_done` stays or becomes true; at most 14 transfers (R204, R272); on success exactly `n` bytes. -/
theorem hrecv_spec {a n : Nat} {s s' : State} {r : Except DriverError (List Byte)} (h : hrecv a n s = (r, s')) :
    (LinkStep 12 s s' ∨ LinkStep 14 (setReadDone true s) s') ∧ ∀ d, r = .ok d → d.length = n := by
  unfold hrecv at h
  rcases Op.bind_cases h with ⟨e, h1, rfl⟩ | ⟨_, s1, h1, h⟩
  · exact ⟨Or.inl ((Op.at_link h1 fun _ _ _ => check_link).mono (by omega)), by simp⟩
  have e1 : s1 = s := by simp at h1; exact h1.2.symm
  subst e1
  rcases Op.bind_cases h with ⟨e, h1', rfl⟩ | ⟨_, s2, h1', h'⟩
  · exact ⟨Or.inl ((Op.at_link h1' fun _ _ _ => check_link).mono (by omega)), by simp⟩
  have e2 : s2 = s1 := by simp at h1'; exact h1'.2.symm
  subst e2
  rcases Op.bind_cases h' with ⟨e, h2, rfl⟩ | ⟨d, s3, h2, h3⟩
  · exact ⟨Or.inl (Op.at_link h2 fun _ _ _ => rdblk_link), by simp⟩
  have l2 := Op.at_link h2 fun _ _ _ => rdblk_link
  have hl : d.length = n := by obtain ⟨_, h2, _⟩ := Op.at_cases h2; exact rdblk_length h2
  have l3 : ∀ r s4, Op.at 4 (finishAtEnd a n) s3 = (r, s4) → LinkStep 12 s2 s4 ∨ LinkStep 14 (setReadDone true s2) s4 := by
    intro r s4 h4
    obtain ⟨ts, ht, e⟩ := l2
    have l : LinkStep 12 (setReadDone true s2) (setReadDone true s3) := ⟨ts, ht, by rw [e]; rfl⟩
    by_cases hc : s3.ctx.readAddr.toNat + s3.ctx.readSize.toNat ≤ a + n
    · refine Or.inr (l.trans (hfin_at_link (fun r1 s1 h1 => ?_) h4))
      rcases finishAtEnd_cases h1 with ⟨_, h1⟩ | ⟨h1, _⟩
      · exact hfin_link h1
      · exact absurd hc h1
    · obtain ⟨s5, h5, rfl⟩ := Op.at_cases h4
      rcases finishAtEnd_cases h5 with ⟨h1, _⟩ | ⟨_, _, rfl⟩
      · exact absurd h1 hc
      · exact Or.inl ⟨ts, ht, e⟩
  rcases Op.bind_cases h3 with ⟨e, h4, rfl⟩ | ⟨_, s4, h4, h5⟩
  · exact ⟨l3 _ _ h4, by simp⟩
  · simp at h5
    obtain ⟨rfl, rfl⟩ := h5
    exact ⟨l3 _ _ h4, by simpa using hl⟩

theorem pollBusy_link {left : Nat} {s s' : State} {r : Except DriverError Unit} (h : pollBusy left s = (r, s')) :
    LinkStep left s s' := by
  induction left generalizing s s' r with
  | zero => simp [pollBusy] at h; obtain ⟨_, rfl⟩ := h; exact LinkStep.refl 0 s
  | succ k ih =>
    unfold pollBusy at h
    refine (Op.bind_link (j := 0) (k := 1 + k) h (fun _ _ => note_link _) fun _ _ _ _ _ h2 => ?_).mono (by omega)
    refine Op.bind_link (j := 1) (k := k) h2 (fun _ _ => rdreg_link) fun _ _ _ _ _ h3 => ?_
    split at h3
    · cases h3; exact LinkStep.refl _ _
    · exact ih h3

theorem wrblkIfAny_link {a : Nat} {b : List Byte} {s s' : State} {r : Except DriverError Unit}
    (h : wrblkIfAny a b s = (r, s')) : LinkStep 23 s s' := by
  unfold wrblkIfAny at h
  split at h
  · cases h; exact LinkStep.refl _ _
  · exact wrblk_link h

/-- HSEND: at most 173 transfers (R272); nothing but the link is touched (R190). -/
theorem hsend_link {hd : HifHeader} {d c : List Byte} {s s' : State} {r : Except DriverError Unit}
    (h : hsend hd d c s = (r, s')) : LinkStep 173 s s' := by
  unfold hsend at h
  refine Op.bind_link (j := 1) (k := 172) h (fun _ _ h => Op.at_link h fun _ _ _ => wrreg_link) fun _ _ _ _ _ h => ?_
  refine Op.bind_link (j := 1) (k := 171) h (fun _ _ h => Op.at_link h fun _ _ _ => wrreg_link) fun _ _ _ _ _ h => ?_
  refine Op.bind_link (j := 100) (k := 71) h (fun _ _ h => Op.at_link h fun _ _ _ => pollBusy_link)
    fun _ _ _ _ _ h => ?_
  refine Op.bind_link (j := 1) (k := 70) h (fun _ _ h => Op.at_link h fun _ _ _ => rdreg_link) fun _ _ _ _ _ h => ?_
  refine Op.bind_link (j := 23) (k := 47) h (fun _ _ h => Op.at_link h fun _ _ _ => wrblk_link) fun _ _ _ _ _ h => ?_
  refine Op.bind_link (j := 23) (k := 24) h (fun _ _ h => Op.at_link h fun _ _ _ => wrblkIfAny_link)
    fun _ _ _ _ _ h => ?_
  exact Op.bind_link (j := 23) (k := 1) h (fun _ _ h => Op.at_link h fun _ _ _ => wrblkIfAny_link)
    fun _ _ _ _ _ h => Op.at_link h fun _ _ _ => wrreg_link

/-- A handler writes the sink registers only after its read of `size` bytes returned (R214). -/
theorem handler_spec {pa size : Nat} {f : List Byte → State → State} {s s' : State} {r : Except DriverError Unit}
    (h : handler pa size f s = (r, s')) :
    (∃ e, r = .error e ∧ (LinkStep 12 s s' ∨ LinkStep 14 (setReadDone true s) s')) ∨
    ∃ b s1, r = .ok () ∧ b.length = size ∧ s' = f b s1 ∧ (LinkStep 12 s s1 ∨ LinkStep 14 (setReadDone true s) s1) := by
  unfold handler at h
  rcases Op.bind_cases h with ⟨e, h1, rfl⟩ | ⟨b, s1, h1, h2⟩
  · exact Or.inl ⟨e, rfl, (hrecv_spec h1).1⟩
  · simp at h2
    obtain ⟨rfl, rfl⟩ := h2
    exact Or.inr ⟨b, s1, rfl, (hrecv_spec h1).2 b rfl, rfl, (hrecv_spec h1).1⟩

/-- `size` is a field of twelve bits (R196). -/
theorem sizeField_le (reg : Word) : (sizeField reg).toNat ≤ 4095 := by
  unfold sizeField
  rw [BitVec.toNat_and]
  exact Nat.and_le_right

/-! ## Transcripts -/

/-- HFIN along its transcript (R210, R211). -/
theorem hfin_runs {s : State} {exs : List Exchange} {rest : List PeerAnswer} (h : Finishes s exs)
    (hm : s.meets exs rest) : ∃ w, hfin s = (.ok (), (setReadDone true s).linked exs rest w) := by
  obtain ⟨reg, r, w, rfl, hr, hw⟩ := h
  have h1 : Runs ((Op.at 2 (rdreg s.params.regRcvCtrl0)).bind fun reg =>
      Op.at 3 (wrreg s.params.regRcvCtrl0 (setBit reg Config.rxDoneBit))) (setReadDone true s) () (r ++ w) := by
    refine Runs.bind (Runs.at (rdreg_runs ((ReadsReg_congr rfl rfl).mpr hr))) fun _ _ => Runs.at (wrreg_runs ?_)
    exact (WritesReg_congr rfl rfl).mpr hw
  obtain ⟨w', hw'⟩ := h1 rest hm
  exact ⟨w', by rw [hfin_eq]; exact hw'⟩

/-- The busy poll along its transcript (R192). -/
theorem pollBusy_runs {s : State} {busy : List (List Exchange)} {free : List Exchange} {v : Word} {left : Nat}
    (hl : busy.length < left)
    (hb : ∀ b ∈ busy, ∃ u : Word, ReadsReg s s.params.regTxCtrl u b ∧ u.getLsbD s.params.txBusyBit = true)
    (hf : ReadsReg s s.params.regTxCtrl v free) (hv : v.getLsbD s.params.txBusyBit = false) :
    Runs (pollBusy left) s () (busy.flatten ++ free) := by
  induction left generalizing s busy with
  | zero => omega
  | succ k ih =>
    refine Runs.of_eq (m' := (Op.note fun w => { w with busyAttempt := Config.sendRetry - k }).seq
      ((rdreg s.params.regTxCtrl).bind fun v =>
        if bitOf v s.params.txBusyBit = false then Op.ret () else pollBusy k)) rfl ?_
    rcases busy with _ | ⟨b, bs⟩
    · refine Runs.seq (e1 := []) (e2 := free ++ []) (Runs.note _ s) (fun _ _ => ?_) |> fun h => by simpa using h
      refine Runs.bind (rdreg_runs ((ReadsReg_congr rfl rfl).mpr hf)) fun _ _ => ?_
      rw [if_pos (by simpa [bitOf] using hv)]
      exact Runs.ret _ _
    · obtain ⟨u, h1, h2⟩ := hb b (by simp)
      refine Runs.seq (e1 := []) (e2 := b ++ (bs.flatten ++ free)) (Runs.note _ s) (fun _ _ => ?_) |> fun h => by
        simpa using h
      refine Runs.bind (rdreg_runs ((ReadsReg_congr rfl rfl).mpr h1)) fun _ _ => ?_
      rw [if_neg (by simp [bitOf, h2])]
      refine ih (by simpa using hl) (fun x hx => ?_) ((ReadsReg_congr rfl rfl).mpr hf) hv
      obtain ⟨u', h3, h4⟩ := hb x (by simp [hx])
      exact ⟨u', (ReadsReg_congr rfl rfl).mpr h3, h4⟩

end Sys2Proof.Machine
end

