-- ==== Sys2Proof/Laws/Failures.lean ====
section
/-! SUPPORT. How a rule fails along a failing transcript (60_exceptions.md R258, R260, R264): the error of the first
thing that goes wrong, and the state its completed steps left. -/

namespace Sys2Proof.Machine

open Sys2Proof

/-! ## Failing rules -/

/-- The state after the exchanges `exs` of a rule and the transfer that broke, if one did. -/
def State.cutOff (s : State) (exs : List Exchange) (cut : Option Cut) (rest : List PeerAnswer) (w : Work) (c : Cs) :
    State :=
  { s with
    cs := c
    script := rest
    trace := s.trace ++ exs.map Exchange.transfer ++ cut.toList.map Cut.transfer
    work := w }

/-- A rule fails along a transcript: with the peer answering `exs` and then `cut` it raises `e`, having made exactly
these transfers. -/
def Fails {α : Type} (m : Op α) (s : State) (e : DriverError) (exs : List Exchange) (cut : Option Cut) : Prop :=
  ∀ rest, s.meetsCut exs cut rest → ∃ w c, m s = (.error e, s.cutOff exs cut rest w c) ∧
    (cut = none → c = if exs = [] then s.cs else .deasserted)

theorem meetsCut_append {s : State} {e1 e2 : List Exchange} {cut : Option Cut} {rest : List PeerAnswer}
    (h : s.meetsCut (e1 ++ e2) cut rest) :
    s.meets e1 (e2.map Exchange.answer ++ (cut.toList.map Cut.answer ++ rest)) := by
  simpa [State.meetsCut, State.meets] using h

theorem linked_cutOff (s : State) (e1 e2 : List Exchange) (cut : Option Cut) (r1 r2 : List PeerAnswer) (w1 w2 : Work)
    (c : Cs) : (s.linked e1 r1 w1).cutOff e2 cut r2 w2 c = s.cutOff (e1 ++ e2) cut r2 w2 c := by
  simp [State.linked, State.cutOff]

/-- A rule that calls another fails as it does: no later step runs (R260). -/
theorem Fails.first {α β : Type} {m : Op α} {f : α → Op β} {s : State} {e : DriverError} {exs : List Exchange}
    {cut : Option Cut} (h : Fails m s e exs cut) : Fails (m.bind f) s e exs cut := by
  intro rest hm
  obtain ⟨w, c, hw, hc⟩ := h rest hm
  exact ⟨w, c, Op.bind_of_error hw, hc⟩

/-- A rule fails behind the steps that ran. -/
theorem Fails.after {α β : Type} {m : Op α} {f : α → Op β} {s : State} {a : α} {e : DriverError} {e1 e2 : List Exchange}
    {cut : Option Cut} (h1 : Runs m s a e1) (h2 : ∀ r w, Fails (f a) (s.linked e1 r w) e e2 cut) :
    Fails (m.bind f) s e (e1 ++ e2) cut := by
  intro rest hm
  obtain ⟨w1, hw1⟩ := h1 _ (meetsCut_append hm)
  obtain ⟨w2, c, hw2, hc⟩ := h2 _ w1 rest rfl
  refine ⟨w2, c, by rw [Op.bind_of_ok hw1, hw2, linked_cutOff], fun hn => ?_⟩
  rw [hc hn]
  rcases e1 with _ | ⟨x, e1⟩ <;> rcases e2 with _ | ⟨y, e2⟩ <;> simp [State.linked]

theorem Fails.first_seq {α β : Type} {m : Op α} {n : Op β} {s : State} {e : DriverError} {exs : List Exchange}
    {cut : Option Cut} (h : Fails m s e exs cut) : Fails (m.seq n) s e exs cut := Fails.first h

theorem Fails.after_seq {α β : Type} {m : Op α} {n : Op β} {s : State} {a : α} {e : DriverError}
    {e1 e2 : List Exchange} {cut : Option Cut} (h1 : Runs m s a e1) (h2 : ∀ r w, Fails n (s.linked e1 r w) e e2 cut) :
    Fails (m.seq n) s e (e1 ++ e2) cut := Fails.after h1 h2

theorem Fails.at {α : Type} {k : Nat} {m : Op α} {s : State} {e : DriverError} {exs : List Exchange} {cut : Option Cut}
    (h : Fails m { s with seq := s.seq.into k } e exs cut) : Fails (Op.at k m) s e exs cut := by
  intro rest hm
  obtain ⟨w, c, hw, hc⟩ := h rest hm
  exact ⟨w, c, Op.at_eq hw, hc⟩

theorem Fails.of_eq {α : Type} {m m' : Op α} {s : State} {e : DriverError} {exs : List Exchange} {cut : Option Cut}
    (h : m s = m' s) (hf : Fails m' s e exs cut) : Fails m s e exs cut := by
  intro rest hm
  obtain ⟨w, c, hw, hc⟩ := hf rest hm
  exact ⟨w, c, by rw [h, hw], hc⟩

theorem Fails.check {α : Type} {r : Except DriverError α} {e : DriverError} (h : r = .error e) (s : State) :
    Fails (Op.check r) s e [] none := by
  intro rest hm
  have hr : s.script = rest := by simpa [State.meetsCut] using hm
  exact ⟨s.work, s.cs, by simp [h, State.cutOff, ← hr], by simp⟩

theorem Fails.raise {α : Type} (e : DriverError) (s : State) : Fails (Op.raise e : Op α) s e [] none :=
  Fails.check rfl s

/-- A transfer that breaks raises the transport error it breaks with (R52, R53). -/
theorem Fails.xfer {tx : List Byte} {s : State} {e : DriverError} {exs : List Exchange} {cut : Option Cut}
    (h : Breaks tx e exs cut) : Fails (xfer tx) s e exs cut := by
  obtain ⟨rfl, c, x, rfl, rfl, hf, rfl⟩ := h
  intro rest hm
  have hs : s.script = c.answer :: rest := by simpa [State.meetsCut] using hm
  have ha : nextAnswer s = c.answer := by simp [nextAnswer, hs]
  refine ⟨{ s.work with txb := c.tx }, Config.freeCs s.trace.length, ?_, by simp⟩
  rcases hf with ⟨h1, rfl, h4⟩ | ⟨h1, h2, rfl, h4⟩ | ⟨h1, h2, h3, rfl, h4⟩ <;>
    simp_all [Machine.xfer, afterXfer, State.cutOff, Cut.transfer]

/-! ## The parameters and the CRC mode decide every failing transcript -/

theorem ReadsRegFails_congr {s s' : State} (hp : s'.params = s.params) (hc : s'.crcDisabled = s.crcDisabled) {a : Word}
    {e : DriverError} {exs : List Exchange} {cut : Option Cut} :
    ReadsRegFails s' a e exs cut ↔ ReadsRegFails s a e exs cut := by
  simp [ReadsRegFails, hp, crcLen_congr hp hc, encodeFrame_congr hp hc]

theorem WritesRegFails_congr {s s' : State} (hp : s'.params = s.params) (hc : s'.crcDisabled = s.crcDisabled)
    {a d : Word} {e : DriverError} {exs : List Exchange} {cut : Option Cut} :
    WritesRegFails s' a d e exs cut ↔ WritesRegFails s a d e exs cut := by
  simp [WritesRegFails, hp, crcLen_congr hp hc, encodeFrame_congr hp hc]

theorem PollFails_congr {s s' : State} (hp : s'.params = s.params) {n : Nat} {miss : List Byte → Prop} {site : PollSite}
    {e : DriverError} {exs : List Exchange} {cut : Option Cut} :
    PollFails s' n miss site e exs cut ↔ PollFails s n miss site e exs cut := by simp [PollFails, hp]

theorem PollsEcho_congr {s s' : State} (hp : s'.params = s.params) {op : WireOp} {n : Nat} {misses : List Exchange}
    {hit : Exchange} : PollsEcho s' op n misses hit ↔ PollsEcho s op n misses hit := by simp [PollsEcho, hp]

theorem ReadsBlockFails.congr {s s' : State} (hp : s'.params = s.params) (hc : s'.crcDisabled = s.crcDisabled)
    {a n : Nat} {e : DriverError} {exs : List Exchange} {cut : Option Cut} (h : ReadsBlockFails s a n e exs cut) :
    ReadsBlockFails s' a n e exs cut := by
  cases h <;> simp only [← hp, ← encodeFrame_congr hp hc, ← PollFails_congr hp, ← PollsEcho_congr hp] at *
  · exact .command ‹_›
  · exact .poll ‹_› ‹_›
  · exact .status ‹_› ‹_› ‹_›
  · exact .data ‹_› ‹_› ‹_› ‹_› ‹_›

theorem WritesBlockFails.congr {s s' : State} (hp : s'.params = s.params) (hc : s'.crcDisabled = s.crcDisabled)
    {a : Nat} {b : List Byte} {e : DriverError} {exs : List Exchange} {cut : Option Cut}
    (h : WritesBlockFails s a b e exs cut) : WritesBlockFails s' a b e exs cut := by
  cases h <;> simp only [← hp, ← encodeFrame_congr hp hc, ← PollFails_congr hp, ← PollsEcho_congr hp] at *
  · exact .command ‹_›
  · exact .poll ‹_› ‹_›
  · exact .status ‹_› ‹_› ‹_›
  · exact .mark ‹_› ‹_› ‹_› ‹_›
  · exact .payload ‹_› ‹_› ‹_› ‹_› ‹_›
  · exact .completion ‹_› ‹_› ‹_› ‹_› ‹_› ‹_›

theorem FinishesFails_congr {s s' : State} (hp : s'.params = s.params) (hc : s'.crcDisabled = s.crcDisabled)
    {e : DriverError} {exs : List Exchange} {cut : Option Cut} : FinishesFails s' e exs cut ↔ FinishesFails s e exs cut := by
  simp [FinishesFails, hp, ReadsReg_congr hp hc, ReadsRegFails_congr hp hc, WritesRegFails_congr hp hc]

/-! ## Register accesses -/

theorem decodeStatus_eq_noError {p : Params} {b : Byte} (h : decodeStatus p b = .noError) : b &&& p.statusMask = 0 := by
  unfold decodeStatus at h
  split at h <;> simp_all
  rename_i h0
  exact BitVec.eq_of_toNat_eq (by simpa using h0)

/-- RDREG along a failing transcript (R152, R245). -/
theorem rdreg_fails {s : State} {a : Word} {e : DriverError} {exs : List Exchange} {cut : Option Cut}
    (h : ReadsRegFails s a e exs cut) : Fails (rdreg a) s e exs cut := by
  obtain ⟨op, clk, hop, h⟩ := h
  have ho : readOpFor a = op ∧ decide (op = .internalRead) = clk ∧ lenOf op = 4 := by
    rcases hop with ⟨ha, rfl, rfl⟩ | ⟨ha, rfl, rfl⟩
    · exact ⟨by simp [readOpFor, Config.rdClocklessMax, ha], by simp, rfl⟩
    · exact ⟨by simp [readOpFor, Config.rdClocklessMax, Nat.not_le.mpr ha], by simp, rfl⟩
  obtain ⟨h1, h2, h3⟩ := ho
  refine Fails.of_eq (m' := (Op.at 1 (encodeStep op a 0 0 clk)).bind fun cmd =>
    (Op.at 2 (xfer (cmd ++ zeros s.params s.params.regRspRd))).bind fun rx =>
      Op.at 3 (Op.check (readResponse s.params op (4 + crcLen s) rx))) (by simp only [rdreg, h1, h2, h3]) ?_
  refine Fails.after (e1 := []) (Runs.encodeStep op a 0 0 clk _).at fun _ _ => ?_
  rcases h with h | ⟨x, rfl, rfl, hx, hbad, rfl⟩
  · exact Fails.first (Fails.at (Fails.xfer h))
  · refine Fails.after (e1 := [x]) (e2 := []) (Runs.xfer hx).at fun _ _ => Fails.at (Fails.check ?_ _)
    have e1 : 4 + crcLen s + 1 = 5 + crcLen s := by omega
    have e2 : 4 + crcLen s + 2 = 6 + crcLen s := by omega
    simp only [readResponse, e1, e2, opc]
    rw [if_neg]
    rintro ⟨g1, g2, g3⟩
    rcases hbad with g | g | g
    · exact g g1
    · exact g (decodeStatus_eq_noError g2)
    · exact g (by simpa [isMarker] using g3)

/-- WRREG along a failing transcript (R155, R246). -/
theorem wrreg_fails {s : State} {a d : Word} {e : DriverError} {exs : List Exchange} {cut : Option Cut}
    (h : WritesRegFails s a d e exs cut) : Fails (wrreg a d) s e exs cut := by
  obtain ⟨op, clk, L, hop, h⟩ := h
  have ho : writeOpFor a = op ∧ decide (op = .internalWrite) = clk ∧ lenOf op = L := by
    rcases hop with ⟨ha, rfl, rfl, rfl⟩ | ⟨ha, rfl, rfl, rfl⟩
    · exact ⟨by simp [writeOpFor, Config.wrClocklessMax, ha], by simp, rfl⟩
    · exact ⟨by simp [writeOpFor, Config.wrClocklessMax, Nat.not_le.mpr ha], by simp, rfl⟩
  obtain ⟨h1, h2, h3⟩ := ho
  refine Fails.of_eq (m' := (Op.at 1 (encodeStep op a d 0 clk)).bind fun cmd =>
    (Op.at 2 (xfer (cmd ++ zeros s.params s.params.regRspWr))).bind fun rx =>
      Op.at 3 (Op.check (writeResponse s.params op (L + crcLen s) rx))) (by simp only [wrreg, h1, h2, h3]) ?_
  refine Fails.after (e1 := []) (Runs.encodeStep op a d 0 clk _).at fun _ _ => ?_
  rcases h with h | ⟨x, rfl, rfl, hx, hbad, rfl⟩
  · exact Fails.first (Fails.at (Fails.xfer h))
  · refine Fails.after (e1 := [x]) (e2 := []) (Runs.xfer hx).at fun _ _ => Fails.at (Fails.check ?_ _)
    have e1 : L + crcLen s + 1 = L + 1 + crcLen s := by omega
    simp only [writeResponse, e1, opc]
    rw [if_neg]
    rintro ⟨g1, g2⟩
    exact hbad.elim (fun g => g g1) fun g => g g2

/-! ## Polls -/

/-- The response poll fails (R157). -/
theorem pollResponse_fails {s : State} {p : Params} (hp : s.params = p) {echo : Byte} {n left : Nat} {site : PollSite}
    {misses rest : List Exchange} {e : DriverError} {cut : Option Cut}
    (hm : ∀ m ∈ misses, m.sends (zeros p n) ∧ at' m.rx 0 ≠ echo)
    (h : misses.length < left ∧ Breaks (zeros p n) e rest cut ∨
      misses.length = left ∧ rest = [] ∧ cut = none ∧ e = .spi (.timeout site)) :
    Fails (pollResponse echo n site left) s e (misses ++ rest) cut := by
  induction left generalizing s misses with
  | zero =>
    rcases h with ⟨h, _⟩ | ⟨h, rfl, rfl, rfl⟩
    · omega
    · obtain rfl := List.length_eq_zero_iff.mp h
      exact Fails.raise _ _
  | succ k ih =>
    subst hp
    refine Fails.of_eq (m' := (Op.note fun w => { w with respAttempt := Config.blockRetry - k }).seq
      ((xfer (zeros s.params n)).bind fun rsp =>
        if at' rsp 0 = echo then Op.ret rsp else pollResponse echo n site k)) rfl ?_
    refine Fails.after_seq (e1 := []) (Runs.note _ s) fun _ _ => ?_
    rcases misses with _ | ⟨m, ms⟩
    · rcases h with ⟨_, h⟩ | ⟨h, _⟩
      · exact Fails.first (Fails.xfer h)
      · simp at h
    · obtain ⟨h1, h2⟩ := hm m (by simp)
      refine Fails.after (e1 := [m]) (e2 := ms ++ rest) (Runs.xfer h1) fun _ _ => ?_
      rw [if_neg h2]
      exact ih (by rfl) (fun x hx => hm x (by simp [hx])) (by simpa using h)

/-- The completion poll fails (R163). -/
theorem pollDone_fails {s : State} {p : Params} (hp : s.params = p) {left : Nat} {misses rest : List Exchange}
    {e : DriverError} {cut : Option Cut} (hm : ∀ m ∈ misses, m.sends (zeros p 1) ∧ at' m.rx 0 ≠ 0xC3)
    (h : misses.length < left ∧ Breaks (zeros p 1) e rest cut ∨
      misses.length = left ∧ rest = [] ∧ cut = none ∧ e = .spi (.timeout .writeDataComplete)) :
    Fails (pollDone left) s e (misses ++ rest) cut := by
  induction left generalizing s misses with
  | zero =>
    rcases h with ⟨h, _⟩ | ⟨h, rfl, rfl, rfl⟩
    · omega
    · obtain rfl := List.length_eq_zero_iff.mp h
      exact Fails.raise _ _
  | succ k ih =>
    subst hp
    refine Fails.of_eq (m' := (Op.note fun w => { w with doneAttempt := Config.blockRetry - k }).seq
      ((xfer (zeros s.params 1)).bind fun r =>
        if isWriteDone (at' r 0) = true then Op.ret () else pollDone k)) rfl ?_
    refine Fails.after_seq (e1 := []) (Runs.note _ s) fun _ _ => ?_
    rcases misses with _ | ⟨m, ms⟩
    · rcases h with ⟨_, h⟩ | ⟨h, _⟩
      · exact Fails.first (Fails.xfer h)
      · simp at h
    · obtain ⟨h1, h2⟩ := hm m (by simp)
      refine Fails.after (e1 := [m]) (e2 := ms ++ rest) (Runs.xfer h1) fun _ _ => ?_
      rw [if_neg (by simpa [isWriteDone, Config.writeDone] using h2)]
      exact ih (by rfl) (fun x hx => hm x (by simp [hx])) (by simpa using h)

/-- The busy poll of HSEND fails (R192). -/
theorem pollBusy_fails {s : State} {busy : List (List Exchange)} {last : List Exchange} {e : DriverError}
    {cut : Option Cut} {left : Nat}
    (hb : ∀ b ∈ busy, ∃ u : Word, ReadsReg s s.params.regTxCtrl u b ∧ u.getLsbD s.params.txBusyBit = true)
    (h : busy.length < left ∧ ReadsRegFails s s.params.regTxCtrl e last cut ∨
      busy.length = left ∧ last = [] ∧ cut = none ∧ e = .spi (.timeout .sendBusy)) :
    Fails (pollBusy left) s e (busy.flatten ++ last) cut := by
  induction left generalizing s busy with
  | zero =>
    rcases h with ⟨h, _⟩ | ⟨h, rfl, rfl, rfl⟩
    · omega
    · obtain rfl := List.length_eq_zero_iff.mp h
      exact Fails.raise _ _
  | succ k ih =>
    refine Fails.of_eq (m' := (Op.note fun w => { w with busyAttempt := Config.sendRetry - k }).seq
      ((rdreg s.params.regTxCtrl).bind fun v =>
        if bitOf v s.params.txBusyBit = false then Op.ret () else pollBusy k)) rfl ?_
    refine Fails.after_seq (e1 := []) (e2 := busy.flatten ++ last) (Runs.note _ s) fun _ _ => ?_
    rcases busy with _ | ⟨b, bs⟩
    · rcases h with ⟨_, h⟩ | ⟨h, _⟩
      · exact Fails.first (rdreg_fails h)
      · simp at h
    · obtain ⟨u, h1, h2⟩ := hb b (by simp)
      have ht : (b :: bs).flatten ++ last = b ++ (bs.flatten ++ last) := by simp
      refine ht ▸ Fails.after (rdreg_runs ((ReadsReg_congr rfl rfl).mpr h1)) fun _ _ => ?_
      rw [if_neg (by simp [bitOf, h2])]
      refine ih (fun x hx => ?_) ?_
      on_goal 2 => simpa [ReadsRegFails_congr (s := s) (s' := (s.linked _ _ _).linked _ _ _) rfl rfl] using h
      obtain ⟨u', h3, h4⟩ := hb x (by simp [hx])
      exact ⟨u', (ReadsReg_congr rfl rfl).mpr h3, h4⟩

/-! ## Block accesses -/

theorem sendCommand_fails {op : WireOp} {a n : Nat} {s : State} {e : DriverError} {exs : List Exchange}
    {cut : Option Cut} (h : Breaks (encodeFrame s op (BitVec.ofNat 32 a) 0 (BitVec.ofNat 32 n) false) e exs cut) :
    Fails (sendCommand op a n) s e exs cut := by
  refine Fails.after_seq (e1 := []) (Runs.note _ s) fun _ _ => ?_
  refine Fails.after (e1 := []) (Runs.encodeStep _ _ _ _ _ _) fun _ _ => ?_
  exact Fails.first_seq (Fails.xfer h)

/-- RDBLK along a failing transcript, in the order of R258. -/
theorem rdblk_fails {s : State} {a n : Nat} {e : DriverError} {exs : List Exchange} {cut : Option Cut}
    (h : ReadsBlockFails s a n e exs cut) : Fails (rdblk a n) s e exs cut := by
  refine Fails.of_eq (rdblk_eq a n s) ?_
  have send : ∀ {cmd : Exchange}, cmd.sends (encodeFrame s .dmaExtRead (BitVec.ofNat 32 a) 0 (BitVec.ofNat 32 n) false) →
      Runs (Op.at 1 (sendCommand .dmaExtRead a n)) s () [cmd] := fun hc =>
    (sendCommand_runs (s := { s with seq := s.seq.into 1 }) hc).at
  have poll : ∀ {misses : List Exchange} {hit : Exchange}, PollsEcho s .dmaExtRead s.params.rdRspLen misses hit →
      ∀ {r w} {cmd : Exchange}, Runs (Op.at 2 (pollResponse (opc s.params .dmaExtRead) s.params.rdRspLen
        .readDataResponse Config.blockRetry)) (s.linked [cmd] r w) hit.rx (misses ++ [hit]) :=
    fun ⟨hl, hm, hh, he⟩ => (pollResponse_runs (p := s.params) (by rfl) hl hm hh he).at
  cases h with
  | command h => exact Fails.first_seq (Fails.at (sendCommand_fails (s := { s with seq := s.seq.into 1 }) h))
  | poll hc h =>
    obtain ⟨misses, rest, rfl, hm, h⟩ := h
    refine Fails.after_seq (e1 := [_]) (send hc) fun _ _ => Fails.first (Fails.at ?_)
    exact pollResponse_fails (p := s.params) (by rfl) hm h
  | @status cmd misses hit hc hp hbad =>
    have ht : cmd :: (misses ++ [hit]) = [cmd] ++ ((misses ++ [hit]) ++ []) := by simp
    rw [ht]
    refine Fails.after_seq (send hc) fun _ _ => ?_
    refine Fails.after (poll hp) fun _ _ => Fails.first_seq (Fails.at (Fails.check ?_ _))
    unfold readDataResponse
    rw [if_neg]
    rintro ⟨g1, g2⟩
    exact hbad.elim (fun g => g (decodeStatus_eq_noError g1)) fun g => g (by simpa [isMarker] using g2)
  | @data cmd misses hit e exs cut hc hp h1 h2 h =>
    have ht : cmd :: (misses ++ hit :: exs) = [cmd] ++ ((misses ++ [hit]) ++ ([] ++ exs)) := by simp
    rw [ht]
    refine Fails.after_seq (send hc) fun _ _ => Fails.after (poll hp) fun _ _ => ?_
    have hchk : readDataResponse s.params hit.rx = .ok () := by
      unfold readDataResponse
      rw [if_pos ⟨decodeStatus_zero h1, by simpa [isMarker] using h2⟩]
    exact Fails.after_seq (Runs.check hchk _).at fun _ _ => Fails.at (Fails.xfer h)

/-- WRBLK along a failing transcript, in the order of R258. -/
theorem wrblk_fails {s : State} {a : Nat} {b : List Byte} {e : DriverError} {exs : List Exchange} {cut : Option Cut}
    (h : WritesBlockFails s a b e exs cut) : Fails (wrblk a b) s e exs cut := by
  refine Fails.of_eq (wrblk_eq a b s) ?_
  have send : ∀ {cmd : Exchange},
      cmd.sends (encodeFrame s .dmaExtWrite (BitVec.ofNat 32 a) 0 (BitVec.ofNat 32 b.length) false) →
      Runs (Op.at 1 (sendCommand .dmaExtWrite a b.length)) s () [cmd] := fun hc =>
    (sendCommand_runs (s := { s with seq := s.seq.into 1 }) hc).at
  have poll : ∀ {misses : List Exchange} {hit : Exchange}, PollsEcho s .dmaExtWrite s.params.wrRspLen misses hit →
      ∀ {r w} {cmd : Exchange}, Runs (Op.at 2 (pollResponse (opc s.params .dmaExtWrite) s.params.wrRspLen
        .writeDataResponse Config.blockRetry)) (s.linked [cmd] r w) hit.rx (misses ++ [hit]) :=
    fun ⟨hl, hm, hh, he⟩ => (pollResponse_runs (p := s.params) (by rfl) hl hm hh he).at
  have chk : ∀ {hit : Exchange}, at' hit.rx 1 = 0 → ∀ t : State,
      Runs (Op.at 3 (Op.check (writeDataResponse s.params hit.rx))) t () [] := fun h0 t =>
    (Runs.check (by simp [writeDataResponse, h0]) _).at
  cases h with
  | command h => exact Fails.first_seq (Fails.at (sendCommand_fails (s := { s with seq := s.seq.into 1 }) h))
  | poll hc h =>
    obtain ⟨misses, rest, rfl, hm, h⟩ := h
    refine Fails.after_seq (e1 := [_]) (send hc) fun _ _ => Fails.first (Fails.at ?_)
    exact pollResponse_fails (p := s.params) (by rfl) hm h
  | @status cmd misses hit hc hp hbad =>
    have ht : cmd :: (misses ++ [hit]) = [cmd] ++ ((misses ++ [hit]) ++ []) := by simp
    rw [ht]
    refine Fails.after_seq (send hc) fun _ _ => ?_
    refine Fails.after (poll hp) fun _ _ => Fails.first_seq (Fails.at (Fails.check ?_ _))
    unfold writeDataResponse
    rw [if_neg hbad]
  | @mark cmd misses hit e exs cut hc hp h0 h =>
    have ht : cmd :: (misses ++ hit :: exs) = [cmd] ++ ((misses ++ [hit]) ++ ([] ++ exs)) := by simp
    rw [ht]
    refine Fails.after_seq (send hc) fun _ _ => Fails.after (poll hp) fun _ _ => ?_
    exact Fails.after_seq (chk h0 _) fun _ _ => Fails.first_seq (Fails.first_seq (Fails.at (Fails.xfer h)))
  | @payload cmd misses hit mark e exs cut hc hp h0 hmk h =>
    have ht : cmd :: (misses ++ hit :: mark :: exs) = [cmd] ++ ((misses ++ [hit]) ++ ([] ++ ([mark] ++ exs))) := by simp
    rw [ht]
    refine Fails.after_seq (send hc) fun _ _ => Fails.after (poll hp) fun _ _ => ?_
    refine Fails.after_seq (chk h0 _) fun _ _ => Fails.after_seq (sendMark_runs hmk) fun _ _ => ?_
    exact Fails.first_seq (Fails.at (Fails.xfer h))
  | @completion cmd misses hit mark payload e exs cut hc hp h0 hmk hpl h =>
    have ht : cmd :: (misses ++ hit :: mark :: payload :: exs) =
        [cmd] ++ ((misses ++ [hit]) ++ ([] ++ ([mark] ++ ([payload] ++ exs)))) := by simp
    rw [ht]
    obtain ⟨ms, rest, rfl, hm, h⟩ := h
    refine Fails.after_seq (send hc) fun _ _ => Fails.after (poll hp) fun _ _ => ?_
    refine Fails.after_seq (chk h0 _) fun _ _ => Fails.after_seq (sendMark_runs hmk) fun _ _ => ?_
    refine Fails.after_seq (Runs.xfer hpl).at fun _ _ => Fails.at ?_
    exact pollDone_fails (p := s.params) (by rfl) hm h

/-- HFIN along a failing transcript: the flag is true already (R210, R262). -/
theorem hfin_fails {s : State} {e : DriverError} {exs : List Exchange} {cut : Option Cut} {rest : List PeerAnswer}
    (h : FinishesFails s e exs cut) (hm : s.meetsCut exs cut rest) :
    ∃ w c, hfin s = (.error e, (setReadDone true s).cutOff exs cut rest w c) ∧
      (cut = none → c = if exs = [] then s.cs else .deasserted) := by
  have hf : Fails ((Op.at 2 (rdreg s.params.regRcvCtrl0)).bind fun reg =>
      Op.at 3 (wrreg s.params.regRcvCtrl0 (setBit reg Config.rxDoneBit))) (setReadDone true s) e exs cut := by
    rcases h with h | ⟨reg, r, w, rfl, hr, hw⟩
    · exact Fails.first (Fails.at (rdreg_fails ((ReadsRegFails_congr rfl rfl).mpr h)))
    · refine Fails.after (Runs.at (rdreg_runs ((ReadsReg_congr rfl rfl).mpr hr))) fun _ _ => Fails.at (wrreg_fails ?_)
      exact (WritesRegFails_congr rfl rfl).mpr hw
  rw [hfin_eq]
  exact hf rest hm

/-! ## Ends -/

theorem accept_meetsCut {s : State} {op : HostOp} {latch : Work → Work} {exs : List Exchange} {cut : Option Cut}
    {rest : List PeerAnswer} : (accept op latch s).meetsCut exs cut rest ↔ s.meetsCut exs cut rest := Iff.rfl

/-- An operation whose rule fails along a transcript ends in that error (R260). -/
theorem runOp_fails {op : HostOp} {latch : Work → Work} {m : Op Value} {s : State} {e : DriverError}
    {exs : List Exchange} {cut : Option Cut} {rest : List PeerAnswer} (hs : s.seq = .idle)
    (h : Fails m (accept op latch s) e exs cut) (hm : s.meetsCut exs cut rest) :
    ∃ t, runOp op latch m s = .next t ∧ s.failed t e exs cut rest := by
  obtain ⟨w, c, hw, hc⟩ := h rest (accept_meetsCut.mpr hm)
  refine ⟨_, runOp_idle hs, ?_⟩
  rw [hw]
  exact ⟨rfl, fun hn => hc hn⟩

end Sys2Proof.Machine
end

