-- ==== Sys2Proof/Laws/Made.lean ====
section
/-! SUPPORT. What an access that returned has done, whatever the peer answers: the transfers it made are those of a good
transcript of its rule, and its value is the transcript's. -/

namespace Sys2Proof.Machine

open Sys2Proof

/-- The transfers of `s'` are those of `s` and then `exs`. -/
def Made (s s' : State) (exs : List Exchange) : Prop := s'.trace = s.trace ++ exs.map Exchange.transfer

theorem Made.nil {s s' : State} (h : s'.trace = s.trace) : Made s s' [] := by simp [Made, h]

theorem Made.trans {s s1 s2 : State} {e1 e2 : List Exchange} (h1 : Made s s1 e1) (h2 : Made s1 s2 e2) :
    Made s s2 (e1 ++ e2) := by
  unfold Made at *
  rw [h2, h1]
  simp

/-- A chain that returned: both parts returned. -/
theorem Op.bind_ok {α β : Type} {m : Op α} {f : α → Op β} {s s' : State} {b : β} (h : m.bind f s = (.ok b, s')) :
    ∃ a s1, m s = (.ok a, s1) ∧ f a s1 = (.ok b, s') := by
  rcases Op.bind_cases h with ⟨e, _, h⟩ | h
  · cases h
  · exact h

theorem Op.seq_ok {α β : Type} {m : Op α} {n : Op β} {s s' : State} {b : β} (h : m.seq n s = (.ok b, s')) :
    ∃ a s1, m s = (.ok a, s1) ∧ n s1 = (.ok b, s') := Op.bind_ok h

/-- A transfer that returned was sent whole and received whole (R52). -/
theorem xfer_made {tx rx : List Byte} {s s' : State} (h : xfer tx s = (.ok rx, s')) :
    ∃ x : Exchange, x.sends tx ∧ x.rx = rx ∧ Made s s' [x] := by
  refine ⟨⟨tx, rx⟩, ⟨rfl, xfer_length h⟩, rfl, ?_⟩
  unfold xfer at h
  by_cases h1 : (nextAnswer s).assertOk <;> by_cases h2 : (nextAnswer s).exchangeOk <;>
    by_cases h3 : (nextAnswer s).deassertOk <;> simp [h1, h2, h3] at h
  obtain ⟨rfl, rfl⟩ := h
  rfl

theorem decodeStatus_noError {p : Params} {b : Byte} : decodeStatus p b = .noError ↔ b &&& p.statusMask = 0 := by
  refine ⟨fun h => ?_, decodeStatus_zero⟩
  unfold decodeStatus at h
  split at h <;> simp_all
  rename_i h0
  exact BitVec.eq_of_toNat_eq (by simpa using h0)

/-- RDREG that returned read along a good transcript (R150). -/
theorem rdreg_made {a v : Word} {s s' : State} (h : rdreg a s = (.ok v, s')) :
    ∃ exs, ReadsReg s a v exs ∧ Made s s' exs := by
  unfold rdreg at h
  obtain ⟨cmd, s1, h1, h⟩ := Op.bind_ok h
  obtain ⟨s0, h0, rfl⟩ := Op.at_cases h1
  rw [encodeStep_apply] at h0
  simp only [Prod.mk.injEq, Except.ok.injEq] at h0
  obtain ⟨rfl, rfl⟩ := h0
  obtain ⟨rx, s2, h2, h⟩ := Op.bind_ok h
  obtain ⟨s0, h0, rfl⟩ := Op.at_cases h2
  obtain ⟨x, hx, rfl, hm⟩ := xfer_made h0
  simp only [Op.at_check, Prod.mk.injEq] at h
  obtain ⟨h3, rfl⟩ := h
  have hl : lenOf (readOpFor a) = 4 := by unfold readOpFor; split <;> rfl
  rw [hl] at h3
  simp only [readResponse] at h3
  split at h3
  · rename_i hc
    simp only [Except.ok.injEq] at h3
    refine ⟨[x], ⟨x, rfl, readOpFor a, decide (readOpFor a = .internalRead), ?_, hx, ?_, ?_, ?_, ?_⟩, hm⟩
    · unfold readOpFor Config.rdClocklessMax
      split <;> simp_all
    · exact hc.1
    · rw [show 5 + crcLen s = 4 + crcLen s + 1 by omega]; exact decodeStatus_noError.mp hc.2.1
    · rw [show 6 + crcLen s = 4 + crcLen s + 2 by omega]; simpa [isMarker] using hc.2.2
    · rw [← h3, show 7 + crcLen s = 4 + crcLen s + 3 by omega, show 8 + crcLen s = 4 + crcLen s + 4 by omega,
        show 9 + crcLen s = 4 + crcLen s + 5 by omega, show 10 + crcLen s = 4 + crcLen s + 6 by omega]
  · cases h3

/-- WRREG that returned wrote along a good transcript (R153). -/
theorem wrreg_made {a d : Word} {s s' : State} (h : wrreg a d s = (.ok (), s')) :
    ∃ exs, WritesReg s a d exs ∧ Made s s' exs := by
  unfold wrreg at h
  obtain ⟨cmd, s1, h1, h⟩ := Op.bind_ok h
  obtain ⟨s0, h0, rfl⟩ := Op.at_cases h1
  rw [encodeStep_apply] at h0
  simp only [Prod.mk.injEq, Except.ok.injEq] at h0
  obtain ⟨rfl, rfl⟩ := h0
  obtain ⟨rx, s2, h2, h⟩ := Op.bind_ok h
  obtain ⟨s0, h0, rfl⟩ := Op.at_cases h2
  obtain ⟨x, hx, rfl, hm⟩ := xfer_made h0
  simp only [Op.at_check, Prod.mk.injEq] at h
  obtain ⟨h3, rfl⟩ := h
  unfold writeResponse at h3
  split at h3
  · rename_i hc
    refine ⟨[x], ⟨x, rfl, writeOpFor a, decide (writeOpFor a = .internalWrite), lenOf (writeOpFor a), ?_, hx, hc.1,
      ?_⟩, hm⟩
    · unfold writeOpFor Config.wrClocklessMax
      split <;> simp_all [lenOf, shapeOf, lenShape]
    · rw [show lenOf (writeOpFor a) + 1 + crcLen s = lenOf (writeOpFor a) + crcLen s + 1 by omega]; exact hc.2
  · cases h3

/-- A response poll that returned found its echo after the misses (R157). -/
theorem pollResponse_made {echo : Byte} {n left : Nat} {site : PollSite} {rsp : List Byte} {s s' : State}
    (h : pollResponse echo n site left s = (.ok rsp, s')) :
    ∃ misses hit, misses.length < left ∧ (∀ m ∈ misses, m.sends (zeros s.params n) ∧ at' m.rx 0 ≠ echo) ∧
      hit.sends (zeros s.params n) ∧ at' hit.rx 0 = echo ∧ hit.rx = rsp ∧ Made s s' (misses ++ [hit]) := by
  induction left generalizing s with
  | zero => simp [pollResponse] at h
  | succ k ih =>
    unfold pollResponse at h
    obtain ⟨_, s1, h1, h⟩ := Op.seq_ok h
    simp only [Op.note_apply, Prod.mk.injEq, true_and] at h1
    subst h1
    obtain ⟨rx, s2, h2, h⟩ := Op.bind_ok h
    obtain ⟨x, hx, rfl, hm⟩ := xfer_made h2
    split at h
    · rename_i he
      cases h
      exact ⟨[], x, by simp, by simp, hx, he, rfl, hm⟩
    · rename_i he
      obtain ⟨misses, hit, hl, hms, hh, hhe, hr, hm2⟩ := ih h
      have hp : s2.params = s.params := (xfer_link h2).params
      rw [hp] at hms hh
      refine ⟨x :: misses, hit, by simpa using hl, ?_, hh, hhe, hr, hm.trans hm2⟩
      intro m hmem
      rcases List.mem_cons.mp hmem with rfl | hmem
      · exact ⟨hx, he⟩
      · exact hms m hmem

theorem sendCommand_made {op : WireOp} {a n : Nat} {s s' : State} (h : sendCommand op a n s = (.ok (), s')) :
    ∃ x : Exchange, x.sends (encodeFrame s op (BitVec.ofNat 32 a) 0 (BitVec.ofNat 32 n) false) ∧ Made s s' [x] := by
  unfold sendCommand at h
  obtain ⟨_, s1, h1, h⟩ := Op.seq_ok h
  simp only [Op.note_apply, Prod.mk.injEq, true_and] at h1
  subst h1
  obtain ⟨_, s1, h1, h⟩ := Op.bind_ok h
  rw [encodeStep_apply] at h1
  simp only [Prod.mk.injEq, Except.ok.injEq] at h1
  obtain ⟨rfl, rfl⟩ := h1
  obtain ⟨_, s1, h1, h⟩ := Op.seq_ok h
  cases h
  obtain ⟨x, hx, _, hm⟩ := xfer_made h1
  exact ⟨x, hx, hm⟩

/-- RDBLK that returned read along a good transcript (R156). -/
theorem rdblk_made {a n : Nat} {d : List Byte} {s s' : State} (h : rdblk a n s = (.ok d, s')) :
    ∃ exs, ReadsBlock s a n d exs ∧ Made s s' exs := by
  rw [rdblk_eq] at h
  obtain ⟨_, s1, h1, h⟩ := Op.seq_ok h
  obtain ⟨rsp, s2, h2, h⟩ := Op.bind_ok h
  obtain ⟨_, s3, h3, h⟩ := Op.seq_ok h
  have p1 : s1.params = s.params := (Op.at_link h1 fun _ _ _ => sendCommand_link).params
  obtain ⟨t1, h1', rfl⟩ := Op.at_cases h1
  obtain ⟨cmd, hc, m1⟩ := sendCommand_made h1'
  obtain ⟨t2, h2', rfl⟩ := Op.at_cases h2
  obtain ⟨misses, hit, hl, hms, hh, he, rfl, m2⟩ := pollResponse_made h2'
  simp only [Op.at_check, Prod.mk.injEq] at h3
  obtain ⟨hchk, rfl⟩ := h3
  obtain ⟨t3, h', rfl⟩ := Op.at_cases h
  obtain ⟨dat, hd, rfl, m3⟩ := xfer_made h'
  unfold readDataResponse at hchk
  split at hchk
  · rename_i hok
    have p1' : t1.params = s.params := p1
    simp only [p1'] at hms hh
    refine ⟨cmd :: (misses ++ [hit, dat]), ⟨cmd, misses, hit, dat, rfl, hc, ⟨hl, hms, hh, he⟩,
      decodeStatus_noError.mp hok.1, by simpa [isMarker] using hok.2, hd, rfl⟩, ?_⟩
    have m : Made s { t3 with seq := s.seq } ([cmd] ++ ((misses ++ [hit]) ++ [dat])) :=
      Made.trans (s1 := t1) m1 (Made.trans (s1 := t2) m2 m3)
    simpa using m
  · cases hchk

/-- HFIN that returned told the peer along a good transcript (R210). -/
theorem hfin_made {s s' : State} (h : hfin s = (.ok (), s')) : ∃ exs, Finishes s exs ∧ Made s s' exs := by
  rw [hfin_eq] at h
  obtain ⟨reg, s1, h1, h⟩ := Op.bind_ok h
  have l1 := Op.at_link h1 fun _ _ _ => rdreg_link
  obtain ⟨t1, h1', rfl⟩ := Op.at_cases h1
  obtain ⟨t2, h', rfl⟩ := Op.at_cases h
  obtain ⟨r, hr, m1⟩ := rdreg_made h1'
  obtain ⟨w, hw, m2⟩ := wrreg_made h'
  refine ⟨r ++ w, ⟨reg, r, w, rfl, (ReadsReg_congr rfl rfl).mp hr, ?_⟩, Made.trans (s1 := t1) m1 m2⟩
  exact (WritesReg_congr l1.params l1.crcDisabled).mp hw

/-- HRECV that returned passed both checks and read along a good transcript, HFIN at the packet's end included (R204,
R208). -/
theorem hrecv_made {a n : Nat} {d : List Byte} {s s' : State} (h : hrecv a n s = (.ok d, s')) :
    n ≤ s.ctx.readSize.toNat ∧ s.ctx.readAddr.toNat ≤ a ∧ a + n ≤ s.ctx.readAddr.toNat + s.ctx.readSize.toNat ∧
    ∃ e e2, ReadsBlock s a n d e ∧ FinishesIf s (s.ctx.readAddr.toNat + s.ctx.readSize.toNat ≤ a + n) e2 ∧
      Made s s' (e ++ e2) := by
  unfold hrecv at h
  obtain ⟨_, s1, h1, h⟩ := Op.seq_ok h
  simp only [Op.at_check, Prod.mk.injEq] at h1
  obtain ⟨hc1, rfl⟩ := h1
  obtain ⟨_, s2, h2, h⟩ := Op.seq_ok h
  simp only [Op.at_check, Prod.mk.injEq] at h2
  obtain ⟨hc2, rfl⟩ := h2
  obtain ⟨d', s3, h3, h⟩ := Op.bind_ok h
  obtain ⟨_, s4, h4, h⟩ := Op.seq_ok h
  cases h
  have l3 := Op.at_link h3 fun _ _ _ => rdblk_link
  obtain ⟨t3, h3', rfl⟩ := Op.at_cases h3
  obtain ⟨e, he, hm⟩ := rdblk_made h3'
  have g1 : n ≤ s.ctx.readSize.toNat := by
    by_contra hh; unfold sizeCheck at hc1; simp at hc1; omega
  have g2 : ¬ (a < s.ctx.readAddr.toNat ∨ s.ctx.readAddr.toNat + s.ctx.readSize.toNat < a + n) := by
    intro hh; unfold windowCheck at hc2; rw [if_pos hh] at hc2; cases hc2
  refine ⟨g1, by omega, by omega, ?_⟩
  obtain ⟨t4, h4', rfl⟩ := Op.at_cases h4
  have hx : t3.ctx = s.ctx := l3.ctx
  rcases finishAtEnd_cases h4' with ⟨hle, h5⟩ | ⟨hle, _, h6⟩
  · simp only [hx] at hle
    obtain ⟨e2, hf, hm2⟩ := hfin_made h5
    exact ⟨e, e2, (ReadsBlock_congr rfl rfl).mp he,
      Or.inl ⟨hle, (Finishes_congr (s := s) l3.params l3.crcDisabled).mp hf⟩, Made.trans (s1 := t3) hm hm2⟩
  · simp only [hx] at hle
    refine ⟨e, [], (ReadsBlock_congr rfl rfl).mp he, Or.inr ⟨hle, rfl⟩, ?_⟩
    rw [h6, List.append_nil]; exact hm

end Sys2Proof.Machine
end

