-- ==== Sys2Proof/Laws/Nested.lean ====
section
/-! SUPPORT. How rules that write `ctx` and `ds` between their accesses run and fail along transcripts: HSEND, HFIN,
HRECV, the handlers, HISR (44_hif_engine.md; 60_exceptions.md R260, R262, R264). -/

namespace Sys2Proof.Machine

open Sys2Proof

/-- `s` with another packet context and other driver state. -/
def State.put (s : State) (c : Ctx) (d : DriverState) : State := { s with ctx := c, ds := d }

/-- A rule runs along a transcript, leaving `ctx` and `ds` so. -/
def RunsTo {α : Type} (m : Op α) (s : State) (a : α) (c : Ctx) (d : DriverState) (exs : List Exchange) : Prop :=
  ∀ rest, s.meets exs rest → ∃ w, m s = (.ok a, (s.put c d).linked exs rest w)

/-- A rule fails along a transcript, leaving `ctx` and `ds` so. -/
def FailsTo {α : Type} (m : Op α) (s : State) (c : Ctx) (d : DriverState) (e : DriverError) (exs : List Exchange)
    (cut : Option Cut) : Prop :=
  ∀ rest, s.meetsCut exs cut rest → ∃ w k, m s = (.error e, (s.put c d).cutOff exs cut rest w k) ∧
    (cut = none → k = if exs = [] then s.cs else .deasserted)

theorem Runs.to {α : Type} {m : Op α} {s : State} {a : α} {exs : List Exchange} (h : Runs m s a exs) :
    RunsTo m s a s.ctx s.ds exs := h

theorem Fails.to {α : Type} {m : Op α} {s : State} {e : DriverError} {exs : List Exchange} {cut : Option Cut}
    (h : Fails m s e exs cut) : FailsTo m s s.ctx s.ds e exs cut := h

/-! ## Chains -/

theorem RunsTo.bind {α β : Type} {m : Op α} {f : α → Op β} {s : State} {a : α} {b : β} {c1 c2 : Ctx}
    {d1 d2 : DriverState} {e1 e2 : List Exchange} (h1 : RunsTo m s a c1 d1 e1)
    (h2 : ∀ r w, RunsTo (f a) ((s.put c1 d1).linked e1 r w) b c2 d2 e2) : RunsTo (m.bind f) s b c2 d2 (e1 ++ e2) := by
  intro rest hm
  obtain ⟨w1, hw1⟩ := h1 _ (meets_append hm)
  obtain ⟨w2, hw2⟩ := h2 _ w1 rest (linked_meets (s.put c1 d1) e1 e2 rest w1)
  exact ⟨w2, by rw [Op.bind_of_ok hw1, hw2]; exact congrArg _ (linked_linked (s.put c2 d2) e1 e2 _ rest w1 w2)⟩

theorem RunsTo.seq {α β : Type} {m : Op α} {n : Op β} {s : State} {a : α} {b : β} {c1 c2 : Ctx} {d1 d2 : DriverState}
    {e1 e2 : List Exchange} (h1 : RunsTo m s a c1 d1 e1)
    (h2 : ∀ r w, RunsTo n ((s.put c1 d1).linked e1 r w) b c2 d2 e2) : RunsTo (m.seq n) s b c2 d2 (e1 ++ e2) :=
  RunsTo.bind h1 h2

/-- A value handed on behind a rule that returned. -/
theorem RunsTo.thenRet {α β : Type} {m : Op α} {s : State} {a : α} {c : Ctx} {d : DriverState} {exs : List Exchange}
    (h : RunsTo m s a c d exs) (b : β) : RunsTo (m.seq (Op.ret b)) s b c d exs := by
  intro rest hm
  obtain ⟨w, hw⟩ := h rest hm
  exact ⟨w, by rw [Op.seq_of_ok hw, Op.ret_apply]⟩

theorem FailsTo.first {α β : Type} {m : Op α} {f : α → Op β} {s : State} {c : Ctx} {d : DriverState} {e : DriverError}
    {exs : List Exchange} {cut : Option Cut} (h : FailsTo m s c d e exs cut) : FailsTo (m.bind f) s c d e exs cut := by
  intro rest hm
  obtain ⟨w, k, hw, hk⟩ := h rest hm
  exact ⟨w, k, Op.bind_of_error hw, hk⟩

theorem FailsTo.first_seq {α β : Type} {m : Op α} {n : Op β} {s : State} {c : Ctx} {d : DriverState} {e : DriverError}
    {exs : List Exchange} {cut : Option Cut} (h : FailsTo m s c d e exs cut) : FailsTo (m.seq n) s c d e exs cut :=
  FailsTo.first h

theorem FailsTo.after {α β : Type} {m : Op α} {f : α → Op β} {s : State} {a : α} {c1 c2 : Ctx} {d1 d2 : DriverState}
    {e : DriverError} {e1 e2 : List Exchange} {cut : Option Cut} (h1 : RunsTo m s a c1 d1 e1)
    (h2 : ∀ r w, FailsTo (f a) ((s.put c1 d1).linked e1 r w) c2 d2 e e2 cut) :
    FailsTo (m.bind f) s c2 d2 e (e1 ++ e2) cut := by
  intro rest hm
  obtain ⟨w1, hw1⟩ := h1 _ (meetsCut_append hm)
  obtain ⟨w2, k, hw2, hk⟩ := h2 _ w1 rest rfl
  refine ⟨w2, k, ?_, fun hn => ?_⟩
  · rw [Op.bind_of_ok hw1, hw2]
    exact congrArg _ (linked_cutOff (s.put c2 d2) e1 e2 cut _ rest w1 w2 k)
  · rw [hk hn]
    rcases e1 with _ | ⟨x, e1⟩ <;> rcases e2 with _ | ⟨y, e2⟩ <;> simp [State.linked, State.put]

theorem FailsTo.after_seq {α β : Type} {m : Op α} {n : Op β} {s : State} {a : α} {c1 c2 : Ctx} {d1 d2 : DriverState}
    {e : DriverError} {e1 e2 : List Exchange} {cut : Option Cut} (h1 : RunsTo m s a c1 d1 e1)
    (h2 : ∀ r w, FailsTo n ((s.put c1 d1).linked e1 r w) c2 d2 e e2 cut) :
    FailsTo (m.seq n) s c2 d2 e (e1 ++ e2) cut := FailsTo.after h1 h2

theorem RunsTo.at {α : Type} {k : Nat} {m : Op α} {s : State} {a : α} {c : Ctx} {d : DriverState}
    {exs : List Exchange} (h : RunsTo m { s with seq := s.seq.into k } a c d exs) : RunsTo (Op.at k m) s a c d exs := by
  intro rest hm
  obtain ⟨w, hw⟩ := h rest hm
  exact ⟨w, Op.at_eq hw⟩

theorem FailsTo.at {α : Type} {k : Nat} {m : Op α} {s : State} {c : Ctx} {d : DriverState} {e : DriverError}
    {exs : List Exchange} {cut : Option Cut} (h : FailsTo m { s with seq := s.seq.into k } c d e exs cut) :
    FailsTo (Op.at k m) s c d e exs cut := by
  intro rest hm
  obtain ⟨w, x, hw, hc⟩ := h rest hm
  exact ⟨w, x, Op.at_eq hw, hc⟩

theorem FailsTo.of_eq {α : Type} {m m' : Op α} {s : State} {c : Ctx} {d : DriverState} {e : DriverError}
    {exs : List Exchange} {cut : Option Cut} (h : m s = m' s) (hf : FailsTo m' s c d e exs cut) :
    FailsTo m s c d e exs cut := by
  intro rest hm
  obtain ⟨w, x, hw, hc⟩ := hf rest hm
  exact ⟨w, x, by rw [h, hw], hc⟩

theorem RunsTo.of_eq {α : Type} {m m' : Op α} {s : State} {a : α} {c : Ctx} {d : DriverState} {exs : List Exchange}
    (h : m s = m' s) (hr : RunsTo m' s a c d exs) : RunsTo m s a c d exs := by
  intro rest hm
  obtain ⟨w, hw⟩ := hr rest hm
  exact ⟨w, by rw [h, hw]⟩

/-- A write to `ctx` and `ds` alone. -/
theorem RunsTo.assign {f : State → State} {s : State} {c : Ctx} {d : DriverState} (h : f s = s.put c d) :
    RunsTo (Op.assign f) s () c d [] := by
  intro rest hm
  have hr : s.script = rest := by simpa [State.meets] using hm
  exact ⟨s.work, by simp [h, State.put, State.linked, ← hr]⟩

/-- An operation whose rule fails along a transcript ends in that error (R260). -/
theorem runOp_failsTo {op : HostOp} {latch : Work → Work} {m : Op Value} {s : State} {c : Ctx} {d : DriverState}
    {e : DriverError} {exs : List Exchange} {cut : Option Cut} {rest : List PeerAnswer} (hs : s.seq = .idle)
    (h : FailsTo m (accept op latch s) c d e exs cut) (hm : s.meetsCut exs cut rest) :
    ∃ t, runOp op latch m s = .next t ∧ (s.put c d).failed t e exs cut rest := by
  obtain ⟨w, k, hw, hk⟩ := h rest hm
  refine ⟨_, runOp_idle hs, ?_⟩
  rw [hw]
  exact ⟨rfl, fun hn => hk hn⟩

/-! ## HSEND -/

theorem wrblkIfAny_runs {s : State} {a : Nat} {b : List Byte} {exs : List Exchange} (h : WritesBlockIfAny s a b exs) :
    Runs (wrblkIfAny a b) s () exs := by
  unfold wrblkIfAny
  rcases h with ⟨rfl, rfl⟩ | ⟨hn, hw⟩
  · exact Runs.ret _ _
  · rw [if_neg hn]; exact wrblk_runs hw

theorem WritesBlockIfAny_congr {s s' : State} (hp : s'.params = s.params) (hc : s'.crcDisabled = s.crcDisabled)
    {a : Nat} {b : List Byte} {exs : List Exchange} : WritesBlockIfAny s' a b exs ↔ WritesBlockIfAny s a b exs := by
  simp [WritesBlockIfAny, WritesBlock_congr hp hc]

theorem PollsBusy_congr {s s' : State} (hp : s'.params = s.params) (hc : s'.crcDisabled = s.crcDisabled)
    {exs : List Exchange} : PollsBusy s' exs ↔ PollsBusy s exs := by
  simp [PollsBusy, hp, ReadsReg_congr hp hc]

theorem BusyFails_congr {s s' : State} (hp : s'.params = s.params) (hc : s'.crcDisabled = s.crcDisabled)
    {e : DriverError} {exs : List Exchange} {cut : Option Cut} : BusyFails s' e exs cut ↔ BusyFails s e exs cut := by
  simp [BusyFails, hp, ReadsReg_congr hp hc, ReadsRegFails_congr hp hc]

theorem pollsBusy_runs {s : State} {exs : List Exchange} (h : PollsBusy s exs) :
    Runs (pollBusy Config.sendRetry) s () exs := by
  obtain ⟨busy, free, v, rfl, h1, h2, h3, h4⟩ := h
  exact pollBusy_runs h1 h2 h3 h4

theorem busy_fails {s : State} {e : DriverError} {exs : List Exchange} {cut : Option Cut} (h : BusyFails s e exs cut) :
    Fails (pollBusy Config.sendRetry) s e exs cut := by
  obtain ⟨busy, last, rfl, h1, h2⟩ := h
  exact pollBusy_fails h1 h2

theorem Allocates_congr {s s' : State} (hp : s'.params = s.params) (hc : s'.crcDisabled = s.crcDisabled)
    {h : HifHeader} {a : Word} {exs : List Exchange} : Allocates s' h a exs ↔ Allocates s h a exs := by
  simp [Allocates, hp, WritesReg_congr hp hc, PollsBusy_congr hp hc, ReadsReg_congr hp hc]

theorem SendsFails.congr {s s' : State} (hp : s'.params = s.params) (hc : s'.crcDisabled = s.crcDisabled)
    {h : HifHeader} {d c : List Byte} {e : DriverError} {exs : List Exchange} {cut : Option Cut}
    (hf : SendsFails s h d c e exs cut) : SendsFails s' h d c e exs cut := by
  cases hf with
  | header h1 =>
    exact .header (by simpa only [hp, WritesRegFails_congr hp hc] using h1)
  | flag h1 h2 =>
    exact .flag (by simpa only [hp, WritesReg_congr hp hc] using h1)
      (by simpa only [hp, WritesRegFails_congr hp hc] using h2)
  | busy h1 h2 h3 =>
    exact .busy (by simpa only [hp, WritesReg_congr hp hc] using h1)
      (by simpa only [hp, WritesReg_congr hp hc] using h2) ((BusyFails_congr hp hc).mpr h3)
  | address h1 h2 h3 h4 =>
    exact .address (by simpa only [hp, WritesReg_congr hp hc] using h1)
      (by simpa only [hp, WritesReg_congr hp hc] using h2) ((PollsBusy_congr hp hc).mpr h3)
      (by simpa only [hp, ReadsRegFails_congr hp hc] using h4)
  | headerBlock h1 h2 =>
    exact .headerBlock ((Allocates_congr hp hc).mpr h1) (h2.congr hp hc)
  | data h1 h2 h3 h4 =>
    exact .data ((Allocates_congr hp hc).mpr h1) ((WritesBlock_congr hp hc).mpr h2) h3 (h4.congr hp hc)
  | ctrl h1 h2 h3 h4 h5 =>
    exact .ctrl ((Allocates_congr hp hc).mpr h1) ((WritesBlock_congr hp hc).mpr h2)
      ((WritesBlockIfAny_congr hp hc).mpr h3) h4 (h5.congr hp hc)
  | commit h1 h2 h3 h4 h5 =>
    exact .commit ((Allocates_congr hp hc).mpr h1) ((WritesBlock_congr hp hc).mpr h2)
      ((WritesBlockIfAny_congr hp hc).mpr h3) ((WritesBlockIfAny_congr hp hc).mpr h4)
      (by simpa only [hp, WritesRegFails_congr hp hc] using h5)

/-- HSEND along a failing transcript (R190, R262). -/
theorem hsend_fails {s : State} {h : HifHeader} {d c : List Byte} {e : DriverError} {exs : List Exchange}
    {cut : Option Cut} (hf : SendsFails s h d c e exs cut) : Fails (hsend h d c) s e exs cut := by
  have s1 : ∀ {e1 : List Exchange} {t : State}, t.params = s.params → t.crcDisabled = s.crcDisabled →
      WritesReg s s.params.regHifHdr (hdrPack h) e1 → Runs (Op.at 1 (wrreg s.params.regHifHdr (hdrPack h))) t () e1 :=
    fun hp hc hw => (Runs.at (wrreg_runs ((WritesReg_congr hp hc).mpr hw)))
  have s2 : ∀ {e1 : List Exchange} {t : State}, t.params = s.params → t.crcDisabled = s.crcDisabled →
      WritesReg s s.params.regTxCtrl (1#32 <<< s.params.txFlagBit) e1 →
      Runs (Op.at 2 (wrreg s.params.regTxCtrl (bitMask s.params.txFlagBit))) t () e1 :=
    fun hp hc hw => (Runs.at (wrreg_runs ((WritesReg_congr hp hc).mpr hw)))
  have s3 : ∀ {e1 : List Exchange} {t : State}, t.params = s.params → t.crcDisabled = s.crcDisabled →
      PollsBusy s e1 → Runs (Op.at 3 (pollBusy Config.sendRetry)) t () e1 :=
    fun hp hc hw => (Runs.at (pollsBusy_runs ((PollsBusy_congr hp hc).mpr hw)))
  have s4 : ∀ {a : Word} {e1 : List Exchange} {t : State}, t.params = s.params → t.crcDisabled = s.crcDisabled →
      ReadsReg s s.params.regTxAddr a e1 → Runs (Op.at 4 (rdreg s.params.regTxAddr)) t a e1 :=
    fun hp hc hw => (Runs.at (rdreg_runs ((ReadsReg_congr hp hc).mpr hw)))
  have s5 : ∀ {k x : Nat} {b : List Byte} {e1 : List Exchange} {t : State}, t.params = s.params →
      t.crcDisabled = s.crcDisabled → WritesBlock s x b e1 → Runs (Op.at k (wrblk x b)) t () e1 :=
    fun hp hc hw => (Runs.at (wrblk_runs ((WritesBlock_congr hp hc).mpr hw)))
  have s6 : ∀ {k x : Nat} {b : List Byte} {e1 : List Exchange} {t : State}, t.params = s.params →
      t.crcDisabled = s.crcDisabled → WritesBlockIfAny s x b e1 → Runs (Op.at k (wrblkIfAny x b)) t () e1 :=
    fun hp hc hw => (Runs.at (wrblkIfAny_runs ((WritesBlockIfAny_congr hp hc).mpr hw)))
  have f6 : ∀ {k x : Nat} {b : List Byte} {e1 : List Exchange} {t : State}, t.params = s.params →
      t.crcDisabled = s.crcDisabled → b ≠ [] → WritesBlockFails s x b e e1 cut →
      Fails (Op.at k (wrblkIfAny x b)) t e e1 cut := by
    intro k x b e1 t hp hc hb hw
    unfold wrblkIfAny
    rw [if_neg hb]
    exact (Fails.at (wrblk_fails (hw.congr (by exact hp) (by exact hc))))
  refine Fails.of_eq (m' := (Op.at 1 (wrreg s.params.regHifHdr (hdrPack h))).seq
    ((Op.at 2 (wrreg s.params.regTxCtrl (bitMask s.params.txFlagBit))).seq
      ((Op.at 3 (pollBusy Config.sendRetry)).seq
        ((Op.at 4 (rdreg s.params.regTxAddr)).bind fun a =>
          (Op.at 5 (wrblk a.toNat (hdrToBytes h))).seq
            ((Op.at 6 (wrblkIfAny (a.toNat + Config.hifHdrLen) d)).seq
              ((Op.at 7 (wrblkIfAny (a.toNat + Config.hifHdrLen + d.length) c)).seq
                (Op.at 8 (wrreg s.params.regTxCommit (commitWord s.params a))))))))) rfl ?_
  have alloc : ∀ {a : Word} {e1 e2 : List Exchange} {f : Word → Op Unit}, Allocates s h a e1 →
      (∀ r w, Fails (f a) (s.linked e1 r w) e e2 cut) →
      Fails ((Op.at 1 (wrreg s.params.regHifHdr (hdrPack h))).seq
        ((Op.at 2 (wrreg s.params.regTxCtrl (bitMask s.params.txFlagBit))).seq
          ((Op.at 3 (pollBusy Config.sendRetry)).seq ((Op.at 4 (rdreg s.params.regTxAddr)).bind f)))) s e
        (e1 ++ e2) cut := by
    rintro a _ e2 f ⟨x1, x2, x3, x4, rfl, h1, h2, h3, h4⟩ hf
    simp only [List.append_assoc]
    refine Fails.after_seq (s1 rfl rfl h1) fun _ _ => Fails.after_seq (s2 rfl rfl h2) fun _ _ => ?_
    refine Fails.after_seq (s3 rfl rfl h3) fun _ _ => Fails.after (s4 rfl rfl h4) fun r w => ?_
    simpa only [linked_linked, List.append_assoc] using hf r w
  cases hf with
  | header h1 => exact Fails.first_seq (Fails.at (wrreg_fails ((WritesRegFails_congr rfl rfl).mpr h1)))
  | flag h1 h2 =>
    exact Fails.after_seq (s1 rfl rfl h1) fun _ _ =>
      Fails.first_seq (Fails.at (wrreg_fails ((WritesRegFails_congr rfl rfl).mpr h2)))
  | busy h1 h2 h3 =>
    refine Fails.after_seq (s1 rfl rfl h1) fun _ _ => Fails.after_seq (s2 rfl rfl h2) fun _ _ => ?_
    exact Fails.first_seq (Fails.at (busy_fails ((BusyFails_congr rfl rfl).mpr h3)))
  | address h1 h2 h3 h4 =>
    refine Fails.after_seq (s1 rfl rfl h1) fun _ _ => Fails.after_seq (s2 rfl rfl h2) fun _ _ => ?_
    refine Fails.after_seq (s3 rfl rfl h3) fun _ _ => ?_
    exact Fails.first (Fails.at (rdreg_fails ((ReadsRegFails_congr rfl rfl).mpr h4)))
  | headerBlock h1 h2 => exact alloc h1 fun _ _ => Fails.first_seq (Fails.at (wrblk_fails (h2.congr (by rfl) (by rfl))))
  | data h1 h2 hd h3 =>
    exact alloc h1 fun _ _ => Fails.after_seq (s5 rfl rfl h2) fun _ _ => Fails.first_seq (f6 rfl rfl hd h3)
  | ctrl h1 h2 h3 hc h4 =>
    exact alloc h1 fun _ _ => Fails.after_seq (s5 rfl rfl h2) fun _ _ => Fails.after_seq (s6 rfl rfl h3) fun _ _ =>
      Fails.first_seq (f6 rfl rfl hc h4)
  | commit h1 h2 h3 h4 h5 =>
    exact alloc h1 fun _ _ => Fails.after_seq (s5 rfl rfl h2) fun _ _ => Fails.after_seq (s6 rfl rfl h3) fun _ _ =>
      Fails.after_seq (s6 rfl rfl h4) fun _ _ => (Fails.at (wrreg_fails ((WritesRegFails_congr rfl rfl).mpr h5)))

/-! ## HFIN and HRECV -/

theorem FinishesIf_congr {s s' : State} (hp : s'.params = s.params) (hc : s'.crcDisabled = s.crcDisabled) {q : Prop}
    {exs : List Exchange} : FinishesIf s' q exs ↔ FinishesIf s q exs := by
  simp [FinishesIf, Finishes_congr hp hc]

/-- The packet context after HFIN. -/
def Ctx.closed (c : Ctx) : Ctx := { c with readDone := true }

theorem hfin_runsTo {s : State} {exs : List Exchange} (h : Finishes s exs) :
    RunsTo hfin s () s.ctx.closed s.ds exs := fun _ hm => hfin_runs h hm

theorem hfin_failsTo {s : State} {e : DriverError} {exs : List Exchange} {cut : Option Cut}
    (h : FinishesFails s e exs cut) : FailsTo hfin s s.ctx.closed s.ds e exs cut := fun _ hm => hfin_fails h hm

/-- The chain HRECV is at a state where both checks pass (R204). -/
theorem hrecv_of_checks {s : State} {a n : Nat} (h1 : n ≤ s.ctx.readSize.toNat) (h2 : s.ctx.readAddr.toNat ≤ a)
    (h3 : a + n ≤ s.ctx.readAddr.toNat + s.ctx.readSize.toNat) :
    hrecv a n s = ((Op.at 3 (rdblk a n)).bind fun d => (Op.at 4 (finishAtEnd a n)).seq (Op.ret d)) s := by
  have c1 : sizeCheck s.ctx n = .ok () := by simp [sizeCheck, Nat.not_lt.mpr h1]
  have c2 : windowCheck s.ctx a n = .ok () := by
    unfold windowCheck
    rw [if_neg (by omega)]
  unfold hrecv
  rw [Op.seq_of_ok (s' := s) (a := ()) (by rw [Op.at_check, c1]),
    Op.seq_of_ok (s' := s) (a := ()) (by rw [Op.at_check, c2])]

/-- HRECV whose block read fails (R208, R262). -/
theorem hrecv_read_fails {s : State} {a n : Nat} {e : DriverError} {exs : List Exchange} {cut : Option Cut}
    (h1 : n ≤ s.ctx.readSize.toNat) (h2 : s.ctx.readAddr.toNat ≤ a)
    (h3 : a + n ≤ s.ctx.readAddr.toNat + s.ctx.readSize.toNat) (h : ReadsBlockFails s a n e exs cut) :
    Fails (hrecv a n) s e exs cut :=
  Fails.of_eq (hrecv_of_checks h1 h2 h3) (Fails.first (Fails.at (rdblk_fails (h.congr (by rfl) (by rfl)))))

/-- HRECV whose HFIN fails (R208, R262). -/
theorem hrecv_release_fails {s : State} {a n : Nat} {d : List Byte} {e : DriverError} {e1 e2 : List Exchange}
    {cut : Option Cut} (h1 : n ≤ s.ctx.readSize.toNat) (h2 : s.ctx.readAddr.toNat ≤ a)
    (h3 : a + n = s.ctx.readAddr.toNat + s.ctx.readSize.toNat) (hr : ReadsBlock s a n d e1)
    (h : FinishesFails s e e2 cut) : FailsTo (hrecv a n) s s.ctx.closed s.ds e (e1 ++ e2) cut := by
  refine FailsTo.of_eq (hrecv_of_checks h1 h2 h3.le) ?_
  refine FailsTo.after (Runs.to (Runs.at (rdblk_runs (ReadsBlock_congr rfl rfl |>.mpr hr)))) fun r w => FailsTo.first_seq ?_
  refine FailsTo.at (FailsTo.of_eq (m' := hfin) ?_ (hfin_failsTo (FinishesFails_congr rfl rfl |>.mpr h)))
  exact if_pos h3.ge

/-- HRECV that returns (R204, R208). -/
theorem hrecv_runsTo {s : State} {a n : Nat} {d : List Byte} {e1 e2 : List Exchange}
    (h1 : n ≤ s.ctx.readSize.toNat) (h2 : s.ctx.readAddr.toNat ≤ a)
    (h3 : a + n ≤ s.ctx.readAddr.toNat + s.ctx.readSize.toNat) (hr : ReadsBlock s a n d e1)
    (hf : FinishesIf s (a + n = s.ctx.readAddr.toNat + s.ctx.readSize.toNat) e2) :
    RunsTo (hrecv a n) s d { s.ctx with
      readDone := s.ctx.readDone || decide (a + n = s.ctx.readAddr.toNat + s.ctx.readSize.toNat) } s.ds (e1 ++ e2) := by
  refine RunsTo.of_eq (hrecv_of_checks h1 h2 h3) ?_
  refine RunsTo.bind (Runs.to (Runs.at (rdblk_runs (ReadsBlock_congr rfl rfl |>.mpr hr)))) fun r w => ?_
  have key : RunsTo (Op.at 4 (finishAtEnd a n)) (s.linked e1 r w) () { s.ctx with
      readDone := s.ctx.readDone || decide (a + n = s.ctx.readAddr.toNat + s.ctx.readSize.toNat) } s.ds e2 := by
    rcases hf with ⟨he, hf⟩ | ⟨hn, rfl⟩
    · refine RunsTo.at (RunsTo.of_eq (m' := hfin) (if_pos (Nat.le_of_eq he.symm)) ?_)
      simp only [he, decide_true, Bool.or_true]
      exact hfin_runsTo (Finishes_congr rfl rfl |>.mpr hf)
    · refine RunsTo.at (RunsTo.of_eq (m' := Op.ret ()) (if_neg (by simp; omega)) ?_)
      simp only [hn, decide_false, Bool.or_false]
      exact (Runs.ret () _).to
  exact key.thenRet d

/-- HRECV whose size check or containment check fails (R205, R206, R251, R252). -/
theorem hrecv_check_fails {s : State} {a n : Nat} (h : s.ctx.readSize.toNat < n ∨ a < s.ctx.readAddr.toNat ∨
    s.ctx.readAddr.toNat + s.ctx.readSize.toNat < a + n) :
    Fails (hrecv a n) s (.hif (if s.ctx.readSize.toNat < n then .sizeMismatch n s.ctx.readSize.toNat
      else .addressMismatch a s.ctx.readAddr.toNat)) [] none := by
  by_cases h1 : s.ctx.readSize.toNat < n
  · rw [if_pos h1]
    exact Fails.of_eq rfl (Fails.first_seq (Fails.at (Fails.check (by simp [sizeCheck, h1]) _)))
  · rw [if_neg h1]
    refine Fails.of_eq (m' := (Op.at 1 (Op.check (sizeCheck s.ctx n))).seq
      ((Op.at 2 (Op.check (windowCheck s.ctx a n))).seq ((Op.at 3 (rdblk a n)).bind fun d =>
        (Op.at 4 (finishAtEnd a n)).seq (Op.ret d)))) rfl ?_
    refine Fails.after_seq (e1 := []) (a := ()) (Runs.at (Runs.check (by simp [sizeCheck, h1]) _)) fun _ _ => ?_
    refine Fails.first_seq (Fails.at (Fails.check ?_ _))
    unfold windowCheck
    rw [if_pos (h.resolve_left h1)]

/-! ## Dispatch -/

/-- A command is a no-op of dispatch, or one read of its payload and the write of its sink register (R213 to R221). -/
theorem dispatch_cases (cmd : Option Command) :
    (payloadSize cmd = none ∧ (∀ pa, dispatch cmd pa = Op.ret ()) ∧ ∀ (s : State) b, sinkAfter s cmd b = s.ds) ∨
    ∃ k f, payloadSize cmd = some k ∧ (∀ pa, dispatch cmd pa = handler pa k f) ∧
      ∀ (s s' : State) b, s'.params = s.params → s'.ds = s.ds → f b s' = { s' with ds := sinkAfter s cmd b } := by
  rcases cmd with _ | ⟨v | v⟩
  · exact Or.inl ⟨rfl, fun _ => rfl, fun _ _ => rfl⟩
  · cases v with
    | respConStateChanged =>
      refine Or.inr ⟨4, applyConState, rfl, fun _ => rfl, fun s s' b h1 h2 => ?_⟩
      simp only [applyConState, sinkAfter, decodeConState, h1, h2]
      split_ifs <;> simp only [conStatusOf]
      · cases s.ds.mode <;> rfl
      · cases s.ds.mode <;> rfl
      · rw [← h2, ← h1]
    | respGetSysTime =>
      exact Or.inr ⟨8, applySysTime, rfl, fun _ => rfl, fun s s' b _ h2 => by simp [applySysTime, sinkAfter, h2]⟩
    | respConnInfo =>
      exact Or.inr ⟨48, applyConnInfo, rfl, fun _ => rfl, fun s s' b _ h2 => by simp [applyConnInfo, sinkAfter, h2]⟩
    | respScanResult =>
      exact Or.inr ⟨44, applyScanResult, rfl, fun _ => rfl, fun s s' b _ h2 => by
        simp [applyScanResult, sinkAfter, h2, scanOf]⟩
    | named n => exact Or.inl ⟨rfl, fun _ => rfl, fun _ _ => rfl⟩
    | invalid => exact Or.inl ⟨rfl, fun _ => rfl, fun _ _ => rfl⟩
  · exact Or.inl ⟨rfl, fun _ => rfl, fun _ _ => rfl⟩

/-- A handler that returns (R214). -/
theorem handler_runsTo {s : State} {k : Nat} {f : List Byte → State → State} {b : List Byte} {d : DriverState}
    {e1 e2 : List Exchange} (hk : 8 + k ≤ s.ctx.readSize.toNat)
    (hr : ReadsBlock s (s.ctx.readAddr.toNat + 8) k b e1) (hf : FinishesIf s (s.ctx.readSize.toNat = 8 + k) e2)
    (hd : ∀ s' : State, s'.params = s.params → s'.ds = s.ds → f b s' = { s' with ds := d }) :
    RunsTo (handler (s.ctx.readAddr.toNat + 8) k f) s ()
      { s.ctx with readDone := s.ctx.readDone || decide (s.ctx.readSize.toNat = 8 + k) } d (e1 ++ e2) := by
  have he : (s.ctx.readAddr.toNat + 8 + k = s.ctx.readAddr.toNat + s.ctx.readSize.toNat) =
      (s.ctx.readSize.toNat = 8 + k) := propext (by omega)
  have h := hrecv_runsTo (by omega) (by omega) (by omega) hr (by rw [he]; exact hf)
  simp only [he] at h
  have := RunsTo.bind (f := fun b => Op.assign (f b)) h (e2 := []) fun r w => RunsTo.assign (d := d) (hd _ rfl rfl)
  rw [List.append_nil] at this
  exact this

/-- The release of HISR's step 7, where it is needed (R203). -/
theorem finishIfOpen_runsTo {s : State} {exs : List Exchange} (h : FinishesIf s (s.ctx.readDone = false) exs) :
    RunsTo finishIfOpen s () s.ctx.closed s.ds exs := by
  rcases h with ⟨hn, hf⟩ | ⟨hn, rfl⟩
  · exact RunsTo.of_eq (if_pos hn) (hfin_runsTo hf)
  · have e : s.ctx.closed = s.ctx := by
      have hd : s.ctx.readDone = true := by simpa using hn
      rw [Ctx.closed, ← hd]
    rw [e]
    exact RunsTo.of_eq (if_neg hn) (Runs.ret () s).to

theorem finishIfOpen_failsTo {s : State} {e : DriverError} {exs : List Exchange} {cut : Option Cut}
    (hd : s.ctx.readDone = false) (h : FinishesFails s e exs cut) :
    FailsTo finishIfOpen s s.ctx.closed s.ds e exs cut := FailsTo.of_eq (if_pos hd) (hfin_failsTo h)

/-- The chain of HISR's steps 6 and 7 at a state. -/
theorem servicePacket_eq (cmd : Option Command) (s : State) : servicePacket cmd s =
    ((Op.at 6 (dispatch cmd (s.ctx.readAddr.toNat + 8))).seq
      ((Op.at 7 finishIfOpen).seq (Op.ret (.command cmd)))) s := rfl

theorem ServiceFails.congr {s s' : State} (hp : s'.params = s.params) (hc : s'.crcDisabled = s.crcDisabled)
    (hx : s'.ctx = s.ctx) (hd : s'.ds = s.ds) {cmd : Option Command} {c : Ctx} {d : DriverState} {e : DriverError}
    {exs : List Exchange} {cut : Option Cut} (h : ServiceFails s cmd c d e exs cut) :
    ServiceFails s' cmd c d e exs cut := by
  have hsink : ∀ b, sinkAfter s cmd b = sinkAfter s' cmd b := fun b => by
    unfold sinkAfter; split <;> simp [hp, hd]
  cases h <;> simp only [← hx, ← hd, hsink] at *
  · exact .short ‹_› ‹_›
  · exact .payload ‹_› ‹_› (ReadsBlockFails.congr hp hc ‹_›)
  · exact .releaseInHandler ‹_› ‹_› ((ReadsBlock_congr hp hc).mpr ‹_›) ((FinishesFails_congr hp hc).mpr ‹_›)
  · exact .releaseAfterHandler ‹_› ‹_› ‹_› ((ReadsBlock_congr hp hc).mpr ‹_›) ((FinishesFails_congr hp hc).mpr ‹_›)
  · exact .releaseUnhandled ‹_› ‹_› ((FinishesFails_congr hp hc).mpr ‹_›)

/-- HISR's steps 6 and 7 along a failing transcript (R262). -/
theorem servicePacket_fails {s : State} {cmd : Option Command} {c : Ctx} {d : DriverState} {e : DriverError}
    {exs : List Exchange} {cut : Option Cut} (h : ServiceFails s cmd c d e exs cut) :
    FailsTo (servicePacket cmd) s c d e exs cut := by
  refine FailsTo.of_eq (servicePacket_eq cmd s) ?_
  rcases dispatch_cases cmd with ⟨hn, hd, hsink⟩ | ⟨k, f, hk, hd, hf⟩ <;> rw [hd]
  · cases h with
    | short h1 => simp [hn] at h1
    | payload h1 => simp [hn] at h1
    | releaseInHandler h1 => simp [hn] at h1
    | releaseAfterHandler h1 => simp [hn] at h1
    | releaseUnhandled _ h2 h3 =>
      refine FailsTo.after_seq (e1 := []) (RunsTo.at (Runs.to (Runs.ret () _))) fun _ _ => FailsTo.first_seq ?_
      exact FailsTo.at (finishIfOpen_failsTo (by exact h2) ((FinishesFails_congr rfl rfl).mpr h3))
  · cases h with
    | short h1 h2 =>
      obtain rfl : k = _ := by simpa [hk] using h1
      refine FailsTo.first_seq (FailsTo.at (FailsTo.first (Fails.to (hrecv_check_fails (s := { s with seq := _ }) ?_))))
      by_cases hlt : s.ctx.readSize.toNat < k
      · exact Or.inl hlt
      · exact Or.inr (Or.inr (by simp; omega))
    | payload h1 h2 h3 =>
      obtain rfl : k = _ := by simpa [hk] using h1
      refine FailsTo.first_seq (FailsTo.at (FailsTo.first (Fails.to (hrecv_read_fails (s := { s with seq := _ })
        (by simp; omega) (by simp) (by simp; omega) (h3.congr (by rfl) (by rfl))))))
    | releaseInHandler h1 h2 h3 h4 =>
      obtain rfl : k = _ := by simpa [hk] using h1
      refine FailsTo.first_seq (FailsTo.at (FailsTo.first (hrecv_release_fails (s := { s with seq := _ })
        (by simp; omega) (by simp) (by simp; omega) ((ReadsBlock_congr rfl rfl).mpr h3)
        ((FinishesFails_congr rfl rfl).mpr h4))))
    | releaseAfterHandler h1 h2 h3 h4 h5 =>
      obtain rfl : k = _ := by simpa [hk] using h1
      have hrun := handler_runsTo (s := { s with seq := s.seq.into 6 }) (f := f) (e2 := []) (by exact h2.le)
        ((ReadsBlock_congr rfl rfl).mpr h4) (Or.inr ⟨by simp; omega, rfl⟩) (hf s · _ · ·)
      refine FailsTo.after_seq (by simpa using RunsTo.at hrun) fun _ _ => FailsTo.first_seq ?_
      refine FailsTo.at (finishIfOpen_failsTo ?_ ((FinishesFails_congr rfl rfl).mpr h5))
      simp [State.put, h3]; omega
    | releaseUnhandled h1 => simp [hk] at h1

/-- HISR's steps 6 and 7 along a good transcript (R203). -/
theorem servicePacket_runsTo {s : State} {cmd : Option Command} {b : List Byte} {exs : List Exchange}
    (h : Services s cmd b exs) : RunsTo (servicePacket cmd) s (.command cmd) s.ctx.closed (sinkAfter s cmd b) exs := by
  refine RunsTo.of_eq (servicePacket_eq cmd s) ?_
  have last : ∀ {t : State} {e : List Exchange}, FinishesIf t (t.ctx.readDone = false) e →
      RunsTo ((Op.at 7 finishIfOpen).seq (Op.ret (Value.command cmd))) t (Value.command cmd) t.ctx.closed t.ds e := by
    intro t e h
    refine RunsTo.thenRet (a := ()) (RunsTo.at ?_) _
    exact finishIfOpen_runsTo (s := { t with seq := t.seq.into 7 }) ((FinishesIf_congr rfl rfl).mpr h)
  rcases dispatch_cases cmd with ⟨hn, hd, hsink⟩ | ⟨k, f, hk, hd, hf⟩ <;> rw [hd]
  · simp only [Services, hn] at h
    rw [hsink]
    refine RunsTo.seq (e1 := []) (RunsTo.at (Runs.to (Runs.ret () _))) fun _ _ => ?_
    exact last ((FinishesIf_congr rfl rfl).mpr h.2)
  · simp only [Services, hk] at h
    obtain ⟨hle, e1, e2, rfl, hr, hfin⟩ := h
    by_cases he : s.ctx.readSize.toNat = 8 + k
    · have hf2 : Finishes s e2 := by
        rcases hfin with ⟨_, h⟩ | ⟨h, _⟩
        · exact h
        · exact absurd (Or.inr he) h
      have hrun := handler_runsTo (s := { s with seq := s.seq.into 6 }) (f := f) hle ((ReadsBlock_congr rfl rfl).mpr hr)
        (Or.inl ⟨he, (Finishes_congr rfl rfl).mpr hf2⟩) (hf s · _ · ·)
      simp only [he, decide_true, Bool.or_true] at hrun
      have hrel : ∀ r w, RunsTo ((Op.at 7 finishIfOpen).seq (Op.ret (Value.command cmd)))
          ((s.put s.ctx.closed (sinkAfter s cmd b)).linked (e1 ++ e2) r w) (Value.command cmd) s.ctx.closed
          (sinkAfter s cmd b) [] := by
        intro r w
        refine last (t := (s.put s.ctx.closed (sinkAfter s cmd b)).linked (e1 ++ e2) r w) (Or.inr ⟨?_, rfl⟩)
        simp [State.put, Ctx.closed]
      have := RunsTo.seq (RunsTo.at hrun) hrel
      rw [List.append_nil] at this
      exact this
    · have hrun := handler_runsTo (s := { s with seq := s.seq.into 6 }) (f := f) (e2 := []) hle
        ((ReadsBlock_congr rfl rfl).mpr hr) (Or.inr ⟨he, rfl⟩) (hf s · _ · ·)
      simp only [he, decide_false, Bool.or_false, List.append_nil] at hrun
      refine RunsTo.seq (RunsTo.at hrun) fun r w => last ((FinishesIf_congr (s := s) rfl rfl).mpr ?_)
      rcases hfin with ⟨x, y⟩ | ⟨x, y⟩
      · exact Or.inl ⟨x.resolve_right he, y⟩
      · exact Or.inr ⟨fun z => x (Or.inl z), y⟩

/-! ## HISR -/

/-- The announced size is bits 13:2 of the word read (R196). -/
theorem sizeField_toNat (reg : Word) : (sizeField reg).toNat = reg.toNat / 4 % 4096 := by
  simp [sizeField, BitVec.toNat_and, BitVec.toNat_ushiftRight, Nat.shiftRight_eq_div_pow]
  exact Nat.and_two_pow_sub_one_eq_mod _ 12

/-- HISR's chain from step 2 on, at a state. -/
def hisrClaimed (s : State) (reg : Word) : Op Value :=
  (Op.at 2 (wrreg s.params.regRcvCtrl0 (clearBit reg s.params.newDataBit))).seq
    ((Op.at 3 (Op.assign (setReadDone false))).seq
      ((Op.at 4 (Op.ret (sizeField reg))).bind fun size =>
        if size = 0 then (Op.at 7 finishIfOpen).seq (Op.ret (.command none))
        else (Op.at 5 (fetchHeader size)).bind fun h => servicePacket (routeHeader s.params h)))

theorem hisr_eq (s : State) : hisr s = ((Op.at 1 (rdreg s.params.regRcvCtrl0)).bind fun reg =>
    if bitOf reg s.params.newDataBit = false then Op.ret (.command none) else hisrClaimed s reg) s := rfl

/-- The chain of step 5 at a state (R198). -/
theorem fetchHeader_eq (size : Word) (s : State) : fetchHeader size s = ((rdreg s.params.regRcvCtrl1).bind fun addr =>
    (Op.assign fun s => { s with ctx := { s.ctx with readAddr := addr, readSize := size } }).seq
      ((rdblk addr.toNat 4).bind fun hb => Op.ret (hdrFromBytes hb))) s := rfl

theorem Claims_congr {s s' : State} (hp : s'.params = s.params) (hc : s'.crcDisabled = s.crcDisabled) {reg : Word}
    {exs : List Exchange} : Claims s' reg exs ↔ Claims s reg exs := by
  simp [Claims, hp, ReadsReg_congr hp hc, WritesReg_congr hp hc]

theorem Announces_congr {s s' : State} (hp : s'.params = s.params) (hc : s'.crcDisabled = s.crcDisabled)
    {size addr : Word} {hb : List Byte} {exs : List Exchange} :
    Announces s' size addr hb exs ↔ Announces s size addr hb exs := by
  simp [Announces, hp, ReadsReg_congr hp hc, WritesReg_congr hp hc, ReadsBlock_congr hp hc]

theorem HisrFails.congr {s s' : State} (hp : s'.params = s.params) (hc : s'.crcDisabled = s.crcDisabled)
    (hx : s'.ctx = s.ctx) (hd : s'.ds = s.ds) {c : Ctx} {d : DriverState} {e : DriverError} {exs : List Exchange}
    {cut : Option Cut} (h : HisrFails s c d e exs cut) : HisrFails s' c d e exs cut := by
  cases h with
  | read h1 => rw [← hx, ← hd]; exact .read (by simpa only [hp, ReadsRegFails_congr hp hc] using h1)
  | claim h1 h2 h3 =>
    rw [← hx, ← hd]
    exact .claim (by simpa only [hp, ReadsReg_congr hp hc] using h1) (by rwa [hp]) (by simpa only [hp, WritesRegFails_congr hp hc] using h3)
  | releaseEmpty h1 h2 h3 =>
    rw [← hx, ← hd]
    exact .releaseEmpty ((Claims_congr hp hc).mpr h1) h2 ((FinishesFails_congr hp hc).mpr h3)
  | address h1 h2 h3 =>
    rw [← hx, ← hd]
    exact .address ((Claims_congr hp hc).mpr h1) h2 (by simpa only [hp, ReadsRegFails_congr hp hc] using h3)
  | header h1 h2 h3 h4 h5 =>
    rw [← hd]
    exact .header ((Claims_congr hp hc).mpr h1) h2 h3 (by simpa only [hp, ReadsReg_congr hp hc] using h4) (h5.congr hp hc)
  | @service addr size hb e1 _ _ _ _ _ h1 h2 =>
    have hcmd : headerCommand s hb = headerCommand s' hb := by simp [headerCommand, hp]
    refine .service ((Announces_congr hp hc).mpr h1) ?_
    rw [← hcmd]
    exact h2.congr (by exact hp) (by exact hc) (by rfl) (by exact hd)

/-- HISR behind its claim: what steps 4 to 7 fail with, HISR fails with. -/
theorem hisr_claimed_fails {s : State} {reg : Word} {c : Ctx} {d : DriverState} {e : DriverError}
    {e1 e2 : List Exchange} {cut : Option Cut} (hc : Claims s reg e1)
    (h : ∀ r w, FailsTo (if sizeField reg = 0 then (Op.at 7 finishIfOpen).seq (Op.ret (.command none))
      else (Op.at 5 (fetchHeader (sizeField reg))).bind fun h => servicePacket (routeHeader s.params h))
      ((setReadDone false s).linked e1 r w) c d e e2 cut) : FailsTo hisr s c d e (e1 ++ e2) cut := by
  obtain ⟨x1, x2, rfl, h1, hb, h2⟩ := hc
  refine FailsTo.of_eq (hisr_eq s) ?_
  rw [List.append_assoc]
  refine FailsTo.after (Runs.to (Runs.at (rdreg_runs ((ReadsReg_congr rfl rfl).mpr h1)))) fun r1 w1 => ?_
  rw [if_neg (by simp [bitOf, hb])]
  refine FailsTo.after_seq (Runs.to (Runs.at (wrreg_runs ((WritesReg_congr rfl rfl).mpr h2)))) fun r2 w2 => ?_
  refine FailsTo.after_seq (e1 := []) (e2 := e2) (RunsTo.at (RunsTo.assign rfl)) fun r3 w3 => ?_
  refine FailsTo.after (e1 := []) (e2 := e2) (Runs.to (Runs.at (Runs.ret _ _))) fun r w => ?_
  have := h r w
  rw [← List.append_nil (x1 ++ x2), ← linked_linked (r1 := r3) (w1 := w3), ← List.append_nil (x1 ++ x2),
    ← linked_linked (r1 := r2) (w1 := w2), ← linked_linked (r1 := r1) (w1 := w1)] at this
  exact this

/-- HISR along a failing transcript: one row of R262 each. -/
theorem hisr_fails {s : State} {c : Ctx} {d : DriverState} {e : DriverError} {exs : List Exchange} {cut : Option Cut}
    (h : HisrFails s c d e exs cut) : FailsTo hisr s c d e exs cut := by
  cases h with
  | read h =>
    exact FailsTo.of_eq (hisr_eq s) (FailsTo.first (Fails.to (Fails.at (rdreg_fails ((ReadsRegFails_congr rfl rfl).mpr h)))))
  | claim h1 hb h =>
    refine FailsTo.of_eq (hisr_eq s) ?_
    refine FailsTo.after (Runs.to (Runs.at (rdreg_runs ((ReadsReg_congr rfl rfl).mpr h1)))) fun _ _ => ?_
    rw [if_neg (by simp [bitOf, hb])]
    exact FailsTo.first_seq (Fails.to (Fails.at (wrreg_fails ((WritesRegFails_congr rfl rfl).mpr h))))
  | releaseEmpty hc hz h =>
    refine hisr_claimed_fails hc fun _ _ => ?_
    rw [if_pos (BitVec.eq_of_toNat_eq (by rw [sizeField_toNat, hz]; rfl))]
    refine FailsTo.first_seq (FailsTo.at (finishIfOpen_failsTo (by rfl) ((FinishesFails_congr rfl rfl).mpr h)))
  | @address reg e1 e exs cut hc hz h =>
    refine hisr_claimed_fails hc fun _ _ => ?_
    rw [if_neg (fun h0 => hz (by rw [← sizeField_toNat, h0]; rfl))]
    refine FailsTo.first (FailsTo.at (FailsTo.of_eq (fetchHeader_eq _ _) (FailsTo.first (Fails.to ?_))))
    exact rdreg_fails ((ReadsRegFails_congr rfl rfl).mpr h)
  | @header reg addr size e1 e2 e exs cut hc hsz hz h1 h =>
    obtain rfl : sizeField reg = size := BitVec.eq_of_toNat_eq (by rw [sizeField_toNat, hsz])
    refine hisr_claimed_fails hc fun _ _ => ?_
    rw [if_neg hz]
    refine FailsTo.first (FailsTo.at (FailsTo.of_eq (fetchHeader_eq _ _) ?_))
    refine FailsTo.after (Runs.to (rdreg_runs ((ReadsReg_congr rfl rfl).mpr h1))) fun _ _ => ?_
    refine FailsTo.after_seq (e1 := []) (RunsTo.assign rfl) fun _ _ => ?_
    exact FailsTo.first (Fails.to (rdblk_fails (h.congr (by rfl) (by rfl))))
  | @service addr size hb e1 ctx ds e exs cut ha h =>
    obtain ⟨reg, x1, x2, x3, x4, rfl, hbit, hsz, hz, h1, h2, h3, h4⟩ := ha
    obtain rfl : sizeField reg = size := BitVec.eq_of_toNat_eq (by rw [sizeField_toNat, hsz])
    have ht : x1 ++ x2 ++ x3 ++ x4 ++ exs = (x1 ++ x2) ++ ((x3 ++ ([] ++ (x4 ++ []))) ++ exs) := by simp
    rw [ht]
    refine hisr_claimed_fails ⟨x1, x2, rfl, h1, hbit, h2⟩ fun _ _ => ?_
    rw [if_neg hz]
    refine FailsTo.after (a := hdrFromBytes hb) (c1 := ⟨addr, sizeField reg, false⟩) (d1 := s.ds) (RunsTo.at (RunsTo.of_eq (fetchHeader_eq _ _) ?_)) fun _ _ => ?_
    on_goal 2 => exact servicePacket_fails (h.congr (by rfl) (by rfl) (by rfl) (by rfl))
    refine RunsTo.bind (Runs.to (rdreg_runs ((ReadsReg_congr rfl rfl).mpr h3))) fun _ _ => ?_
    refine RunsTo.seq (RunsTo.assign rfl) fun _ _ => ?_
    exact RunsTo.bind (Runs.to (rdblk_runs ((ReadsBlock_congr rfl rfl).mpr h4))) fun _ _ => Runs.to (Runs.ret _ _)

end Sys2Proof.Machine
end

