-- ==== Sys2Proof/Laws/PerInstr.lean ====
section
/-! SUPPORT. Statements about every instruction as syntax, one lemma per constructor: how many bytes each takes on its
channel (the wire commands: `LEN_shape` of 30_encoding.md R80; a packet header: 8, R94; a token: 1, R92). -/

namespace Sys2Proof.Laws.EncodedLength

open Sys2Proof

/-- The bytes each instruction takes. -/
def encodedLength : Instr → Nat
  | .dmaWrite _ _ => 6
  | .dmaRead _ _ => 6
  | .internalWrite _ _ _ => 7
  | .internalRead _ _ => 4
  | .terminate => 4
  | .repeatLast => 4
  | .dmaExtWrite _ _ => 7
  | .dmaExtRead _ _ => 7
  | .singleWrite _ _ => 8
  | .singleRead _ => 4
  | .resetPeer => 4
  | .rdreg _ => 5
  | .wrreg _ _ => 9
  | .rdblk _ _ => 9
  | .wrblk _ bytes => 9 + bytes.length
  | .hsend _ data ctrl => 13 + data.length + ctrl.length
  | .hisr _ => 2
  | .hrecv _ _ => 9
  | .hfin => 1
  | .crcoff => 1
  | .breset => 1
  | .encodeCmd _ _ _ _ _ => 15
  | .crc7 _ bytes => 6 + bytes.length
  | .checkByte cmd => 5 + cmd.length
  | .crc7Valid frame => 5 + frame.length
  | .hdrNew _ _ _ => 7
  | .hdrToBytes _ => 5
  | .hdrFromBytes bytes => 5 + bytes.length
  | .hdrPack _ => 5
  | .hdrUnpack _ => 5
  | .hifConState _ => 8
  | .hifSysTime _ => 8
  | .hifConnInfo _ => 8
  | .hifScanResult _ => 8
  | .hifWifiOther _ _ => 8
  | .hifIpAny _ _ => 8
  | .hifUnknownGroup _ _ _ => 8
  | .dataMark => 1
  | .writeDone => 1
  | .readMarker _ => 1

/-- The encoder writes exactly that many, under every choice of the parameters. -/
def Statement (i : Instr) : Prop := ∀ p : Params, (encode p i).bytes.length = encodedLength i

theorem dmaWrite (address : BitVec 24) (size : BitVec 16) : Statement (.dmaWrite address size) := by
  intro p
  rfl

theorem dmaRead (address : BitVec 24) (size : BitVec 16) : Statement (.dmaRead address size) := by
  intro p
  rfl

theorem internalWrite (c : Bool) (a : BitVec 15) (data : Word) : Statement (.internalWrite c a data) := by
  intro p
  rfl

theorem internalRead (c : Bool) (a : BitVec 15) : Statement (.internalRead c a) := by
  intro p
  rfl

theorem terminate : Statement (.terminate) := by
  intro p
  rfl

theorem repeatLast : Statement (.repeatLast) := by
  intro p
  rfl

theorem dmaExtWrite (address : BitVec 24) (size : BitVec 24) : Statement (.dmaExtWrite address size) := by
  intro p
  rfl

theorem dmaExtRead (address : BitVec 24) (size : BitVec 24) : Statement (.dmaExtRead address size) := by
  intro p
  rfl

theorem singleWrite (address : BitVec 24) (data : Word) : Statement (.singleWrite address data) := by
  intro p
  rfl

theorem singleRead (address : BitVec 24) : Statement (.singleRead address) := by
  intro p
  rfl

theorem resetPeer : Statement (.resetPeer) := by
  intro p
  rfl

theorem rdreg (address : Word) : Statement (.rdreg address) := by
  intro p
  rfl

theorem wrreg (address data : Word) : Statement (.wrreg address data) := by
  intro p
  rfl

theorem rdblk (address : Word) (count : Nat) : Statement (.rdblk address count) := by
  intro p
  rfl

theorem wrblk (address : Word) (bytes : List Byte) : Statement (.wrblk address bytes) := by
  intro p
  simp [encode, encodedLength]
  omega

theorem hsend (header : HifHeader) (data ctrl : List Byte) : Statement (.hsend header data ctrl) := by
  intro p
  simp [encode, encodedLength]
  omega

theorem hisr (mode : Mode) : Statement (.hisr mode) := by
  intro p
  rfl

theorem hrecv (address : Word) (n : Nat) : Statement (.hrecv address n) := by
  intro p
  rfl

theorem hfin : Statement (.hfin) := by
  intro p
  rfl

theorem crcoff : Statement (.crcoff) := by
  intro p
  rfl

theorem breset : Statement (.breset) := by
  intro p
  rfl

theorem encodeCmd (op : WireOp) (address data size : Word) (clockless : Bool) : Statement (.encodeCmd op address data size clockless) := by
  intro p
  rfl

theorem crc7 (init : BitVec 7) (bytes : List Byte) : Statement (.crc7 init bytes) := by
  intro p
  simp [encode, encodedLength]
  omega

theorem checkByte (cmd : List Byte) : Statement (.checkByte cmd) := by
  intro p
  simp [encode, encodedLength]
  omega

theorem crc7Valid (frame : List Byte) : Statement (.crc7Valid frame) := by
  intro p
  simp [encode, encodedLength]
  omega

theorem hdrNew (groupId opcode : Byte) (payloadLen : Nat) : Statement (.hdrNew groupId opcode payloadLen) := by
  intro p
  rfl

theorem hdrToBytes (h : HifHeader) : Statement (.hdrToBytes h) := by
  intro p
  rfl

theorem hdrFromBytes (bytes : List Byte) : Statement (.hdrFromBytes bytes) := by
  intro p
  simp [encode, encodedLength]
  omega

theorem hdrPack (h : HifHeader) : Statement (.hdrPack h) := by
  intro p
  rfl

theorem hdrUnpack (w : Word) : Statement (.hdrUnpack w) := by
  intro p
  rfl

theorem hifConState (length : BitVec 16) : Statement (.hifConState length) := by
  intro p
  rfl

theorem hifSysTime (length : BitVec 16) : Statement (.hifSysTime length) := by
  intro p
  rfl

theorem hifConnInfo (length : BitVec 16) : Statement (.hifConnInfo length) := by
  intro p
  rfl

theorem hifScanResult (length : BitVec 16) : Statement (.hifScanResult length) := by
  intro p
  rfl

theorem hifWifiOther (opcode : Byte) (length : BitVec 16) : Statement (.hifWifiOther opcode length) := by
  intro p
  rfl

theorem hifIpAny (opcode : Byte) (length : BitVec 16) : Statement (.hifIpAny opcode length) := by
  intro p
  rfl

theorem hifUnknownGroup (groupId opcode : Byte) (length : BitVec 16) : Statement (.hifUnknownGroup groupId opcode length) := by
  intro p
  rfl

theorem dataMark : Statement (.dataMark) := by
  intro p
  rfl

theorem writeDone : Statement (.writeDone) := by
  intro p
  rfl

theorem readMarker (low : BitVec 4) : Statement (.readMarker low) := by
  intro p
  rfl

end Sys2Proof.Laws.EncodedLength
end

