-- ==== Sys2Proof/Tests/Slice0.lean ====
section
/-! SUPPORT. The model's own tests, each a named theorem: ill-formed terms refused, words written out from the spec's
encodings decoded, the vectors of 95_test_vectors.md on one step, and for every obligation with hypotheses a concrete
state and operands that meet them. -/

namespace Sys2Proof.Tests

open Sys2Proof Sys2Proof.Machine

-- One theorem after the other: many evaluations at once, each on a thread of its own, fill the memory limit.
set_option Elab.async false

/-! ## Well-formedness: each check refuses an ill-formed term -/

def p0 : Params := Params.default

theorem test_wf_rdblk_count : (Instr.rdblk 0 (2 ^ 32)).wf p0 = false := by decide
theorem test_wf_hrecv_count : (Instr.hrecv 0 (2 ^ 32)).wf p0 = false := by decide
theorem test_wf_hdrNew_length : (Instr.hdrNew 1 44 (2 ^ 32)).wf p0 = false := by decide
theorem test_wf_wifiOther_handled : (Instr.hifWifiOther 0x2C 8).wf p0 = false := by decide
theorem test_wf_unknownGroup_wifi : (Instr.hifUnknownGroup 1 0 8).wf p0 = false := by decide
theorem test_wf_unknownGroup_ip : (Instr.hifUnknownGroup 2 0 8).wf p0 = false := by decide

/-- A byte sequence that is too long, for the checks on `WRBLK`, `HSEND`, `CRC7`, `CHECK_BYTE`, `CRC7_VALID` and
`HDR.FROMBYTES`. -/
theorem long_refused {b : List Byte} (h : b.length = 2 ^ 32) :
    (Instr.wrblk 0 b).wf p0 = false ∧ (Instr.hsend ⟨1, 40, 8⟩ b []).wf p0 = false ∧
      (Instr.hsend ⟨1, 40, 8⟩ [] b).wf p0 = false ∧ (Instr.crc7 0 b).wf p0 = false ∧
      (Instr.checkByte b).wf p0 = false ∧ (Instr.crc7Valid b).wf p0 = false ∧ (Instr.hdrFromBytes b).wf p0 = false := by
  simp [Instr.wf, fitsLength, h]

theorem test_wf_long_sequences : ∃ b : List Byte, b.length = 2 ^ 32 ∧ (Instr.wrblk 0 b).wf p0 = false ∧
    (Instr.crc7 0 b).wf p0 = false ∧ (Instr.hsend ⟨1, 40, 8⟩ b []).wf p0 = false :=
  ⟨List.replicate (2 ^ 32) 0, List.length_replicate, (long_refused List.length_replicate).1,
    (long_refused List.length_replicate).2.2.2.1, (long_refused List.length_replicate).2.1⟩

/-! ## Decoding words written out from the spec (V41, V43; 30_encoding.md R86, R92, R94, R100) -/

theorem test_decode_dmaWrite : decode p0 ⟨.wire, [0xC1, 0x01, 0x23, 0x45, 0x02, 0x00]⟩ = .ok (.dmaWrite 0x012345 0x0200) := by decide
theorem test_decode_dmaRead : decode p0 ⟨.wire, [0xC2, 0x01, 0x23, 0x45, 0x02, 0x00]⟩ = .ok (.dmaRead 0x012345 0x0200) := by decide
theorem test_decode_internalWrite : decode p0 ⟨.wire, [0xC3, 0x80, 0x30, 0xDE, 0xAD, 0xBE, 0xEF]⟩ = .ok (.internalWrite true 0x30 0xDEADBEEF) := by decide
theorem test_decode_internalRead : decode p0 ⟨.wire, [0xC4, 0x80, 0x10, 0x00]⟩ = .ok (.internalRead true 0x10) := by decide
theorem test_decode_internalRead_clocked : decode p0 ⟨.wire, [0xC4, 0x12, 0x34, 0x00]⟩ = .ok (.internalRead false 0x1234) := by decide
theorem test_decode_internalRead_fill : decode p0 ⟨.wire, [0xC4, 0x80, 0x10, 0x01]⟩ = .error (.fixedByteWrong .internalRead) := by decide
theorem test_decode_terminate : decode p0 ⟨.wire, [0xC5, 0x00, 0x00, 0x00]⟩ = .ok .terminate := by decide
theorem test_decode_repeat : decode p0 ⟨.wire, [0xC6, 0x00, 0x00, 0x00]⟩ = .ok .repeatLast := by decide
theorem test_decode_dmaExtWrite : decode p0 ⟨.wire, [0xC7, 0x15, 0x04, 0x00, 0x00, 0x00, 0x08]⟩ = .ok (.dmaExtWrite 0x150400 8) := by decide
theorem test_decode_dmaExtRead : decode p0 ⟨.wire, [0xC8, 0x0B, 0x00, 0x08, 0x00, 0x00, 0x2C]⟩ = .ok (.dmaExtRead 0x0B0008 44) := by decide
theorem test_decode_singleWrite : decode p0 ⟨.wire, [0xC9, 0x34, 0x56, 0x78, 0xA1, 0xB2, 0xC3, 0xD4]⟩ = .ok (.singleWrite 0x345678 0xA1B2C3D4) := by decide
theorem test_decode_singleRead : decode p0 ⟨.wire, [0xCA, 0x15, 0x04, 0x00]⟩ = .ok (.singleRead 0x150400) := by decide
theorem test_decode_reset : decode p0 ⟨.wire, [0xCF, 0xFF, 0xFF, 0xFF]⟩ = .ok .resetPeer := by decide
theorem test_decode_unknown : decode p0 ⟨.wire, [0xC0, 0x00, 0x00, 0x00]⟩ = .error (.unknownWireOpcode 0xC0) := by decide
theorem test_decode_trailing : decode p0 ⟨.wire, [0xC5, 0x00, 0x00, 0x00, 0x9A]⟩ = .error .trailingBytes := by decide
theorem test_decode_rdreg : decode p0 ⟨.host, [0x0, 0x00, 0x00, 0x10, 0x70]⟩ = .ok (.rdreg 0x1070) := by decide
theorem test_decode_wrreg : decode p0 ⟨.host, [0x1, 0x00, 0x00, 0x10, 0x78, 0x00, 0x00, 0x00, 0x02]⟩ = .ok (.wrreg 0x1078 2) := by decide
theorem test_decode_rdblk : decode p0 ⟨.host, [0x2, 0x00, 0x0B, 0x00, 0x00, 0x00, 0x00, 0x00, 0x04]⟩ = .ok (.rdblk 0x0B0000 4) := by decide
theorem test_decode_wrblk : decode p0 ⟨.host, [0x3, 0x00, 0x0A, 0x00, 0x08, 0x00, 0x00, 0x00, 0x02, 0xDE, 0xAD]⟩ = .ok (.wrblk 0x0A0008 [0xDE, 0xAD]) := by decide
theorem test_decode_hsend : decode p0 ⟨.host, [0x4, 0x01, 0x28, 0x00, 0x0E, 0x00, 0x00, 0x00, 0x01, 0xDE, 0x00, 0x00, 0x00, 0x00]⟩ = .ok (.hsend ⟨1, 40, 14⟩ [0xDE] []) := by decide
theorem test_decode_hisr : decode p0 ⟨.host, [0x5, 0x01]⟩ = .ok (.hisr .ap) := by decide
theorem test_decode_hrecv : decode p0 ⟨.host, [0x6, 0x00, 0x0B, 0x00, 0x08, 0x00, 0x00, 0x00, 0x14]⟩ = .ok (.hrecv 0x0B0008 20) := by decide
theorem test_decode_hfin : decode p0 ⟨.host, [0x7]⟩ = .ok .hfin := by decide
theorem test_decode_crcoff : decode p0 ⟨.host, [0x8]⟩ = .ok .crcoff := by decide
theorem test_decode_breset : decode p0 ⟨.host, [0x9]⟩ = .ok .breset := by decide
theorem test_decode_opSel_A : decode p0 ⟨.host, [0xA]⟩ = .error (.undefinedOpSel 0xA) := by decide
theorem test_decode_encodeCmd : decode p0 ⟨.pure, [0x0, 0x9, 0, 0, 0x10, 0, 0, 0, 0, 0, 0, 0, 0, 0, 1]⟩ = .ok (.encodeCmd .singleRead 0x1000 0 0 true) := by decide
theorem test_decode_crc7 : decode p0 ⟨.pure, [0x1, 0x7F, 0, 0, 0, 1, 0xC4]⟩ = .ok (.crc7 0x7F [0xC4]) := by decide
theorem test_decode_checkByte : decode p0 ⟨.pure, [0x2, 0, 0, 0, 1, 0xC4]⟩ = .ok (.checkByte [0xC4]) := by decide
theorem test_decode_crc7Valid : decode p0 ⟨.pure, [0x3, 0, 0, 0, 2, 0xC4, 0xE2]⟩ = .ok (.crc7Valid [0xC4, 0xE2]) := by decide
theorem test_decode_hdrNew : decode p0 ⟨.pure, [0x4, 1, 44, 0, 0, 0, 4]⟩ = .ok (.hdrNew 1 44 4) := by decide
theorem test_decode_hdrToBytes : decode p0 ⟨.pure, [0x5, 1, 44, 0, 12]⟩ = .ok (.hdrToBytes ⟨1, 44, 12⟩) := by decide
theorem test_decode_hdrFromBytes : decode p0 ⟨.pure, [0x6, 0, 0, 0, 4, 7, 0x10, 3, 0]⟩ = .ok (.hdrFromBytes [7, 0x10, 3, 0]) := by decide
/-- The operands whose result the spec leaves open are well-formed requests: no frame byte, three header bytes (log 21). -/
theorem test_decode_crc7Valid_empty : decode p0 ⟨.pure, [0x3, 0, 0, 0, 0]⟩ = .ok (.crc7Valid []) := by decide
theorem test_decode_hdrFromBytes_short : decode p0 ⟨.pure, [0x6, 0, 0, 0, 3, 7, 0x10, 3]⟩ = .ok (.hdrFromBytes [7, 0x10, 3]) := by decide
theorem test_decode_hdrPack : decode p0 ⟨.pure, [0x7, 1, 44, 0, 12]⟩ = .ok (.hdrPack ⟨1, 44, 12⟩) := by decide
theorem test_decode_hdrUnpack : decode p0 ⟨.pure, [0x8, 0x00, 0x0C, 0x2C, 0x01]⟩ = .ok (.hdrUnpack 0x000C2C01) := by decide
theorem test_decode_conState : decode p0 ⟨.packet, [0x01, 0x2C, 0x0C, 0x00, 0, 0, 0, 0]⟩ = .ok (.hifConState 12) := by decide
theorem test_decode_sysTime : decode p0 ⟨.packet, [0x01, 0x1B, 0x10, 0x00, 0, 0, 0, 0]⟩ = .ok (.hifSysTime 16) := by decide
theorem test_decode_connInfo : decode p0 ⟨.packet, [0x01, 0x06, 0x38, 0x00, 0, 0, 0, 0]⟩ = .ok (.hifConnInfo 56) := by decide
theorem test_decode_scanResult : decode p0 ⟨.packet, [0x01, 0x13, 0x34, 0x00, 0, 0, 0, 0]⟩ = .ok (.hifScanResult 52) := by decide
theorem test_decode_wifiOther : decode p0 ⟨.packet, [0x01, 0x02, 0x34, 0x01, 9, 9, 9, 9]⟩ = .ok (.hifWifiOther 2 308) := by decide
theorem test_decode_ip : decode p0 ⟨.packet, [0x02, 0x41, 0x08, 0x00, 0, 0, 0, 0]⟩ = .ok (.hifIpAny 65 8) := by decide
theorem test_decode_unknownGroup : decode p0 ⟨.packet, [0x07, 0x10, 0x10, 0x00, 0, 0, 0, 0]⟩ = .ok (.hifUnknownGroup 7 16 16) := by decide
theorem test_decode_dataMark : decode p0 ⟨.tokenOut, [0xF3]⟩ = .ok .dataMark := by decide
theorem test_decode_writeDone : decode p0 ⟨.tokenIn, [0xC3]⟩ = .ok .writeDone := by decide
theorem test_decode_marker : decode p0 ⟨.tokenIn, [0xF7]⟩ = .ok (.readMarker 7) := by decide
theorem test_decode_notAToken : decode p0 ⟨.tokenIn, [0xE3]⟩ = .error (.notAToken 0xE3) := by decide
/-- The table numbers a row's bits with byte 0 most significant: the row INTERNAL_READ, fixed byte 0xC4 in front. -/
theorem test_table_internalRead : decodeTableWord 32 0xC4801000 = some (.internalRead true 0x10) := by decide
theorem test_table_conState : decodeTableWord 64 0x012C0C0000000000 = some (.hifConState 12) := by decide

/-! ## Vectors of 95_test_vectors.md, one step each -/

/-- The state after a step that goes on. -/
def after (i : Instr) (s : State) : State :=
  match exec i s with
  | .next t => t
  | _ => State.reset

/-- The value or error on the result port after one instruction. -/
def res (i : Instr) (s : State) : Option Reply := (after i s).result

/-- The bytes on the result port. -/
def resBytes (i : Instr) (s : State) : Option (List Byte) :=
  match res i s with
  | some (.ok (.bytes b)) => some b
  | _ => none

/-- A state after reset with CRC off. -/
def quiet : State := { State.reset with crcDisabled := true }

/-- `s` with a peer that answers with these bytes, transfer by transfer. -/
def peer (s : State) (rxs : List (List Byte)) : State := { s with script := rxs.map fun r => ⟨true, true, true, r⟩ }

/-- `s` with a peer that answers with these bytes and then fails the exchange. -/
def broken (s : State) (rxs : List (List Byte)) : State :=
  { s with script := rxs.map (fun r => ⟨true, true, true, r⟩) ++ [⟨true, false, true, []⟩] }

theorem test_V40_3_crc7 : res (.crc7 0x7F [0xFF]) State.reset = some (.ok (.crc 0x09)) := by decide
theorem test_V40_7_crc7_anchor : res (.crc7 0 [0x31, 0x32, 0x33, 0x34, 0x35, 0x36, 0x37, 0x38, 0x39]) State.reset = some (.ok (.crc 0x75)) := by decide +kernel
theorem test_V40_5_checkByte : res (.checkByte [0xC4, 0x80, 0x10, 0x00]) State.reset = some (.ok (.byte 0x64)) := by decide +kernel
theorem test_V40_valid : res (.crc7Valid [0xC4, 0x80, 0x10, 0x00, 0x64]) State.reset = some (.ok (.bool true)) := by decide +kernel
theorem test_V40_invalid : res (.crc7Valid [0xC4, 0x80, 0x10, 0x00, 0x65]) State.reset = some (.ok (.bool false)) := by decide +kernel
theorem test_V41_1_dmaWrite : resBytes (.dmaWrite 0x012345 0x0200) State.reset = some [0xC1, 0x01, 0x23, 0x45, 0x02, 0x00, 0xF8] := by decide +kernel
theorem test_V41_2_dmaRead : resBytes (.dmaRead 0x012345 0x0200) State.reset = some [0xC2, 0x01, 0x23, 0x45, 0x02, 0x00, 0x64] := by decide +kernel
theorem test_V41_3_internalWrite : resBytes (.internalWrite true 0x30 0xDEADBEEF) State.reset = some [0xC3, 0x80, 0x30, 0xDE, 0xAD, 0xBE, 0xEF, 0x54] := by decide +kernel
theorem test_V41_9_internalRead : resBytes (.internalRead false 0x1234) State.reset = some [0xC4, 0x12, 0x34, 0x00, 0x54] := by decide +kernel
theorem test_V41_10_terminate : resBytes .terminate State.reset = some [0xC5, 0x00, 0x00, 0x00, 0x9A] := by decide +kernel
theorem test_V41_11_repeat : resBytes .repeatLast State.reset = some [0xC6, 0x00, 0x00, 0x00, 0x90] := by decide +kernel
theorem test_V41_12_reset : resBytes .resetPeer State.reset = some [0xCF, 0xFF, 0xFF, 0xFF, 0xAA] := by decide +kernel
theorem test_V41_13_dmaExtWrite : resBytes (.dmaExtWrite 0x150400 8) State.reset = some [0xC7, 0x15, 0x04, 0x00, 0x00, 0x00, 0x08, 0x5C] := by decide +kernel
theorem test_V41_20_dmaExtRead : resBytes (.dmaExtRead 0x0B0008 44) State.reset = some [0xC8, 0x0B, 0x00, 0x08, 0x00, 0x00, 0x2C, 0xBA] := by decide +kernel
theorem test_V41_22_singleWrite : resBytes (.singleWrite 0x108C 0x000C2C01) State.reset = some [0xC9, 0x00, 0x10, 0x8C, 0x00, 0x0C, 0x2C, 0x01, 0xCA] := by decide +kernel
theorem test_V41_36_singleRead : resBytes (.singleRead 0x150400) State.reset = some [0xCA, 0x15, 0x04, 0x00, 0x6E] := by decide +kernel
theorem test_V41_25_encode : resBytes (.encodeCmd .singleWrite 0x12345678 0xA1B2C3D4 0 false) State.reset = some [0xC9, 0x34, 0x56, 0x78, 0xA1, 0xB2, 0xC3, 0xD4, 0xBC] := by decide +kernel
theorem test_V41_25_encode_quiet : resBytes (.encodeCmd .internalRead 0x30 0 0 true) quiet = some [0xC4, 0x80, 0x30, 0x00] := by decide +kernel

/-- V42.1 -/
theorem test_V42_1_rdreg : res (.rdreg 0xFF) (peer State.reset [[0, 0, 0, 0, 0, 0xC4, 0, 0xF3, 0xDD, 0xCC, 0xBB, 0xAA]]) =
    some (.ok (.word 0xAABBCCDD)) := by decide +kernel
/-- V42.8: the raw status byte is carried, its low nibble decoded. -/
theorem test_V42_8_rdreg : res (.rdreg 0x1000) (peer State.reset [[0, 0, 0, 0, 0, 0xCA, 0x13, 0xF3, 0x78, 0x56, 0x34, 0x12]]) =
    some (.err (.spi (.readRegister .singleRead .crc7Error 0x13 0xF3))) := by decide +kernel
/-- V42.12 -/
theorem test_V42_12_wrreg : res (.wrreg 0x30 0xDEADBEEF) (peer State.reset [[0, 0, 0, 0, 0, 0, 0, 0, 0xC3, 0]]) = some (.ok .unit) := by decide +kernel
/-- V42.14: a status byte 0x10 fails a write although its nibble decodes to NoError. -/
theorem test_V42_14_wrreg : res (.wrreg 0x31 1) (peer State.reset [[0, 0, 0, 0, 0, 0, 0, 0, 0, 0xC9, 0x10]]) =
    some (.err (.spi (.writeRegister .singleWrite .noError))) := by decide +kernel
/-- V42.18 -/
theorem test_V42_18_rdblk : res (.rdblk 0x0B0000 4) (peer quiet
    [[0, 0, 0, 0, 0, 0, 0], [0, 0, 0], [0xC8, 0, 0xF3], [0x01, 0x2C, 0x0C, 0x00]]) =
    some (.ok (.bytes [0x01, 0x2C, 0x0C, 0x00])) := by decide +kernel
/-- V42.20: ten misses, eleven transfers. -/
theorem test_V42_20_rdblk : let t := after (.rdblk 0x0B0000 4) (peer quiet ([0, 0, 0, 0, 0, 0, 0] :: List.replicate 12 [0, 0, 0]))
    t.result = some (.err (.spi (.timeout .readDataResponse))) ∧ t.trace.length = 11 := by decide +kernel
/-- V42.23 -/
theorem test_V42_23_wrblk : (after (.wrblk 0x0A0008 [0xDE, 0xAD, 0xBE, 0xEF]) (peer quiet
    [[0, 0, 0, 0, 0, 0, 0], [0xC7, 0], [0], [0, 0, 0, 0], [0], [0xC3]])).trace.map (·.tx) =
    [[0xC7, 0x0A, 0x00, 0x08, 0x00, 0x00, 0x04], [0, 0], [0xF3], [0xDE, 0xAD, 0xBE, 0xEF], [0], [0]] := by decide +kernel
/-- V42.24: status 4, the mark not sent. -/
theorem test_V42_24_wrblk : let t := after (.wrblk 0x0A0008 [0xDE, 0xAD, 0xBE, 0xEF]) (peer quiet [[0, 0, 0, 0, 0, 0, 0], [0xC7, 4]])
    t.result = some (.err (.spi (.writeData .dmaExtWrite .crc16Error))) ∧ t.trace.length = 2 := by decide +kernel

theorem test_V43_7_hdrNew : res (.hdrNew 255 255 65527) State.reset = some (.ok (.header ⟨255, 255, 65535⟩)) := by decide
theorem test_V43_9_hdrNew : exec (.hdrNew 1 1 65528) State.reset = .refused (.payloadTooLong 65528) := by rfl
theorem test_V43_8_toBytes : resBytes (.hdrToBytes ⟨1, 2, 308⟩) State.reset = some [0x01, 0x02, 0x34, 0x01, 0, 0, 0, 0] := by decide
theorem test_V43_fromBytes : res (.hdrFromBytes [7, 0x10, 3, 0]) State.reset = some (.ok (.header ⟨7, 16, 3⟩)) := by decide
theorem test_V43_8_pack : res (.hdrPack ⟨1, 2, 308⟩) State.reset = some (.ok (.word 0x01340201)) := by decide
theorem test_V43_5_unpack : res (.hdrUnpack 0x00341301) State.reset = some (.ok (.header ⟨1, 19, 52⟩)) := by decide

/-- A state with the window of V44.1. -/
def windowed (size : Word) : State := { quiet with ctx := ⟨0x0B0000, size, false⟩ }

/-- The receive images, CRC off, of a register read of `v`, a register write, the four transfers of a block read that
hits at once. -/
def rdRx (v : Word) : List Byte := [0, 0, 0, 0, 0xCA, 0, 0xF3] ++ [byteAt v 0, byteAt v 1, byteAt v 2, byteAt v 3]
def wrRx : List Byte := [0, 0, 0, 0, 0, 0, 0, 0, 0xC9, 0]
def blkRx (d : List Byte) : List (List Byte) := [[0, 0, 0, 0, 0, 0, 0], [0xC8, 0, 0xF3], d]

theorem test_V44_1_hrecv : res (.hrecv 0x0B0008 20) (windowed 10) = some (.err (.hif (.sizeMismatch 20 10))) := by decide +kernel
theorem test_V44_2_hrecv : res (.hrecv 0x0B0008 4) (windowed 10) =
    some (.err (.hif (.addressMismatch 0x0B0008 0x0B0000))) := by decide +kernel
/-- V44.7: the word read is written back with bit 1 set. -/
theorem test_V44_7_hfin : ((after .hfin (peer quiet [rdRx 0x30, wrRx])).trace.map (·.tx))[1]? =
    some [0xC9, 0x00, 0x10, 0x70, 0x00, 0x00, 0x00, 0x32, 0, 0] := by decide +kernel
/-- V44.8: the flag is true although the read failed. -/
theorem test_V44_8_hfin : let t := after .hfin (peer (windowed 12) [[0, 0, 0, 0, 0, 0, 0, 0, 0, 0, 0]])
    t.ctx.readDone = true ∧ t.trace.length = 1 := by decide +kernel
/-- V44.10: size 0. -/
theorem test_V44_10_hisr : let t := after (.hisr .station) (peer quiet [rdRx 1, wrRx, rdRx 0, wrRx])
    t.result = some (.ok (.command none)) ∧ t.ctx = ⟨0, 0, true⟩ ∧ t.trace.length = 4 := by decide +kernel
/-- V44.12: a packet of 10 bytes for a 4-byte payload. -/
theorem test_V44_12_hisr : let t := after (.hisr .station) (peer quiet
      ([rdRx 0x29, wrRx, rdRx 0x0B0000] ++ blkRx [0x01, 0x2C, 0x0C, 0x00]))
    t.result = some (.err (.hif (.addressMismatch 0x0B0008 0x0B0000))) ∧ t.ctx = ⟨0x0B0000, 10, false⟩ ∧
      t.trace.length = 6 := by decide +kernel
/-- V44.16: the busy bit never clears. -/
theorem test_V44_16_hsend : let t := after (.hsend ⟨1, 40, 8⟩ [] []) (peer quiet ([wrRx, wrRx] ++ List.replicate 101 (rdRx 2)))
    t.result = some (.err (.spi (.timeout .sendBusy))) ∧ t.trace.length = 102 := by decide +kernel
/-- V44.17: the commit word of the last transfer lost the top two address bits. -/
theorem test_V44_17_hsend : ((after (.hsend ⟨2, 65, 8⟩ [] []) (peer quiet [wrRx, wrRx, rdRx 0, rdRx 0xC0000001,
      [0, 0, 0, 0, 0, 0, 0], [0xC7, 0], [0], [0, 0, 0, 0, 0, 0, 0, 0], [0xC3], wrRx])).trace.map (·.tx)).getLast? =
    some [0xC9, 0x00, 0x10, 0x6C, 0x00, 0x00, 0x00, 0x06, 0, 0] := by decide +kernel
/-- Step 6 of program P3: the connection state of a packet whose read ends at its end. -/
theorem test_P3_conState : let t := after (.hifConState 12) (peer (windowed 12) (blkRx [0, 0, 0, 0] ++ [rdRx 0x30, wrRx]))
    t.ds.connStatus = some .connected ∧ t.ctx.readDone = true ∧ t.trace.length = 5 := by decide +kernel
/-- The payload of program P7. -/
def p7Payload : List Byte := [0x00, 0xCE, 0x02, 0x06, 0x00, 0x1A, 0x2B, 0x3C, 0x4D, 0x5E, 0x6C, 0x61, 0x62, 0x2D, 0x6E,
  0x65, 0x74] ++ List.replicate 27 0
/-- Program P7: the fields of the scan result, rssi signed. -/
theorem test_P7_scanResult : (after (.hifScanResult 52) (peer (windowed 52) (blkRx p7Payload ++ [rdRx 0xD0, wrRx]))).ds.scanResult =
    some ⟨0, -50, 2, 6, [0x00, 0x1A, 0x2B, 0x3C, 0x4D, 0x5E],
      [0x6C, 0x61, 0x62, 0x2D, 0x6E, 0x65, 0x74] ++ List.replicate 26 0⟩ := by decide +kernel
theorem test_sysTime : (after (.hifSysTime 16) (peer (windowed 16) (blkRx [1, 2, 3, 4, 5, 6, 7, 8] ++ [rdRx 0, wrRx]))).ds.sysTime =
    some [1, 2, 3, 4, 5, 6, 7, 8] := by decide +kernel
theorem test_connInfo : (after (.hifConnInfo 56) (peer (windowed 56) (blkRx (List.replicate 48 7) ++ [rdRx 0, wrRx]))).ds.connInfo =
    some (List.replicate 48 7) := by decide +kernel
/-- V44.14 from step 6 on: a byte not in the table. -/
theorem test_V44_14_wifiOther : let t := after (.hifWifiOther 0xEE 16) (peer (windowed 16) [rdRx 0x40, wrRx])
    t.result = some (.ok (.command (some (.wifi .invalid)))) ∧ t.trace.length = 2 := by decide +kernel
theorem test_ipAny : res (.hifIpAny 65 8) (peer (windowed 16) [rdRx 0x40, wrRx]) = some (.ok (.command (some (.ip .invalid)))) := by decide +kernel
/-- P6 from step 6 on. -/
theorem test_P6_unknownGroup : let t := after (.hifUnknownGroup 7 16 16) (peer (windowed 16) [rdRx 0x40, wrRx])
    t.result = some (.ok (.command none)) ∧ t.ctx.readDone = true := by decide +kernel
/-- V45.2 -/
theorem test_V45_2_crcoff : ((after (.rdreg 0x1000) (after .crcoff (peer State.reset [rdRx 0]))).trace.map (·.tx)) =
    [[0xCA, 0x00, 0x10, 0x00, 0, 0, 0, 0, 0, 0, 0]] := by decide +kernel
/-- V70.1 -/
theorem test_V70_1_breset : let t := after .breset (windowed 12)
    t.ctx = ⟨0, 0, true⟩ ∧ t.crcDisabled = false ∧ t.cs = .deasserted ∧ t.trace = [] := by decide +kernel
theorem test_dataMark : (after .dataMark (peer quiet [[0xAA]])).trace = [⟨[0xF3], .done [0xAA]⟩] := by decide +kernel
theorem test_writeDone : res .writeDone State.reset = some (.ok (.bool true)) := by decide
theorem test_readMarker : res (.readMarker 0) State.reset = some (.ok (.bool true)) := by decide
/-- V60.3: the deassert fails after a good response. -/
theorem test_V60_3_deassert : res (.rdreg 0x1000) { quiet with script := [⟨true, true, false, rdRx 5⟩] } =
    some (.err (.spi .pinState)) := by decide +kernel

/-- V60.4: the exchange of the header read fails behind the new window. -/
theorem test_V60_4_hisr : let t := after (.hisr .station) (broken quiet [rdRx 0x31, wrRx, rdRx 0x0B0000])
    t.result = some (.err (.spi .transfer)) ∧ t.ctx = ⟨0x0B0000, 12, false⟩ ∧ t.trace.length = 4 := by decide +kernel
/-- V60.5: the handler's read is good, HFIN's write gets status 0x01; the sink register is not written. -/
theorem test_V60_5_hisr : let t := after (.hisr .station) (peer quiet ([rdRx 0x31, wrRx, rdRx 0x0B0000] ++
      blkRx [0x01, 0x2C, 0x0C, 0x00] ++ blkRx [0, 0, 0, 0] ++ [rdRx 0x30, [0, 0, 0, 0, 0, 0, 0, 0, 0xC9, 1]]))
    t.result = some (.err (.spi (.writeRegister .singleWrite .unsupportedCommand))) ∧ t.ctx.readDone = true ∧
      t.ds.connStatus = none := by decide +kernel
/-- V60.6: the fourth response poll fails. -/
theorem test_V60_6_rdblk : let t := after (.rdblk 0x0B0000 4) (broken quiet
      [[0, 0, 0, 0, 0, 0, 0], [0, 0, 0], [0, 0, 0], [0, 0, 0]])
    t.result = some (.err (.spi .transfer)) ∧ t.trace.length = 5 := by decide +kernel
/-- The step position inside a nested rule: step 3 of the rule that step 5 of HSEND calls (R22). -/
theorem test_seq_position : (Op.at 5 (Op.at 3 (Op.read fun s => s.seq)) (accept .hsend id quiet)).1 =
    .ok (Seq.busy .hsend [5, 3]) := by rfl

/-! ## Witnesses: the hypotheses of each obligation are met -/

/-- Register reads and writes and block accesses of `quiet`, as exchanges. -/
def rdX (a v : Word) : Exchange :=
  if a.toNat ≤ 0xFF then
    ⟨encodeFrame quiet .internalRead a 0 0 true ++ zeros p0 7,
      [0, 0, 0, 0, 0xC4, 0, 0xF3] ++ [byteAt v 0, byteAt v 1, byteAt v 2, byteAt v 3]⟩
  else ⟨encodeFrame quiet .singleRead a 0 0 false ++ zeros p0 7, rdRx v⟩

def wrX (a d : Word) : Exchange :=
  if a.toNat ≤ 0x30 then ⟨encodeFrame quiet .internalWrite a d 0 true ++ zeros p0 2, [0, 0, 0, 0, 0, 0, 0, 0xC3, 0]⟩
  else ⟨encodeFrame quiet .singleWrite a d 0 false ++ zeros p0 2, wrRx⟩

/-- The command of a block read of `n` bytes at `a`, a miss, a hit, the data. -/
def readCmd (a n : Nat) : Exchange :=
  ⟨encodeFrame quiet .dmaExtRead (BitVec.ofNat 32 a) 0 (BitVec.ofNat 32 n) false, [0, 0, 0, 0, 0, 0, 0]⟩
def readMiss : Exchange := ⟨[0, 0, 0], [0, 0, 0]⟩
def readHit : Exchange := ⟨[0, 0, 0], [0xC8, 0, 0xF0]⟩
def readBlk (a : Nat) (d : List Byte) : List Exchange := [readCmd a d.length, readMiss, readHit, ⟨zeros p0 d.length, d⟩]

/-- The same for a block write. -/
def writeCmd (a n : Nat) : Exchange :=
  ⟨encodeFrame quiet .dmaExtWrite (BitVec.ofNat 32 a) 0 (BitVec.ofNat 32 n) false, [0, 0, 0, 0, 0, 0, 0]⟩
def writeMiss : Exchange := ⟨[0, 0], [0, 0]⟩
def writeHit : Exchange := ⟨[0, 0], [0xC7, 0]⟩
def markX : Exchange := ⟨[0xF3], [0]⟩
def waitX : Exchange := ⟨[0], [0]⟩
def doneX : Exchange := ⟨[0], [0xC3]⟩
def writeBlk (a : Nat) (b : List Byte) : List Exchange :=
  [writeCmd a b.length, writeMiss, writeHit, markX, ⟨b, List.replicate b.length 0⟩, waitX, doneX]

theorem crcLen_quiet : crcLen quiet = 0 := rfl

theorem le32_at (h : List Byte) (v : Word) (k : Nat) (hk : h.length = k) :
    le32 (at' (h ++ [byteAt v 0, byteAt v 1, byteAt v 2, byteAt v 3]) k)
      (at' (h ++ [byteAt v 0, byteAt v 1, byteAt v 2, byteAt v 3]) (k + 1))
      (at' (h ++ [byteAt v 0, byteAt v 1, byteAt v 2, byteAt v 3]) (k + 2))
      (at' (h ++ [byteAt v 0, byteAt v 1, byteAt v 2, byteAt v 3]) (k + 3)) = v := by
  subst hk
  simp [at', le32_bytes]

theorem rdX_reads (a v : Word) : ReadsReg quiet a v [rdX a v] := by
  refine ⟨_, rfl, ?_⟩
  by_cases h : a.toNat ≤ 0xFF
  · refine ⟨.internalRead, true, Or.inl ⟨h, rfl, rfl⟩, ?_⟩
    rw [show rdX a v = _ from if_pos h]
    exact ⟨⟨rfl, rfl⟩, rfl, (by decide : (0x00 : Byte) &&& 0x0F = 0), (by decide : (0xF3 : Byte) &&& 0xF0 = 0xF0), (le32_at [0, 0, 0, 0, 0xC4, 0, 0xF3] v 7 rfl).symm⟩
  · refine ⟨.singleRead, false, Or.inr ⟨by omega, rfl, rfl⟩, ?_⟩
    rw [show rdX a v = _ from if_neg h]
    exact ⟨⟨rfl, rfl⟩, rfl, (by decide : (0x00 : Byte) &&& 0x0F = 0), (by decide : (0xF3 : Byte) &&& 0xF0 = 0xF0), (le32_at [0, 0, 0, 0, 0xCA, 0, 0xF3] v 7 rfl).symm⟩

theorem wrX_writes (a d : Word) : WritesReg quiet a d [wrX a d] := by
  refine ⟨_, rfl, ?_⟩
  by_cases h : a.toNat ≤ 0x30
  · refine ⟨.internalWrite, true, 7, Or.inl ⟨h, rfl, rfl, rfl⟩, ?_⟩
    rw [show wrX a d = _ from if_pos h]
    exact ⟨⟨rfl, rfl⟩, rfl, rfl⟩
  · refine ⟨.singleWrite, false, 8, Or.inr ⟨by omega, rfl, rfl, rfl⟩, ?_⟩
    rw [show wrX a d = _ from if_neg h]
    exact ⟨⟨rfl, rfl⟩, rfl, rfl⟩

theorem zeros_quiet (n : Nat) : zeros quiet.params n = zeros p0 n := rfl

theorem readMisses (k : Nat) : ∀ m ∈ List.replicate k readMiss,
    m.sends (zeros quiet.params quiet.params.rdRspLen) ∧ at' m.rx 0 ≠ quiet.params.opc.byteOf .dmaExtRead := by
  intro m hm
  obtain ⟨_, rfl⟩ := List.mem_replicate.mp hm
  exact ⟨⟨rfl, rfl⟩, by decide⟩

theorem writeMisses (k : Nat) : ∀ m ∈ List.replicate k writeMiss,
    m.sends (zeros quiet.params quiet.params.wrRspLen) ∧ at' m.rx 0 ≠ quiet.params.opc.byteOf .dmaExtWrite := by
  intro m hm
  obtain ⟨_, rfl⟩ := List.mem_replicate.mp hm
  exact ⟨⟨rfl, rfl⟩, by decide⟩

theorem waits (k : Nat) : ∀ m ∈ List.replicate k waitX, m.sends (zeros quiet.params 1) ∧ at' m.rx 0 ≠ 0xC3 := by
  intro m hm
  obtain ⟨_, rfl⟩ := List.mem_replicate.mp hm
  exact ⟨⟨rfl, rfl⟩, by decide⟩

theorem readHit_polls (k : Nat) (h : k < 10) :
    PollsEcho quiet .dmaExtRead quiet.params.rdRspLen (List.replicate k readMiss) readHit :=
  ⟨by simpa using h, readMisses k, ⟨rfl, rfl⟩, rfl⟩

theorem writeHit_polls (k : Nat) (h : k < 10) :
    PollsEcho quiet .dmaExtWrite quiet.params.wrRspLen (List.replicate k writeMiss) writeHit :=
  ⟨by simpa using h, writeMisses k, ⟨rfl, rfl⟩, rfl⟩

theorem readBlk_reads (a : Nat) (d : List Byte) : ReadsBlock quiet a d.length d (readBlk a d) :=
  ⟨_, [readMiss], readHit, _, rfl, ⟨rfl, rfl⟩, readHit_polls 1 (by decide), rfl, rfl, ⟨rfl, by simp [zeros]⟩, rfl⟩

theorem writeBlk_writes (a : Nat) (b : List Byte) : WritesBlock quiet a b (writeBlk a b) :=
  ⟨_, [writeMiss], writeHit, markX, _, [waitX], doneX, rfl, ⟨rfl, rfl⟩, writeHit_polls 1 (by decide), rfl, ⟨rfl, rfl⟩,
    ⟨rfl, by simp⟩, by decide, waits 1, ⟨rfl, rfl⟩, rfl⟩

/-- `quiet` with a peer that answers the exchanges. -/
def met (exs : List Exchange) : State := { quiet with script := exs.map Exchange.answer }

theorem met_meets (exs : List Exchange) : (met exs).meets exs [] := by simp [State.meets, met]

/-- The exchanges of HFIN with the register word `reg`. -/
def finX (reg : Word) : List Exchange := [rdX 0x1070 reg, wrX 0x1070 (reg ||| 2)]

theorem finX_finishes (reg : Word) : Finishes quiet (finX reg) :=
  ⟨reg, [_], [_], rfl, rdX_reads _ _, wrX_writes _ _⟩

/-- A transcript depends on the parameters and the CRC mode only, so it is one of every state with those of `quiet`. -/
theorem reads_of {s : State} (hp : s.params = p0) (hc : s.crcDisabled = true) {a v : Word} {exs : List Exchange}
    (h : ReadsReg quiet a v exs) : ReadsReg s a v exs := (ReadsReg_congr hp hc).mpr h
theorem writes_of {s : State} (hp : s.params = p0) (hc : s.crcDisabled = true) {a d : Word} {exs : List Exchange}
    (h : WritesReg quiet a d exs) : WritesReg s a d exs := (WritesReg_congr hp hc).mpr h
theorem readsBlock_of {s : State} (hp : s.params = p0) (hc : s.crcDisabled = true) {a n : Nat} {d : List Byte}
    {exs : List Exchange} (h : ReadsBlock quiet a n d exs) : ReadsBlock s a n d exs := (ReadsBlock_congr hp hc).mpr h
theorem writesBlock_of {s : State} (hp : s.params = p0) (hc : s.crcDisabled = true) {a : Nat} {b : List Byte}
    {exs : List Exchange} (h : WritesBlock quiet a b exs) : WritesBlock s a b exs := (WritesBlock_congr hp hc).mpr h
theorem finishes_of {s : State} (hp : s.params = p0) (hc : s.crcDisabled = true) {exs : List Exchange}
    (h : Finishes quiet exs) : Finishes s exs := (Finishes_congr hp hc).mpr h

theorem default_wellFormed : p0.WellFormed :=
  ⟨by decide, by decide, by decide, by decide, by decide, by decide, by decide, by decide, by decide, by decide, by decide,
    by decide⟩

theorem witness_DecodeOfEncode : p0.WellFormed ∧ (Instr.hsend ⟨1, 40, 14⟩ [0xDE] [0x01]).wf p0 = true ∧
    (Instr.hifWifiOther 0xEE 8).wf p0 = true ∧ (Instr.hifUnknownGroup 7 0 8).wf p0 = true :=
  ⟨default_wellFormed, by decide, by decide, by decide⟩

theorem witness_EncodeOfDecode_wire : decode p0 ⟨.wire, [0xC4, 0x80, 0x10, 0x00]⟩ = .ok (.internalRead true 0x10) := by decide
theorem witness_EncodeOfDecode_packet :
    decode p0 ⟨.packet, [0x01, 0x2C, 0x0C, 0x00, 9, 9, 9, 9]⟩ = .ok (.hifConState 12) := by decide

theorem witness_StepRunsDecoded : ∃ s : State, s.port = [⟨.host, [0x8]⟩] ∧ decode s.params ⟨.host, [0x8]⟩ = .ok .crcoff :=
  ⟨{ State.reset with port := [⟨.host, [0x8]⟩] }, rfl, by decide⟩

theorem witness_StepRefusesNonInstructions : (0xC0 : Byte) ∉ p0.opc.toList ∧ 0xA ≤ (0xA : Byte).toNat ∧
    0xA ≤ (0xF : Byte).toNat ∧ State.reset.port = [] := by decide

theorem witness_BusyPortRefuses : isHostOp .breset = true ∧ ({ quiet with seq := .busy .hisr [3] } : State).seq = .busy .hisr [3] :=
  ⟨rfl, rfl⟩

/-- The counts 0, `MAX_BLOCK + 1`, and an empty read inside a window. -/
theorem witness_CountsRefused : (windowed 12).seq = .idle ∧ p0.maxBlock < 8193 ∧
    0 ≤ (windowed 12).ctx.readSize.toNat ∧ (windowed 12).ctx.readAddr.toNat ≤ (0x0B000C : Word).toNat ∧
    (0x0B000C : Word).toNat + 0 ≤ (windowed 12).ctx.readAddr.toNat + (windowed 12).ctx.readSize.toNat := by decide

theorem witness_Crc7Laws : State.reset.params.crc7Poly = 0x09 ∧ (0 : Nat) < 8 ∧ (7 : Nat) < 8 := by decide
theorem witness_CheckByteAndValidator : (0x65 : Byte).getLsbD 0 = true := by decide
theorem witness_EncodeSelfCheck : crcOn State.reset = true ∧ crcOn quiet = false := by decide
theorem witness_EncodeTruncates : State.reset.params.WellFormed := default_wellFormed
theorem witness_HeaderLaws : (0xFFF7 : Nat) ≤ 0xFFF7 ∧ hdrPack ⟨1, 44, 12⟩ = hdrPack ⟨1, 44, 12⟩ := by decide
theorem witness_HeaderValues : (0xFFF7 : Nat) ≤ 0xFFF7 ∧ 0xFFF7 < (0xFFF8 : Nat) ∧ ([1, 2, 3] : List Byte).length < 4 := by decide

/-- At both sides of the read threshold. -/
theorem witness_RdregReads : ∀ a ∈ [(0xFF : Word), 0x100], ∃ s exs, s.seq = .idle ∧ ReadsReg s a 0xAABBCCDD exs ∧ s.meets exs [] :=
  fun _ _ => ⟨met [rdX _ _], _, rfl, reads_of rfl rfl (rdX_reads _ _), met_meets _⟩

/-- A wrong echo below the threshold, a wrong status and a wrong marker above it. -/
theorem witness_RdregRejects_internal : ∃ (s : State) (x : Exchange), s.seq = .idle ∧ (0xFF : Word).toNat ≤ 0xFF ∧
    x.sends (encodeFrame s .internalRead 0xFF 0 0 true ++ zeros s.params s.params.regRspRd) ∧
    at' x.rx (4 + crcLen s) ≠ s.params.opc.byteOf .internalRead ∧ s.meets [x] [] :=
  ⟨met [⟨(rdX 0xFF 0).tx, [0, 0, 0, 0, 0xCA, 0, 0xF3, 0, 0, 0, 0]⟩], _, rfl, by decide, ⟨rfl, rfl⟩, by decide, met_meets _⟩
theorem witness_RdregRejects_single : ∀ rx ∈ ([[0, 0, 0, 0, 0xCA, 3, 0xF3, 0, 0, 0, 0], [0, 0, 0, 0, 0xCA, 0, 0x03, 0, 0, 0, 0]] :
      List (List Byte)), ∃ (s : State) (x : Exchange), s.seq = .idle ∧ 0xFF < (0x100 : Word).toNat ∧
    x.sends (encodeFrame s .singleRead 0x100 0 0 false ++ zeros s.params s.params.regRspRd) ∧
    (at' x.rx (5 + crcLen s) &&& s.params.statusMask ≠ 0 ∨ at' x.rx (6 + crcLen s) &&& 0xF0 ≠ 0xF0) ∧ s.meets [x] [] := by
  intro rx hrx
  refine ⟨met [⟨(rdX 0x100 0).tx, rx⟩], _, rfl, by decide, ⟨rfl, ?_⟩, ?_, met_meets _⟩
  · revert rx; decide
  · revert rx; decide

/-- At both sides of the write threshold. -/
theorem witness_WrregWrites : ∀ a ∈ [(0x30 : Word), 0x31], ∃ s exs, s.seq = .idle ∧ WritesReg s a 1 exs ∧ s.meets exs [] :=
  fun _ _ => ⟨met [wrX _ _], _, rfl, writes_of rfl rfl (wrX_writes _ _), met_meets _⟩

theorem witness_WrregRejects_internal : ∃ (s : State) (x : Exchange), s.seq = .idle ∧ (0x30 : Word).toNat ≤ 0x30 ∧
    x.sends (encodeFrame s .internalWrite 0x30 1 0 true ++ zeros s.params s.params.regRspWr) ∧
    at' x.rx (7 + crcLen s) ≠ s.params.opc.byteOf .internalWrite ∧ s.meets [x] [] :=
  ⟨met [⟨(wrX 0x30 1).tx, [0, 0, 0, 0, 0, 0, 0, 0, 0]⟩], _, rfl, by decide, ⟨rfl, rfl⟩, by decide, met_meets _⟩
theorem witness_WrregRejects_single : ∃ (s : State) (x : Exchange), s.seq = .idle ∧ 0x30 < (0x31 : Word).toNat ∧
    x.sends (encodeFrame s .singleWrite 0x31 1 0 false ++ zeros s.params s.params.regRspWr) ∧
    at' x.rx (8 + 1 + crcLen s) ≠ 0 ∧ s.meets [x] [] :=
  ⟨met [⟨(wrX 0x31 1).tx, [0, 0, 0, 0, 0, 0, 0, 0, 0xC9, 0x10]⟩], _, rfl, by decide, ⟨rfl, rfl⟩, by decide, met_meets _⟩

theorem witness_ClocklessThresholds : quiet.seq = .idle := rfl

/-- The six cases of the premise, the register accesses at their thresholds. -/
theorem witness_AccessSendsCommandFirst : quiet.seq = .idle ∧ inBounds quiet (.rdreg 0xFF) ∧ inBounds quiet (.wrreg 0x31 1) ∧
    (0xFF : Word).toNat ≤ 0xFF ∧ 0xFF < (0x100 : Word).toNat ∧ (0x30 : Word).toNat ≤ 0x30 ∧ 0x30 < (0x31 : Word).toNat ∧
    inBounds quiet (.rdblk 0 (1 : Word).toNat) ∧ inBounds quiet (.rdblk 0 (8192 : Word).toNat) ∧
    inBounds quiet (.wrblk 0 [7]) ∧ ([7] : List Byte).length = (1 : Word).toNat :=
  ⟨rfl, trivial, trivial, by decide, by decide, by decide, by decide, ⟨by decide, by decide⟩, ⟨by decide, by decide⟩,
    ⟨by decide, by decide⟩, rfl⟩

/-- The three ways a transfer fails, and the two opcodes of each register access at their thresholds. -/
theorem witness_TransportErrors : quiet.seq = .idle ∧ transferFails ⟨false, true, true, []⟩ .pinState .assertFailed ∧
    transferFails ⟨true, false, true, []⟩ .transfer .exchangeFailed ∧
    transferFails ⟨true, true, false, []⟩ .pinState .deassertFailed ∧
    ({ quiet with script := [⟨false, true, true, []⟩] } : State).script = [⟨false, true, true, []⟩] ∧
    (0xFF : Word).toNat ≤ 0xFF ∧ 0xFF < (0x100 : Word).toNat ∧ (0x30 : Word).toNat ≤ 0x30 ∧ 0x30 < (0x31 : Word).toNat :=
  ⟨rfl, Or.inl ⟨rfl, rfl, rfl⟩, Or.inr (Or.inl ⟨rfl, rfl, rfl, rfl⟩), Or.inr (Or.inr ⟨rfl, rfl, rfl, rfl, rfl⟩), rfl,
    by decide, by decide, by decide, by decide⟩

/-- A count of 1 and one of 4. -/
theorem witness_RdblkReads : ∀ d ∈ ([[0xAA], [0x01, 0x2C, 0x0C, 0x00]] : List (List Byte)), ∃ s exs, s.seq = .idle ∧
    1 ≤ d.length ∧ d.length ≤ s.params.maxBlock ∧ ReadsBlock s (0x0B0000 : Word).toNat d.length d exs ∧ s.meets exs [] := by
  intro d hd
  refine ⟨met (readBlk _ d), _, rfl, ?_, ?_, readsBlock_of rfl rfl (readBlk_reads _ _), met_meets _⟩
  · revert d; decide
  · revert d; decide

theorem witness_RdblkTimesOut : ∃ (s : State) (cmd : Exchange) (misses : List Exchange), s.seq = .idle ∧
    4 ≤ s.params.maxBlock ∧ cmd.sends (encodeFrame s .dmaExtRead 0x0B0000 0 (BitVec.ofNat 32 4) false) ∧
    misses.length = 10 ∧
    (∀ m ∈ misses, m.sends (zeros s.params s.params.rdRspLen) ∧ at' m.rx 0 ≠ s.params.opc.dmaExtRead) ∧
    s.meets (cmd :: misses) [] :=
  ⟨met (readCmd 0x0B0000 4 :: List.replicate 10 readMiss), _, _, rfl, by decide, ⟨rfl, rfl⟩, rfl, readMisses 10, met_meets _⟩

/-- A wrong status found on the first poll, a wrong marker found on the tenth. -/
theorem witness_RdblkRejects : ∀ v ∈ ([(0, [0xC8, 5, 0xF3]), (9, [0xC8, 0, 0])] : List (Nat × List Byte)),
    ∃ (s : State) (cmd hit : Exchange) (misses : List Exchange), s.seq = .idle ∧ 4 ≤ s.params.maxBlock ∧
    cmd.sends (encodeFrame s .dmaExtRead 0x0B0000 0 (BitVec.ofNat 32 4) false) ∧
    PollsEcho s .dmaExtRead s.params.rdRspLen misses hit ∧
    (at' hit.rx 1 &&& s.params.statusMask ≠ 0 ∨ at' hit.rx 2 &&& 0xF0 ≠ 0xF0) ∧
    s.meets (cmd :: (misses ++ [hit])) [] := by
  intro v hv
  refine ⟨met (readCmd 0x0B0000 4 :: (List.replicate v.1 readMiss ++ [⟨[0, 0, 0], v.2⟩])), _, _, _, rfl, (by decide : 4 ≤ 8192),
    ⟨rfl, rfl⟩, ⟨?_, readMisses v.1, ⟨rfl, ?_⟩, ?_⟩, ?_, met_meets _⟩ <;> revert v <;> decide

theorem witness_WrblkWrites : ∀ b ∈ ([[0xDE], [0xDE, 0xAD, 0xBE, 0xEF]] : List (List Byte)), ∃ s exs, s.seq = .idle ∧
    1 ≤ b.length ∧ b.length ≤ s.params.maxBlock ∧ WritesBlock s (0x0A0008 : Word).toNat b exs ∧ s.meets exs [] := by
  intro b hb
  refine ⟨met (writeBlk _ b), _, rfl, ?_, ?_, writesBlock_of rfl rfl (writeBlk_writes _ _), met_meets _⟩
  · revert b; decide
  · revert b; decide

theorem witness_WrblkTimesOut_response : ∃ (s : State) (cmd : Exchange) (misses : List Exchange), s.seq = .idle ∧
    1 ≤ s.params.maxBlock ∧ cmd.sends (encodeFrame s .dmaExtWrite 0x0A0008 0 (BitVec.ofNat 32 1) false) ∧
    misses.length = 10 ∧
    (∀ m ∈ misses, m.sends (zeros s.params s.params.wrRspLen) ∧ at' m.rx 0 ≠ s.params.opc.dmaExtWrite) ∧
    s.meets (cmd :: misses) [] :=
  ⟨met (writeCmd 0x0A0008 1 :: List.replicate 10 writeMiss), _, _, rfl, by decide, ⟨rfl, rfl⟩, rfl, writeMisses 10, met_meets _⟩
theorem witness_WrblkTimesOut_completion : ∃ (s : State) (cmd hit mark payload : Exchange) (misses ws : List Exchange),
    s.seq = .idle ∧ 1 ≤ s.params.maxBlock ∧
    cmd.sends (encodeFrame s .dmaExtWrite 0x0A0008 0 (BitVec.ofNat 32 1) false) ∧
    PollsEcho s .dmaExtWrite s.params.wrRspLen misses hit ∧ at' hit.rx 1 = 0 ∧ mark.sends [0xF3] ∧ payload.sends [0xDE] ∧
    ws.length = 10 ∧ (∀ w ∈ ws, w.sends (zeros s.params 1) ∧ at' w.rx 0 ≠ 0xC3) ∧
    s.meets (cmd :: (misses ++ hit :: mark :: payload :: ws)) [] :=
  ⟨met (writeCmd 0x0A0008 1 :: ([] ++ writeHit :: markX :: ⟨[0xDE], [0]⟩ :: List.replicate 10 waitX)), _, _, _, _, _, _,
    rfl, by decide, ⟨rfl, rfl⟩, writeHit_polls 0 (by decide), rfl, ⟨rfl, rfl⟩, ⟨rfl, rfl⟩, rfl, waits 10, met_meets _⟩

theorem witness_WrblkRejects : ∃ (s : State) (cmd hit : Exchange) (misses : List Exchange), s.seq = .idle ∧
    4 ≤ s.params.maxBlock ∧ cmd.sends (encodeFrame s .dmaExtWrite 0x0A0008 0 (BitVec.ofNat 32 4) false) ∧
    PollsEcho s .dmaExtWrite s.params.wrRspLen misses hit ∧ at' hit.rx 1 ≠ 0 ∧ s.meets (cmd :: (misses ++ [hit])) [] :=
  ⟨met (writeCmd 0x0A0008 4 :: (List.replicate 9 writeMiss ++ [⟨[0, 0], [0xC7, 0x10]⟩])), _, _, _, rfl, by decide, ⟨rfl, rfl⟩,
    ⟨by decide, writeMisses 9, ⟨rfl, rfl⟩, rfl⟩, by decide, met_meets _⟩

/-- The transfer of `tx` whose exchange fails. -/
def cutX (tx : List Byte) : Cut := ⟨tx, ⟨true, false, true, []⟩, .exchangeFailed⟩

theorem breaks (tx : List Byte) : Breaks tx (.spi .transfer) [] (some (cutX tx)) :=
  ⟨rfl, _, .transfer, rfl, rfl, Or.inr (Or.inl ⟨rfl, rfl, rfl, rfl⟩), rfl⟩

/-- `quiet` with a peer that answers the exchanges and pins that then break `cut`. -/
def cutMet (exs : List Exchange) (cut : Option Cut) : State :=
  { quiet with script := exs.map Exchange.answer ++ (cut.toList.map Cut.answer ++ []) }

/-- The hypotheses of a statement about a failure, met by a state of this kind. -/
def Met (F : State → Failure) (e : DriverError) (exs : List Exchange) (cut : Option Cut) : Prop :=
  ∃ s : State, s.seq = .idle ∧ 48 ≤ s.params.maxBlock ∧ s.meetsCut exs cut [] ∧ F s e exs cut

theorem met_of {F : State → Failure} {e : DriverError} {exs : List Exchange} {cut : Option Cut}
    (hF : ∀ s : State, s.params = p0 → s.crcDisabled = true → s.ctx = quiet.ctx → s.ds = quiet.ds → F s e exs cut) :
    Met F e exs cut := ⟨cutMet exs cut, rfl, (by decide : 48 ≤ p0.maxBlock), rfl, hF _ rfl rfl rfl rfl⟩

theorem met_reads {a n : Nat} {e : DriverError} {exs : List Exchange} {cut : Option Cut}
    (h : ReadsBlockFails quiet a n e exs cut) : Met (ReadsBlockFails · a n) e exs cut :=
  met_of fun _ hp hc _ _ => h.congr hp hc
theorem met_writes {a : Nat} {b : List Byte} {e : DriverError} {exs : List Exchange} {cut : Option Cut}
    (h : WritesBlockFails quiet a b e exs cut) : Met (WritesBlockFails · a b) e exs cut :=
  met_of fun _ hp hc _ _ => h.congr hp hc
theorem met_sends {h : HifHeader} {d c : List Byte} {e : DriverError} {exs : List Exchange} {cut : Option Cut}
    (hf : SendsFails quiet h d c e exs cut) : Met (SendsFails · h d c) e exs cut :=
  met_of fun _ hp hc _ _ => hf.congr hp hc

/-- RDBLK: the command breaks, the tenth poll breaks, ten polls miss, a wrong status, the data breaks. -/
theorem witness_PollTransportErrors_read :
    Met (ReadsBlockFails · 0x0B0000 4) (.spi .transfer) [] (some (cutX (readCmd 0x0B0000 4).tx)) ∧
    Met (ReadsBlockFails · 0x0B0000 4) (.spi .transfer) (readCmd 0x0B0000 4 :: (List.replicate 9 readMiss ++ []))
      (some (cutX (zeros p0 3))) ∧
    Met (ReadsBlockFails · 0x0B0000 4) (.spi (.timeout .readDataResponse))
      (readCmd 0x0B0000 4 :: (List.replicate 10 readMiss ++ [])) none ∧
    Met (ReadsBlockFails · 0x0B0000 4) (.spi (.readData .dmaExtRead .internalError))
      (readCmd 0x0B0000 4 :: ([] ++ [⟨[0, 0, 0], [0xC8, 5, 0xF3]⟩])) none ∧
    Met (ReadsBlockFails · 0x0B0000 4) (.spi .transfer) (readCmd 0x0B0000 4 :: (List.replicate 1 readMiss ++ [readHit]))
      (some (cutX (zeros p0 4))) :=
  ⟨met_reads (.command (breaks _)),
    met_reads (.poll ⟨rfl, rfl⟩ ⟨_, _, rfl, readMisses 9, Or.inl ⟨by decide, breaks _⟩⟩),
    met_reads (.poll ⟨rfl, rfl⟩ ⟨_, _, rfl, readMisses 10, Or.inr ⟨rfl, rfl, rfl, rfl⟩⟩),
    met_reads (.status (hit := ⟨[0, 0, 0], [0xC8, 5, 0xF3]⟩) ⟨rfl, rfl⟩
      ⟨by decide, by simp, ⟨rfl, rfl⟩, rfl⟩ (Or.inl (by decide))),
    met_reads (.data ⟨rfl, rfl⟩ (readHit_polls 1 (by decide)) rfl rfl (breaks _))⟩

/-- WRBLK: the command, the first poll, the mark, the payload and the tenth completion poll break; a non-zero status; ten
misses of either poll. -/
theorem witness_PollTransportErrors_write :
    Met (WritesBlockFails · 0x0A0008 [0xDE]) (.spi .transfer) [] (some (cutX (writeCmd 0x0A0008 1).tx)) ∧
    Met (WritesBlockFails · 0x0A0008 [0xDE]) (.spi .transfer) (writeCmd 0x0A0008 1 :: ([] ++ []))
      (some (cutX (zeros p0 2))) ∧
    Met (WritesBlockFails · 0x0A0008 [0xDE]) (.spi (.timeout .writeDataResponse))
      (writeCmd 0x0A0008 1 :: (List.replicate 10 writeMiss ++ [])) none ∧
    Met (WritesBlockFails · 0x0A0008 [0xDE]) (.spi (.writeData .dmaExtWrite .noError))
      (writeCmd 0x0A0008 1 :: ([] ++ [⟨[0, 0], [0xC7, 0x10]⟩])) none ∧
    Met (WritesBlockFails · 0x0A0008 [0xDE]) (.spi .transfer) (writeCmd 0x0A0008 1 :: (List.replicate 1 writeMiss ++ [writeHit]))
      (some (cutX [0xF3])) ∧
    Met (WritesBlockFails · 0x0A0008 [0xDE]) (.spi .transfer)
      (writeCmd 0x0A0008 1 :: (List.replicate 1 writeMiss ++ writeHit :: markX :: [])) (some (cutX [0xDE])) ∧
    Met (WritesBlockFails · 0x0A0008 [0xDE]) (.spi .transfer)
      (writeCmd 0x0A0008 1 :: (List.replicate 1 writeMiss ++ writeHit :: markX :: ⟨[0xDE], [0]⟩ :: (List.replicate 9 waitX ++ [])))
      (some (cutX (zeros p0 1))) ∧
    Met (WritesBlockFails · 0x0A0008 [0xDE]) (.spi (.timeout .writeDataComplete))
      (writeCmd 0x0A0008 1 :: (List.replicate 1 writeMiss ++ writeHit :: markX :: ⟨[0xDE], [0]⟩ :: (List.replicate 10 waitX ++ [])))
      none :=
  ⟨met_writes (.command (breaks _)),
    met_writes (.poll ⟨rfl, rfl⟩ ⟨[], _, rfl, by simp, Or.inl ⟨by decide, breaks _⟩⟩),
    met_writes (.poll ⟨rfl, rfl⟩ ⟨_, _, rfl, writeMisses 10, Or.inr ⟨rfl, rfl, rfl, rfl⟩⟩),
    met_writes (.status (hit := ⟨[0, 0], [0xC7, 0x10]⟩) ⟨rfl, rfl⟩ ⟨by decide, by simp, ⟨rfl, rfl⟩, rfl⟩ (by decide)),
    met_writes (.mark ⟨rfl, rfl⟩ (writeHit_polls 1 (by decide)) rfl (breaks _)),
    met_writes (.payload ⟨rfl, rfl⟩ (writeHit_polls 1 (by decide)) rfl ⟨rfl, rfl⟩ (breaks _)),
    met_writes (.completion ⟨rfl, rfl⟩ (writeHit_polls 1 (by decide)) rfl ⟨rfl, rfl⟩ ⟨rfl, rfl⟩
      ⟨_, _, rfl, waits 9, Or.inl ⟨by decide, breaks _⟩⟩),
    met_writes (.completion ⟨rfl, rfl⟩ (writeHit_polls 1 (by decide)) rfl ⟨rfl, rfl⟩ ⟨rfl, rfl⟩
      ⟨_, _, rfl, waits 10, Or.inr ⟨rfl, rfl, rfl, rfl⟩⟩)⟩

/-- The register access of `quiet` whose exchange fails. -/
theorem rd_breaks {a : Word} (h : 0xFF < a.toNat) :
    ReadsRegFails quiet a (.spi .transfer) [] (some (cutX (encodeFrame quiet .singleRead a 0 0 false ++ zeros p0 7))) :=
  ⟨.singleRead, false, Or.inr ⟨h, rfl, rfl⟩, Or.inl (breaks _)⟩
theorem wr_breaks {a d : Word} (h : 0x30 < a.toNat) :
    WritesRegFails quiet a d (.spi .transfer) [] (some (cutX (encodeFrame quiet .singleWrite a d 0 false ++ zeros p0 2))) :=
  ⟨.singleWrite, false, 8, Or.inr ⟨h, rfl, rfl, rfl⟩, Or.inl (breaks _)⟩

/-- HSEND's steps 1 to 4 of `quiet`, one busy read among them. -/
def allocX (h : HifHeader) : List Exchange :=
  [wrX 0x108C (hdrPack h)] ++ [wrX 0x1078 2] ++ ([[rdX 0x1078 2]].flatten ++ [rdX 0x1078 0]) ++ [rdX 0x150400 0x000A0000]

theorem polls_busy : PollsBusy quiet ([[rdX 0x1078 2]].flatten ++ [rdX 0x1078 0]) :=
  ⟨[[_]], [_], 0, rfl, by decide, fun b hb => by
    obtain rfl := List.mem_singleton.mp hb
    exact ⟨2, rdX_reads _ _, by decide⟩, rdX_reads _ _, by decide⟩

theorem allocates (h : HifHeader) : Allocates quiet h 0x000A0000 (allocX h) :=
  ⟨_, _, _, _, rfl, wrX_writes _ _, wrX_writes _ _, polls_busy, rdX_reads _ _⟩

/-- HSEND: a break in each of its eight steps, the busy poll's on its first read. -/
theorem witness_PollTransportErrors_send : ∃ e1 e2 e3 e4 e5 e6 e7 e8 c1 c2 c3 c4 c5 c6 c7 c8,
    Met (SendsFails · ⟨1, 40, 10⟩ [0xDE] [0x01]) (.spi .transfer) e1 c1 ∧
    Met (SendsFails · ⟨1, 40, 10⟩ [0xDE] [0x01]) (.spi .transfer) e2 c2 ∧
    Met (SendsFails · ⟨1, 40, 10⟩ [0xDE] [0x01]) (.spi .transfer) e3 c3 ∧
    Met (SendsFails · ⟨1, 40, 10⟩ [0xDE] [0x01]) (.spi .transfer) e4 c4 ∧
    Met (SendsFails · ⟨1, 40, 10⟩ [0xDE] [0x01]) (.spi .transfer) e5 c5 ∧
    Met (SendsFails · ⟨1, 40, 10⟩ [0xDE] [0x01]) (.spi .transfer) e6 c6 ∧
    Met (SendsFails · ⟨1, 40, 10⟩ [0xDE] [0x01]) (.spi .transfer) e7 c7 ∧
    Met (SendsFails · ⟨1, 40, 10⟩ [0xDE] [0x01]) (.spi .transfer) e8 c8 := by
  have h5 := writeBlk_writes 0x0A0000 (hdrToBytes ⟨1, 40, 10⟩)
  have h6 : WritesBlockIfAny quiet 0x0A0008 [0xDE] (writeBlk 0x0A0008 [0xDE]) := Or.inr ⟨by simp, writeBlk_writes _ _⟩
  have h7 : WritesBlockIfAny quiet 0x0A0009 [0x01] (writeBlk 0x0A0009 [0x01]) := Or.inr ⟨by simp, writeBlk_writes _ _⟩
  exact ⟨_, _, _, _, _, _, _, _, _, _, _, _, _, _, _, _,
    met_sends (.header (wr_breaks (by decide))),
    met_sends (.flag (wrX_writes _ _) (wr_breaks (by decide))),
    met_sends (.busy (wrX_writes _ _) (wrX_writes _ _) ⟨[], _, rfl, by simp, Or.inl ⟨by decide, rd_breaks (by decide)⟩⟩),
    met_sends (.address (wrX_writes _ _) (wrX_writes _ _) polls_busy (rd_breaks (by decide))),
    met_sends (.headerBlock (allocates _) (.command (breaks _))),
    met_sends (.data (allocates _) h5 (by simp) (.command (breaks _))),
    met_sends (.ctrl (allocates _) h5 h6 (by simp) (.command (breaks _))),
    met_sends (.commit (allocates _) h5 h6 h7 (wr_breaks (by decide)))⟩

/-- The code 0, the last named code, the first and the last of the catch-all. -/
theorem witness_StatusCodes : ((0xF0 : Byte) &&& p0.statusMask).toNat = 0 ∧ ((0x35 : Byte) &&& p0.statusMask).toNat = 5 ∧
    ((1 : Byte) &&& p0.statusMask).toNat = 1 ∧ ((2 : Byte) &&& p0.statusMask).toNat = 2 ∧
    ((3 : Byte) &&& p0.statusMask).toNat = 3 ∧ ((4 : Byte) &&& p0.statusMask).toNat = 4 ∧
    6 ≤ ((0x06 : Byte) &&& p0.statusMask).toNat ∧ 6 ≤ ((0x0F : Byte) &&& p0.statusMask).toNat := by decide

theorem witness_TokensComplete : ∃ (s : State) (x : Exchange), s.seq = .idle ∧ x.sends [0xF3] ∧ s.meets [x] [] :=
  ⟨met [markX], _, rfl, ⟨rfl, rfl⟩, met_meets _⟩

/-- The transfers of a send like program P2's, CRC off: one busy read, a data buffer, a control buffer. -/
def sendX : List Exchange :=
  [wrX 0x108C 0x000E2801] ++ [wrX 0x1078 2] ++ ([[rdX 0x1078 2]].flatten ++ [rdX 0x1078 0]) ++ [rdX 0x150400 0x000A0000] ++
    writeBlk 0x0A0000 [0x01, 0x28, 0x0E, 0x00, 0, 0, 0, 0] ++ writeBlk 0x0A0008 [0xDE, 0xAD, 0xBE, 0xEF] ++
    writeBlk 0x0A000C [0x01, 0x02] ++ [wrX 0x106C 0x00280002]

theorem sendX_sends : Sends quiet ⟨1, 40, 14⟩ [0xDE, 0xAD, 0xBE, 0xEF] [0x01, 0x02] sendX :=
  ⟨0x000A0000, _, _, _, _, _, _, _, _, rfl, wrX_writes _ _, wrX_writes _ _, polls_busy, rdX_reads _ _,
    writeBlk_writes _ _, Or.inr ⟨by decide, writeBlk_writes _ _⟩, Or.inr ⟨by decide, writeBlk_writes _ _⟩, wrX_writes _ _⟩

/-- Both buffers written, and both skipped. -/
theorem witness_HsendSends : ∃ (s : State) (exs : List Exchange), s.seq = .idle ∧ 4 ≤ s.params.maxBlock ∧
    Sends s ⟨1, 40, 14⟩ [0xDE, 0xAD, 0xBE, 0xEF] [0x01, 0x02] exs ∧ s.meets exs [] := by
  refine ⟨met sendX, sendX, rfl, by decide, ?_, met_meets _⟩
  exact sendX_sends
theorem witness_HsendSends_empty : ∃ exs : List Exchange, Sends quiet ⟨1, 40, 8⟩ [] [] exs :=
  ⟨_, 0x000A0000, _, _, _, _, _, _, _, _, rfl, wrX_writes _ _, wrX_writes _ _, polls_busy, rdX_reads _ _,
    writeBlk_writes _ _, Or.inl ⟨rfl, rfl⟩, Or.inl ⟨rfl, rfl⟩, wrX_writes _ _⟩

theorem witness_HsendBusyTimesOut : ∃ (s : State) (e1 e2 : List Exchange) (busy : List (List Exchange)), s.seq = .idle ∧
    WritesReg s s.params.regHifHdr (hdrPack ⟨1, 40, 8⟩) e1 ∧
    WritesReg s s.params.regTxCtrl (1#32 <<< s.params.txFlagBit) e2 ∧ busy.length = 100 ∧
    (∀ b ∈ busy, ∃ u : Word, ReadsReg s s.params.regTxCtrl u b ∧ u.getLsbD s.params.txBusyBit = true) ∧
    s.meets (e1 ++ e2 ++ busy.flatten) [] := by
  refine ⟨met ([wrX 0x108C 0x00082801] ++ [wrX 0x1078 2] ++ (List.replicate 100 [rdX 0x1078 2]).flatten), [_], [_],
    List.replicate 100 [rdX 0x1078 2], rfl, writes_of rfl rfl (wrX_writes _ _), writes_of rfl rfl (wrX_writes _ _),
    List.length_replicate, ?_, met_meets _⟩
  intro b hb
  obtain ⟨_, rfl⟩ := List.mem_replicate.mp hb
  exact ⟨2, reads_of rfl rfl (rdX_reads _ _), by decide⟩

theorem witness_HisrNothingPending : ∃ (s : State) (e : List Exchange), s.seq = .idle ∧
    ReadsReg s s.params.regRcvCtrl0 0x30 e ∧ (0x30 : Word).getLsbD s.params.newDataBit = false ∧ s.meets e [] :=
  ⟨met [rdX 0x1070 0x30], _, rfl, reads_of rfl rfl (rdX_reads _ _), by decide, met_meets _⟩

theorem witness_HisrEmptyPacket : ∃ (s : State) (e1 e2 e3 : List Exchange), s.seq = .idle ∧
    ReadsReg s s.params.regRcvCtrl0 1 e1 ∧ (1 : Word).getLsbD s.params.newDataBit = true ∧ (1 : Word).toNat / 4 % 4096 = 0 ∧
    WritesReg s s.params.regRcvCtrl0 (1 &&& ~~~(1#32 <<< s.params.newDataBit)) e2 ∧ Finishes s e3 ∧
    s.meets (e1 ++ e2 ++ e3) [] :=
  ⟨met ([rdX 0x1070 1] ++ [wrX 0x1070 0] ++ finX 0), _, [_], _, rfl, reads_of rfl rfl (rdX_reads _ _), by decide,
    by decide, writes_of rfl rfl (wrX_writes _ _), finishes_of rfl rfl (finX_finishes _), met_meets _⟩

/-- HISR's transfers up to the header read, for a packet of `size` bytes at 0x0B0000. -/
def announceX (reg back : Word) (hb : List Byte) : List Exchange :=
  [rdX 0x1070 reg] ++ [wrX 0x1070 back] ++ [rdX 0x1084 0x0B0000] ++ readBlk 0x0B0000 hb

theorem announces {s : State} (hp : s.params = p0) (hc : s.crcDisabled = true) (reg size : Word) (hb : List Byte)
    (h1 : reg.getLsbD 0 = true) (h2 : size.toNat = reg.toNat / 4 % 4096) (h3 : size ≠ 0) (h4 : hb.length = 4) :
    Announces s size 0x0B0000 hb (announceX reg (reg &&& ~~~(1#32 <<< 0)) hb) := by
  refine ⟨reg, [_], [_], [_], readBlk 0x0B0000 hb, rfl, ?_, h2, h3, ?_, ?_, ?_, ?_⟩
  · rw [hp]; exact h1
  · rw [hp]; exact reads_of hp hc (rdX_reads _ _)
  · rw [hp]; exact writes_of hp hc (wrX_writes _ _)
  · rw [hp]; exact reads_of hp hc (rdX_reads _ _)
  · rw [← h4]; exact readsBlock_of hp hc (readBlk_reads _ _)

/-- The state of a HISR between its header read and its dispatch. -/
def opened (exs : List Exchange) (size : Word) : State := { met exs with ctx := ⟨0x0B0000, size, false⟩ }

theorem services_conState (exs : List Exchange) : Services (opened exs 12) (some (.wifi .respConStateChanged)) [0, 0, 0, 0]
    (readBlk 0x0B0008 [0, 0, 0, 0] ++ finX 0x30) :=
  ⟨(by decide : 8 + 4 ≤ (12 : Word).toNat), _, _, rfl, readsBlock_of rfl rfl (readBlk_reads _ _),
    Or.inl ⟨Or.inl rfl, finishes_of rfl rfl (finX_finishes _)⟩⟩

/-- The packet of program P3: size 12, its read ends at its end. -/
theorem witness_HisrServicesPacket : ∃ (s : State) (hb b : List Byte) (e1 e2 : List Exchange), s.seq = .idle ∧
    Announces s 12 0x0B0000 hb e1 ∧
    some (.wifi .respConStateChanged) = routeHeader s.params ⟨at' hb 0, at' hb 1, be16 (at' hb 3) (at' hb 2)⟩ ∧
    Services { s with ds := { s.ds with mode := .station }, ctx := ⟨0x0B0000, 12, false⟩ }
      (some (.wifi .respConStateChanged)) b e2 ∧ s.meets (e1 ++ e2) [] :=
  ⟨met (announceX 0x31 0x30 [0x01, 0x2C, 0x0C, 0x00] ++ (readBlk 0x0B0008 [0, 0, 0, 0] ++ finX 0x30)), _, [0, 0, 0, 0], _, _,
    rfl, announces rfl rfl 0x31 12 [0x01, 0x2C, 0x0C, 0x00] (by decide) (by decide) (by decide) rfl, by decide,
    services_conState _, met_meets _⟩

/-- The packet of program P6: an unknown group, no payload read. -/
theorem witness_HisrServicesPacket_unknown : ∃ (s : State) (hb : List Byte) (e1 e2 : List Exchange), s.seq = .idle ∧
    Announces s 16 0x0B0000 hb e1 ∧ none = routeHeader s.params ⟨at' hb 0, at' hb 1, be16 (at' hb 3) (at' hb 2)⟩ ∧
    Services { s with ds := { s.ds with mode := .ap }, ctx := ⟨0x0B0000, 16, false⟩ } none [] e2 ∧ s.meets (e1 ++ e2) [] :=
  ⟨met (announceX 0x41 0x40 [0x07, 0x10, 0x10, 0x00] ++ finX 0x40), _, _, _,
    rfl, announces rfl rfl 0x41 16 [0x07, 0x10, 0x10, 0x00] (by decide) (by decide) (by decide) rfl, by decide,
    ⟨rfl, Or.inl ⟨rfl, finishes_of rfl rfl (finX_finishes _)⟩⟩, met_meets _⟩

/-- Sizes 3, 4 and 11 for a 4-byte payload: below the payload, at it, one below the whole. -/
theorem witness_HisrShortPacket : ∀ v ∈ [(13, 3), (17, 4), ((45 : Word), (11 : Word))], ∃ (s : State) (hb : List Byte)
    (e : List Exchange), s.seq = .idle ∧ Announces s v.2 0x0B0000 hb e ∧
    some (.wifi .respConStateChanged) = routeHeader s.params ⟨at' hb 0, at' hb 1, be16 (at' hb 3) (at' hb 2)⟩ ∧
    payloadSize (some (.wifi .respConStateChanged)) = some 4 ∧ v.2.toNat < 8 + 4 ∧ s.meets e [] := by
  intro v hv
  have hr : some (Command.wifi .respConStateChanged) = routeHeader p0 ⟨0x01, 0x2C, 0x000C⟩ := by decide
  have h : v.1.getLsbD 0 = true ∧ v.2.toNat = v.1.toNat / 4 % 4096 ∧ v.2 ≠ 0 ∧ v.2.toNat < 8 + 4 := by
    simp only [List.mem_cons, List.not_mem_nil, or_false] at hv
    rcases hv with rfl | rfl | rfl <;> decide
  exact ⟨met (announceX v.1 (v.1 &&& ~~~(1#32 <<< 0)) [0x01, 0x2C, 0x0C, 0x00]), _, _, rfl,
    announces rfl rfl v.1 v.2 [0x01, 0x2C, 0x0C, 0x00] h.1 h.2.1 h.2.2.1 rfl, hr, rfl, h.2.2.2, met_meets _⟩

/-- New data with a peer that then fails, and none. -/
theorem witness_HisrReleases : ∀ reg ∈ [(0x31 : Word), 0x30], ∃ (s t : State) (e : List Exchange), s.seq = .idle ∧
    ReadsReg s s.params.regRcvCtrl0 reg e ∧ s.meets e [] ∧ exec (.hisr .station) s = .next t :=
  fun _ _ => ⟨met [rdX 0x1070 _], _, _, rfl, reads_of rfl rfl (rdX_reads _ _), met_meets _, rfl⟩

theorem witness_RoutingTables : p0.WellFormed ∧ (7 : Byte) ≠ p0.gidWifi ∧ (7 : Byte) ≠ p0.gidIp ∧ (2 : Byte) = p0.gidIp ∧
    (1 : Byte) = p0.gidWifi ∧ (0xEE : Byte) ∉ p0.handledOpcodes ∧ (0xEE : Byte) ∉ p0.wifiOther.map Prod.fst ∧
    (0x41 : Byte) ∉ p0.socketTable.map Prod.fst ∧ (0x2C : Byte) = p0.wifiConState ∧ (0x1B : Byte) = p0.wifiSysTime ∧
    (0x06 : Byte) = p0.wifiConnInfo ∧ (0x13 : Byte) = p0.wifiScanResult :=
  ⟨default_wellFormed, by decide⟩

/-- A named row of WIFI_TABLE beside the handled ones, two of SOCKET_TABLE. -/
theorem witness_RoutingTables_named : ∃ p : Params, p.WellFormed ∧ ((0x02 : Byte), 5) ∈ p.wifiOther ∧
    ((0x41 : Byte), 0) ∈ p.socketTable ∧ ((0x42 : Byte), 1) ∈ p.socketTable :=
  ⟨{ p0 with wifiOther := [(0x02, 5)], socketTable := [(0x41, 0), (0x42, 1)] },
    ⟨by decide, by decide, by decide, by decide, by decide, by decide, by decide, by decide, by decide, by decide, by decide,
      by decide⟩, by decide⟩

/-- Above the size by one; at the size and one past the window; one below the window. -/
theorem witness_HrecvChecks : (windowed 10).seq = .idle ∧ (windowed 10).ctx.readSize.toNat < 11 ∧
    10 ≤ (windowed 10).ctx.readSize.toNat ∧
    (windowed 10).ctx.readAddr.toNat + (windowed 10).ctx.readSize.toNat < (0x0B0001 : Word).toNat + 10 ∧
    (0x0AFFFF : Word).toNat < (windowed 10).ctx.readAddr.toNat := by decide

/-- A read that stops before the packet's end (V44.5). -/
theorem witness_HrecvReads_partial : ∃ (s : State) (d : List Byte) (e1 : List Exchange), s.seq = .idle ∧
    4 ≤ s.params.maxBlock ∧ 4 ≤ s.ctx.readSize.toNat ∧ s.ctx.readAddr.toNat ≤ (0x0B0008 : Word).toNat ∧
    (0x0B0008 : Word).toNat + 4 ≤ s.ctx.readAddr.toNat + s.ctx.readSize.toNat ∧
    ReadsBlock s (0x0B0008 : Word).toNat 4 d e1 ∧
    FinishesIf s ((0x0B0008 : Word).toNat + 4 = s.ctx.readAddr.toNat + s.ctx.readSize.toNat) [] ∧ s.meets (e1 ++ []) [] :=
  ⟨opened (readBlk (0x0B0008 : Word).toNat [1, 2, 3, 4] ++ []) 16, [1, 2, 3, 4], _, rfl, (by decide : 4 ≤ 8192),
    (by decide : 4 ≤ (16 : Word).toNat), (by decide : (0x0B0000 : Word).toNat ≤ (0x0B0008 : Word).toNat),
    (by decide : (0x0B0008 : Word).toNat + 4 ≤ (0x0B0000 : Word).toNat + (16 : Word).toNat),
    readsBlock_of rfl rfl (readBlk_reads _ [1, 2, 3, 4]),
    Or.inr ⟨(by decide : ¬ (0x0B0008 : Word).toNat + 4 = (0x0B0000 : Word).toNat + (16 : Word).toNat), rfl⟩, met_meets _⟩
/-- A read that reaches it (V44.6). -/
theorem witness_HrecvReads_end : ∃ (s : State) (d : List Byte) (e1 e2 : List Exchange), s.seq = .idle ∧
    4 ≤ s.params.maxBlock ∧ 4 ≤ s.ctx.readSize.toNat ∧ s.ctx.readAddr.toNat ≤ (0x0B000C : Word).toNat ∧
    (0x0B000C : Word).toNat + 4 ≤ s.ctx.readAddr.toNat + s.ctx.readSize.toNat ∧
    ReadsBlock s (0x0B000C : Word).toNat 4 d e1 ∧
    FinishesIf s ((0x0B000C : Word).toNat + 4 = s.ctx.readAddr.toNat + s.ctx.readSize.toNat) e2 ∧ s.meets (e1 ++ e2) [] :=
  ⟨opened (readBlk (0x0B000C : Word).toNat [1, 2, 3, 4] ++ finX 0x40) 16, [1, 2, 3, 4], _, _, rfl, (by decide : 4 ≤ 8192),
    (by decide : 4 ≤ (16 : Word).toNat), (by decide : (0x0B0000 : Word).toNat ≤ (0x0B000C : Word).toNat),
    (by decide : (0x0B000C : Word).toNat + 4 ≤ (0x0B0000 : Word).toNat + (16 : Word).toNat),
    readsBlock_of rfl rfl (readBlk_reads _ [1, 2, 3, 4]),
    Or.inl ⟨(by decide : (0x0B000C : Word).toNat + 4 = (0x0B0000 : Word).toNat + (16 : Word).toNat),
      finishes_of rfl rfl (finX_finishes _)⟩, met_meets _⟩

theorem witness_HfinFinishes : ∃ (s : State) (exs : List Exchange), s.seq = .idle ∧ Finishes s exs ∧ s.meets exs [] :=
  ⟨met (finX 0x30), _, rfl, finishes_of rfl rfl (finX_finishes _), met_meets _⟩

/-- A handled packet at the end of its packet, one that leaves bytes, and one read again after the release. -/
theorem witness_HandledPackets_end : ∃ (s : State) (b : List Byte) (exs : List Exchange), s.seq = .idle ∧
    Services s (some (.wifi .respConStateChanged)) b exs ∧ s.meets exs [] :=
  ⟨opened (readBlk 0x0B0008 [0, 0, 0, 0] ++ finX 0x30) 12, _, _, rfl, services_conState _, met_meets _⟩
theorem witness_HandledPackets_sizes : ∀ v ∈ [(WifiCommand.respConStateChanged, 4), (.respGetSysTime, 8),
      (.respConnInfo, 48), (.respScanResult, 44)], ∃ (s : State) (b : List Byte) (exs : List Exchange), s.seq = .idle ∧
    Services s (some (.wifi v.1)) b exs ∧ s.meets exs [] := by
  intro v hv
  refine ⟨opened (readBlk 0x0B0008 (List.replicate v.2 0) ++ finX 0x30) 100, List.replicate v.2 0, _, rfl, ?_, met_meets _⟩
  have hr : ReadsBlock (opened (readBlk 0x0B0008 (List.replicate v.2 0) ++ finX 0x30) 100) (0x0B0000 + 8) v.2
      (List.replicate v.2 0) (readBlk 0x0B0008 (List.replicate v.2 0)) := by
    have := readsBlock_of (s := opened (readBlk 0x0B0008 (List.replicate v.2 0) ++ finX 0x30) 100) rfl rfl
      (readBlk_reads 0x0B0008 (List.replicate v.2 0))
    rwa [List.length_replicate] at this
  have hf : FinishesIf (opened (readBlk 0x0B0008 (List.replicate v.2 0) ++ finX 0x30) 100)
      (false = false ∨ 100 = 8 + v.2) (finX 0x30) := Or.inl ⟨Or.inl rfl, finishes_of rfl rfl (finX_finishes _)⟩
  simp only [List.mem_cons, List.not_mem_nil, or_false] at hv
  rcases hv with rfl | rfl | rfl | rfl <;> exact ⟨by decide, _, _, rfl, hr, hf⟩

theorem witness_UnhandledPackets : ∃ (s : State) (exs : List Exchange), s.seq = .idle ∧
    (Instr.hifWifiOther 0xEE 16).wf s.params = true ∧ (Instr.hifIpAny 65 16).wf s.params = true ∧
    s.params.gidWifi ≠ s.params.gidIp ∧ (Instr.hifUnknownGroup 7 16 16).wf s.params = true ∧
    FinishesIf s (s.ctx.readDone = false) exs ∧ s.meets exs [] :=
  ⟨opened (finX 0x40) 16, _, rfl, by decide, by decide, by decide, by decide,
    Or.inl ⟨rfl, finishes_of rfl rfl (finX_finishes _)⟩, met_meets _⟩
theorem witness_UnhandledPackets_released : ∃ s : State, s.seq = .idle ∧ FinishesIf s (s.ctx.readDone = false) [] ∧ s.meets [] [] :=
  ⟨quiet, rfl, Or.inr ⟨by decide, rfl⟩, rfl⟩

theorem witness_ConnectionStatus : ∃ (s : State) (b : List Byte) (exs : List Exchange), s.seq = .idle ∧
    s.params.csConnected ≠ s.params.csDisconnected ∧ Services s (some (.wifi .respConStateChanged)) b exs ∧ s.meets exs [] ∧
    b[0]? = some s.params.csConnected ∧ s.ds.mode = .station :=
  ⟨opened (readBlk 0x0B0008 [0, 0, 0, 0] ++ finX 0x30) 12, [0, 0, 0, 0], _, rfl, by decide, services_conState _, met_meets _,
    by decide, rfl⟩
/-- `s` in the mode `m`. -/
def modal (m : Mode) (s : State) : State := { s with ds := { s.ds with mode := m } }

/-- The other rows of the table: the byte and the mode varied. -/
theorem witness_ConnectionStatus_rows : ∀ x ∈ [(0x00 : Byte), 0x01, 0x02, 0xFF], ∀ m ∈ [Mode.station, .ap], ∃ (s : State)
    (b : List Byte) (exs : List Exchange), s.seq = .idle ∧ Services s (some (.wifi .respConStateChanged)) b exs ∧
    s.meets exs [] ∧ b[0]? = some x ∧ s.ds.mode = m :=
  fun x _ m _ => ⟨modal m (opened (readBlk 0x0B0008 [x, 0, 0, 0] ++ finX 0x30) 12), [x, 0, 0, 0], _, rfl,
    ⟨(by decide : 8 + 4 ≤ (12 : Word).toNat), _, _, rfl, readsBlock_of rfl rfl (readBlk_reads 0x0B0008 [x, 0, 0, 0]),
      Or.inl ⟨Or.inl rfl, finishes_of rfl rfl (finX_finishes 0x30)⟩⟩, met_meets _, rfl, rfl⟩

theorem witness_CrcoffWrites : State.reset.seq = .idle ∧ ({ State.reset with params := { p0 with crcForced := true } } : State).params.crcForced = true ∧
    State.reset.params.crcForced = false ∧ ∃ t, exec .crcoff State.reset = .next t := ⟨rfl, rfl, rfl, _, rfl⟩

theorem witness_CrcModeMonotone : ∃ t, exec .breset quiet = .next t ∧ quiet.crcDisabled = true ∧ t.crcDisabled = false :=
  ⟨_, rfl, rfl, rfl⟩

theorem witness_BresetResets : (windowed 12).seq = .idle ∧ ({ quiet with seq := .busy .hfin [1] } : State).seq ≠ .idle ∧
    ∃ t, exec .breset (windowed 12) = .next t := ⟨rfl, by decide, _, rfl⟩

theorem witness_AccessFrames : (∃ t, exec (.rdreg 0x1000) quiet = .next t) ∧ (∃ t, exec .dataMark quiet = .next t) ∧
    (∃ t, exec .hfin quiet = .next t) ∧ (∃ t, exec (.hrecv 0x0B0008 20) (windowed 10) = .next t) :=
  ⟨⟨_, rfl⟩, ⟨_, rfl⟩, ⟨_, rfl⟩, ⟨_, rfl⟩⟩

theorem witness_DispatchFrames : (∃ t, exec (.hisr .ap) quiet = .next t) ∧
    (∀ i ∈ [Instr.hifConState 12, .hifSysTime 16, .hifConnInfo 56, .hifScanResult 52, .hifWifiOther 0xEE 8, .hifIpAny 65 8,
      .hifUnknownGroup 7 16 16], packetCommand quiet.params i ≠ none ∧ ∃ t, exec i quiet = .next t) := by
  refine ⟨⟨_, rfl⟩, fun i hi => ?_⟩
  simp only [List.mem_cons, List.not_mem_nil, or_false] at hi
  rcases hi with rfl | rfl | rfl | rfl | rfl | rfl | rfl <;> exact ⟨by simp [packetCommand], _, rfl⟩

/-- A check of HRECV that fails, and an unhandled packet whose release breaks. -/
theorem witness_ErrorFamilies : (∃ t e, exec (.hrecv 0x0B0008 20) (windowed 10) = .next t ∧ t.result = some (.err e)) ∧
    packetCommand p0 (.hifWifiOther 0xEE 8) = some (some (.wifi .invalid)) ∧ payloadSize (some (.wifi .invalid)) = none ∧
    ∃ t e, exec (.hifWifiOther 0xEE 8) { windowed 10 with script := [⟨false, true, true, []⟩] } = .next t ∧
      t.result = some (.err e) := ⟨⟨_, _, rfl, rfl⟩, by decide, rfl, _, _, rfl, rfl⟩

/-- The release of a packet, its read or its write broken. -/
theorem fin_breaks_read : FinishesFails quiet (.spi .transfer) []
    (some (cutX (encodeFrame quiet .singleRead 0x1070 0 0 false ++ zeros p0 7))) := Or.inl (rd_breaks (by decide))
theorem fin_breaks_write : FinishesFails quiet (.spi .transfer) ([rdX 0x1070 0x30] ++ [])
    (some (cutX (encodeFrame quiet .singleWrite 0x1070 0x32 0 false ++ zeros p0 2))) :=
  Or.inr ⟨0x30, [_], [], rfl, rdX_reads _ _, wr_breaks (by decide)⟩

theorem met_finishes {e : DriverError} {exs : List Exchange} {cut : Option Cut} (h : FinishesFails quiet e exs cut) :
    Met FinishesFails e exs cut := met_of fun _ hp hc _ _ => (FinishesFails_congr hp hc).mpr h

theorem witness_NestedErrorsPropagate_hfin : ∃ e1 e2 c1 c2, Met FinishesFails (.spi .transfer) e1 c1 ∧
    Met FinishesFails (.spi .transfer) e2 c2 := ⟨_, _, _, _, met_finishes fin_breaks_read, met_finishes fin_breaks_write⟩

/-- `quiet` with the packet of `size` bytes at 0x0B0000 open. -/
def openCut (size : Word) (exs : List Exchange) (cut : Option Cut) : State :=
  { cutMet exs cut with ctx := ⟨0x0B0000, size, false⟩ }

/-- HRECV to the end of a packet of 12 bytes: its block read fails, its HFIN fails. -/
theorem witness_NestedErrorsPropagate_hrecv :
    (∃ (s : State) (exs : List Exchange) (cut : Option Cut), s.seq = .idle ∧ s.ctx = ⟨0x0B0000, 12, false⟩ ∧
      s.meetsCut exs cut [] ∧ ReadsBlockFails s 0x0B0008 4 (.spi .transfer) exs cut) ∧
    (∃ (s : State) (e1 e2 : List Exchange) (cut : Option Cut), s.seq = .idle ∧ s.ctx = ⟨0x0B0000, 12, false⟩ ∧
      (0x0B0008 : Word).toNat + 4 = (0x0B0000 : Word).toNat + (12 : Word).toNat ∧ s.meetsCut (e1 ++ e2) cut [] ∧
      ReadsBlock s 0x0B0008 4 [0, 0, 0, 0] e1 ∧ FinishesFails s (.spi .transfer) e2 cut) :=
  have hb : ReadsBlockFails quiet 0x0B0008 4 (.spi .transfer) [] (some (cutX (readCmd 0x0B0008 4).tx)) :=
    .command (breaks _)
  ⟨⟨openCut 12 [] (some (cutX (readCmd 0x0B0008 4).tx)), _, _, rfl, rfl, rfl,
      hb.congr (by rfl) (by rfl)⟩,
    ⟨openCut 12 (readBlk 0x0B0008 [0, 0, 0, 0] ++ []) _, _, _, _, rfl, rfl, by decide, rfl,
      readsBlock_of rfl rfl (readBlk_reads _ _), (FinishesFails_congr rfl rfl).mpr fin_breaks_read⟩⟩

theorem met_service {size : Word} {cmd : Option Command} {ctx : Ctx} {ds : DriverState} {e : DriverError}
    {exs : List Exchange} {cut : Option Cut} (h : ServiceFails (openCut size [] none) cmd ctx ds e exs cut) :
    ∃ s : State, s.seq = .idle ∧ s.meetsCut exs cut [] ∧ ServiceFails s cmd ctx ds e exs cut :=
  ⟨openCut size exs cut, rfl, rfl, h.congr (by rfl) (by rfl) (by rfl) (by rfl)⟩

theorem open_reads (size : Word) : ReadsBlock (openCut size [] none) (0x0B0000 + 8) 4 [0, 0, 0, 0]
    (readBlk 0x0B0008 [0, 0, 0, 0]) := readsBlock_of rfl rfl (readBlk_reads 0x0B0008 [0, 0, 0, 0])

theorem service_inHandler : ServiceFails (openCut 12 [] none) (some (.wifi .respConStateChanged)) ⟨0x0B0000, 12, true⟩
    quiet.ds (.spi .transfer) (readBlk 0x0B0008 [0, 0, 0, 0] ++ [])
    (some (cutX (encodeFrame quiet .singleRead 0x1070 0 0 false ++ zeros p0 7))) :=
  .releaseInHandler (k := 4) rfl (by decide) (open_reads 12) ((FinishesFails_congr rfl rfl).mpr fin_breaks_read)

/-- A packet's service fails: the packet too short, the handler's read, HFIN inside the handler, HFIN behind it, HFIN of a
packet without a handler. -/
theorem witness_NestedErrorsPropagate_packet : packetCommand p0 (.hifConState 12) = some (some (.wifi .respConStateChanged)) ∧
    packetCommand p0 (.hifUnknownGroup 7 16 16) = some none ∧
    ∃ x1 x2 x3 x4 x5 d1 d2 d3 d4 d5 e1 l1 l2 l3 l4 l5 c1 c2 c3 c4 c5,
      (∃ s : State, s.seq = .idle ∧ s.meetsCut l1 c1 [] ∧ ServiceFails s (some (.wifi .respConStateChanged)) x1 d1 e1 l1 c1) ∧
      (∃ s : State, s.seq = .idle ∧ s.meetsCut l2 c2 [] ∧ ServiceFails s (some (.wifi .respConStateChanged)) x2 d2 (.spi .transfer) l2 c2) ∧
      (∃ s : State, s.seq = .idle ∧ s.meetsCut l3 c3 [] ∧ ServiceFails s (some (.wifi .respConStateChanged)) x3 d3 (.spi .transfer) l3 c3) ∧
      (∃ s : State, s.seq = .idle ∧ s.meetsCut l4 c4 [] ∧ ServiceFails s (some (.wifi .respConStateChanged)) x4 d4 (.spi .transfer) l4 c4) ∧
      ∃ s : State, s.seq = .idle ∧ s.meetsCut l5 c5 [] ∧ ServiceFails s none x5 d5 (.spi .transfer) l5 c5 := by
  have hb : ReadsBlockFails quiet 0x0B0008 4 (.spi .transfer) [] (some (cutX (readCmd 0x0B0008 4).tx)) := .command (breaks _)
  exact ⟨rfl, rfl, _, _, _, _, _, _, _, _, _, _, _, _, _, _, _, _, _, _, _, _, _,
    met_service (size := 10) (.short (k := 4) rfl (by decide)),
    met_service (size := 12) (.payload (k := 4) rfl (by decide) (hb.congr (by rfl) (by rfl))),
    met_service (size := 12) service_inHandler,
    met_service (size := 16) (.releaseAfterHandler (k := 4) rfl (by decide) rfl (open_reads 16)
      ((FinishesFails_congr rfl rfl).mpr fin_breaks_read)),
    met_service (size := 16) (.releaseUnhandled rfl rfl ((FinishesFails_congr rfl rfl).mpr fin_breaks_read))⟩

theorem met_hisr {ctx : Ctx} {ds : DriverState} {e : DriverError} {exs : List Exchange} {cut : Option Cut}
    (h : HisrFails quiet ctx ds e exs cut) : Met (HisrFails · ctx ds) e exs cut :=
  met_of fun _ hp hc hx hd => h.congr hp hc hx hd

theorem claims (reg : Word) (h : reg.getLsbD 0 = true) :
    Claims quiet reg ([rdX 0x1070 reg] ++ [wrX 0x1070 (reg &&& ~~~(1#32 <<< 0))]) :=
  ⟨[_], [_], rfl, rdX_reads _ _, h, wrX_writes _ _⟩

/-- HISR in station mode, one failure for each row of R262: step 1, step 2, HFIN of an empty packet, both halves of step 5,
the service of the packet (HFIN inside the handler, V60.5). -/
theorem witness_NestedErrorsPropagate_hisr : quiet.ds.mode = .station ∧ ∃ e1 e2 e3 e4 e5 e6 c1 c2 c3 c4 c5 c6,
    Met (HisrFails · quiet.ctx quiet.ds) (.spi .transfer) e1 c1 ∧ Met (HisrFails · quiet.ctx quiet.ds) (.spi .transfer) e2 c2 ∧
    Met (HisrFails · ⟨0, 0, true⟩ quiet.ds) (.spi .transfer) e3 c3 ∧
    Met (HisrFails · ⟨0, 0, false⟩ quiet.ds) (.spi .transfer) e4 c4 ∧
    Met (HisrFails · ⟨0x0B0000, 12, false⟩ quiet.ds) (.spi .transfer) e5 c5 ∧
    Met (HisrFails · ⟨0x0B0000, 12, true⟩ quiet.ds) (.spi .transfer) e6 c6 := by
  have hc : headerCommand quiet [0x01, 0x2C, 0x0C, 0x00] = some (.wifi .respConStateChanged) := by decide
  exact ⟨rfl, _, _, _, _, _, _, _, _, _, _, _, _,
    met_hisr (.read (rd_breaks (by decide))),
    met_hisr (.claim (reg := 1) (rdX_reads _ _) (by decide) (wr_breaks (by decide))),
    met_hisr (.releaseEmpty (claims 1 (by decide)) (by decide) fin_breaks_read),
    met_hisr (.address (claims 0x31 (by decide)) (by decide) (rd_breaks (by decide))),
    met_hisr (.header (claims 0x31 (by decide)) (by decide) (by decide) (rdX_reads _ _) (.command (breaks _))),
    met_hisr (.service (announces rfl rfl 0x31 12 [0x01, 0x2C, 0x0C, 0x00] (by decide) (by decide) (by decide) rfl)
      (by rw [hc]; exact service_inHandler.congr (by rfl) (by rfl) (by rfl) (by rfl)))⟩

/-- In bounds at both ends of the count, and an HRECV that fails its checks. -/
theorem witness_HostOperationsTerminate : isHostOp (.rdblk 0 8192) = true ∧ quiet.seq = .idle ∧ inBounds quiet (.rdblk 0 1) ∧
    inBounds quiet (.rdblk 0 8192) ∧ inBounds (windowed 10) (.hrecv 0x0B0008 20) ∧ inBounds quiet .hfin :=
  ⟨rfl, rfl, ⟨by decide, by decide⟩, ⟨by decide, by decide⟩, fun h => absurd h (by decide), trivial⟩

theorem witness_StepKeepsInvariant : State.reset.Inv ∧ ∃ t, step State.reset = .next t :=
  ⟨⟨default_wellFormed, by decide, by simp [DriverState.widthsOk, State.reset]⟩, _, rfl⟩

end Sys2Proof.Tests
end

/-! The CRC7 unit (40_crc7.md). Two facts about one bit step carry the laws: the step is linear over exclusive-or, and
under an odd polynomial it loses no information about the register. -/

namespace Sys2Proof.Machine

open Sys2Proof

/-! ## One bit -/

/-- The bit step: shift, then subtract the polynomial or nothing. -/
theorem crc7Bit_eq (poly c : BitVec 7) (b : Bool) :
    crc7Bit poly c b = (c <<< 1) ^^^ (if (c.getLsbD 6 ^^ b) = true then poly else 0) := by
  unfold crc7Bit
  split <;> simp

/-- The bit step in the words of R121, by comparing the bit shifted out with the data bit. -/
theorem crc7Bit_eq_compare (poly c : BitVec 7) (b : Bool) :
    crc7Bit poly c b = (c <<< 1) ^^^ (if c.getLsbD 6 = b then 0 else poly) := by
  rw [crc7Bit_eq]
  cases c.getLsbD 6 <;> cases b <;> rfl

/-- A data bit equal to the bit shifted out subtracts nothing. -/
theorem crc7Bit_of_eq (poly : BitVec 7) {c : BitVec 7} {b : Bool} (h : c.getLsbD 6 = b) :
    crc7Bit poly c b = c <<< 1 := by rw [crc7Bit_eq_compare, if_pos h]; exact BitVec.xor_zero

/-- Subtracting on an exclusive-or of two conditions is subtracting on each. -/
theorem subtractIf_xor (poly : BitVec 7) (p q : Bool) :
    (if (p ^^ q) = true then poly else 0) = (if p = true then poly else 0) ^^^ (if q = true then poly else 0) := by
  cases p <;> cases q <;> simp

/-- The bit step is linear in the register and the data bit together. -/
theorem crc7Bit_xor (poly c c' : BitVec 7) (b b' : Bool) :
    crc7Bit poly (c ^^^ c') (b ^^ b') = crc7Bit poly c b ^^^ crc7Bit poly c' b' := by
  simp only [crc7Bit_eq, BitVec.getLsbD_xor, BitVec.shiftLeft_xor_distrib, subtractIf_xor]
  ac_rfl

/-- Only the zero register is shifted to zero without a data bit, when the polynomial is odd: bit 0 of the result says
whether the polynomial was subtracted. -/
theorem eq_zero_of_crc7Bit_false {poly : BitVec 7} (hp : poly.getLsbD 0 = true) {c : BitVec 7}
    (h : crc7Bit poly c false = 0) : c = 0 := by
  have htop : c.getLsbD 6 = false := by
    by_contra hset
    have hbit0 : (crc7Bit poly c false).getLsbD 0 = false := by rw [h]; rfl
    rw [crc7Bit_eq_compare, if_neg hset, BitVec.getLsbD_xor, hp] at hbit0
    simp at hbit0
  rw [crc7Bit_of_eq poly htop] at h
  have hsmall : 2 * c.toNat < 2 ^ 7 :=
    BitVec.msb_eq_false_iff_two_mul_lt.mp (c.msb_eq_getLsbD_last.trans htop)
  bv_omega

theorem crc7Bit_injective {poly : BitVec 7} (hp : poly.getLsbD 0 = true) (b : Bool) :
    Function.Injective (crc7Bit poly · b) := by
  intro c c' h
  have hdiff : crc7Bit poly (c ^^^ c') false = 0 := by
    calc crc7Bit poly (c ^^^ c') false
        = crc7Bit poly (c ^^^ c') (b ^^ b) := by rw [Bool.xor_self]
      _ = crc7Bit poly c b ^^^ crc7Bit poly c' b := crc7Bit_xor ..
      _ = 0 := BitVec.xor_eq_zero_iff.mpr h
  exact BitVec.xor_eq_zero_iff.mp (eq_zero_of_crc7Bit_false hp hdiff)

/-! ## One byte -/

/-- The byte step as the loop of R121 over the bits 7 to 0. -/
theorem crc7Byte_eq_foldl (poly c : BitVec 7) (d : Byte) :
    crc7Byte poly c d = [7, 6, 5, 4, 3, 2, 1, 0].foldl
      (fun (c : BitVec 7) (j : Nat) => (c <<< 1) ^^^ (if c.getLsbD 6 = d.getLsbD j then 0 else poly)) c := by
  simp only [crc7Byte, crc7Bit_eq_compare, List.foldl_cons, List.foldl_nil]

theorem crc7Byte_xor (poly c c' : BitVec 7) (d d' : Byte) :
    crc7Byte poly (c ^^^ c') (d ^^^ d') = crc7Byte poly c d ^^^ crc7Byte poly c' d' := by
  simp only [crc7Byte, BitVec.getLsbD_xor, crc7Bit_xor]

theorem crc7Byte_injective {poly : BitVec 7} (hp : poly.getLsbD 0 = true) (d : Byte) :
    Function.Injective (crc7Byte poly · d) := by
  have step (j : Nat) := crc7Bit_injective hp (d.getLsbD j)
  exact (step 0).comp <| (step 1).comp <| (step 2).comp <| (step 3).comp <| (step 4).comp <| (step 5).comp <|
    (step 6).comp (step 7)

/-- While the register is fed its own bits, each step shifts and subtracts nothing. -/
theorem crc7Bit_own_bit (poly c : BitVec 7) {i j : Nat} (h : i + j = 7) :
    crc7Bit poly (c <<< j) ((c.setWidth 8 <<< 1).getLsbD i) = c <<< (j + 1) := by
  rw [crc7Bit_of_eq, BitVec.shiftLeft_add]
  simp only [BitVec.getLsbD_shiftLeft, BitVec.getLsbD_setWidth]
  cases i with
  | zero => simp [show j = 7 by omega]
  | succ i =>
    have hi : i < 7 ∧ i < 8 ∧ i + 1 < 8 ∧ 6 - j = i ∧ ¬ 6 < j := by omega
    simp [hi]

/-- Fed its own bits, the register runs empty. -/
theorem crc7Byte_self (poly c : BitVec 7) : crc7Byte poly c (c.setWidth 8 <<< 1) = 0 := by
  have first := crc7Bit_own_bit poly c (i := 7) (j := 0) rfl
  rw [BitVec.shiftLeft_zero] at first
  unfold crc7Byte
  simp only [first, crc7Bit_own_bit poly c, Nat.reduceAdd]
  bv_omega

/-- The table step (R122): the register may be moved into the data byte. -/
theorem crc7Byte_eq_zero_register (poly c : BitVec 7) (d : Byte) :
    crc7Byte poly c d = crc7Byte poly 0 ((c.setWidth 8 <<< 1) ^^^ d) := by
  calc crc7Byte poly c d
      = crc7Byte poly c (c.setWidth 8 <<< 1) ^^^ crc7Byte poly c d := by simp [crc7Byte_self]
    _ = crc7Byte poly (c ^^^ c) ((c.setWidth 8 <<< 1) ^^^ d) := (crc7Byte_xor ..).symm
    _ = crc7Byte poly 0 ((c.setWidth 8 <<< 1) ^^^ d) := by rw [BitVec.xor_self]; rfl

/-- A byte of one set bit moves the zero register. -/
theorem crc7Byte_singleBit_ne_zero : ∀ k < 8, crc7Byte 0x09 0 (1#8 <<< k) ≠ 0 := by decide

/-- One changed data bit changes the register. -/
theorem crc7Byte_flip_ne (c : BitVec 7) (d : Byte) {k : Nat} (hk : k < 8) :
    crc7Byte 0x09 c d ≠ crc7Byte 0x09 c (d ^^^ (1#8 <<< k)) := by
  intro heq
  apply crc7Byte_singleBit_ne_zero k hk
  calc crc7Byte 0x09 0 (1#8 <<< k)
      = crc7Byte 0x09 (c ^^^ c) (d ^^^ (d ^^^ (1#8 <<< k))) := by simp
    _ = crc7Byte 0x09 c d ^^^ crc7Byte 0x09 c (d ^^^ (1#8 <<< k)) := crc7Byte_xor ..
    _ = 0 := BitVec.xor_eq_zero_iff.mpr heq

/-! ## Byte strings -/

@[simp] theorem crc7_nil (poly c : BitVec 7) : crc7 poly c [] = c := rfl

@[simp] theorem crc7_cons (poly c : BitVec 7) (d : Byte) (b : List Byte) :
    crc7 poly c (d :: b) = crc7 poly (crc7Byte poly c d) b := rfl

theorem crc7_append (poly c : BitVec 7) (b1 b2 : List Byte) :
    crc7 poly c (b1 ++ b2) = crc7 poly (crc7 poly c b1) b2 := List.foldl_append

theorem crc7_injective {poly : BitVec 7} (hp : poly.getLsbD 0 = true) (b : List Byte) :
    Function.Injective (crc7 poly · b) := by
  induction b with
  | nil => exact fun _ _ h => h
  | cons d b ih => exact ih.comp (crc7Byte_injective hp d)

/-- The check byte loses no bit of the CRC (R123). -/
theorem crc7_eq_of_checkByte_eq {poly : BitVec 7} {b1 b2 : List Byte} (h : checkByte poly b1 = checkByte poly b2) :
    crc7 poly Config.crc7Init b1 = crc7 poly Config.crc7Init b2 := by
  unfold checkByte at h
  bv_omega

/-- CRC7 completes in every state, with its value on the result port and nothing else touched (R100, R121). -/
theorem exec_crc7 (init : BitVec 7) (b : List Byte) (s : State) :
    exec (.crc7 init b) s = .next (s.answered (.crc (crc7 s.params.crc7Poly init b))) := rfl

/-! ## The obligations -/

/-- Settles O9: the byte step is the loop over the bits, the string step is by definition the fold over the bytes. -/
theorem crc7IsTheLoop : Obligations.Crc7IsTheLoop := by
  refine ⟨exec_crc7, crc7_nil, fun poly c d b => ?_, by decide +kernel, by decide +kernel, by decide +kernel⟩
  rw [crc7_cons, crc7Byte_eq_foldl]

/-- Settles O10: a changed bit changes the register behind its byte, and no later byte maps two registers to one. -/
theorem crc7Laws : Obligations.Crc7Laws := by
  refine ⟨fun s t init b hs ht => ⟨crc7 0x09 init b, ?_, ?_, BitVec.isLt _⟩, crc7_append 0x09, ?_⟩
  · rw [exec_crc7, hs]
  · rw [exec_crc7, ht]
  · intro b1 b2 d k hk heq
    have hcrc := crc7_eq_of_checkByte_eq heq
    rw [crc7_append, crc7_append, crc7_cons, crc7_cons] at hcrc
    exact crc7Byte_flip_ne _ d hk (crc7_injective rfl b2 hcrc)

/-- Settles O11, by moving the register into the data byte; the table entries are evaluated. -/
theorem crc7TableForm : Obligations.Crc7TableForm := by
  refine ⟨fun c d b => ?_, by decide⟩
  rw [crc7_cons, crc7_cons, crc7_nil, ← crc7Byte_eq_zero_register]

/-- Settles O8, by evaluation. -/
theorem crc7TestValues : Obligations.Crc7TestValues := by
  unfold Obligations.Crc7TestValues
  decide +kernel

end Sys2Proof.Machine

/-! Register access (42_register_block_access.md), whatever the peer answers: RDREG and WRREG make one transfer each, and
its bytes are settled before it starts; the peer decides only how it ends. -/

namespace Sys2Proof.Machine

open Sys2Proof

/-! ## The trace through the sequencer's operations -/

/-- A transfer is recorded once with all its bytes, wherever the pins or the peer break it (R52). -/
theorem xfer_trace (tx : List Byte) (s : State) : ∃ fin, (xfer tx s).2.trace = s.trace ++ [⟨tx, fin⟩] := by
  dsimp only [xfer]
  split_ifs <;> exact ⟨_, rfl⟩

/-- A step's position is no part of the trace. -/
theorem Op.at_trace {α : Type} (k : Nat) (m : Op α) (s : State) :
    (Op.at k m s).2.trace = (m { s with seq := s.seq.into k }).2.trace := rfl

/-- A continuation that makes no transfer leaves the trace of what ran before it, error or not. -/
theorem Op.bind_trace {α β : Type} {f : α → Op β} (hf : ∀ a s, (f a s).2.trace = s.trace) (m : Op α) (s : State) :
    (m.bind f s).2.trace = (m s).2.trace := by
  rcases hm : m s with ⟨e | a, s'⟩
  · rw [Op.bind_of_error hm]
  · rw [Op.bind_of_ok hm, hf]

/-! ## The one transfer of a register access -/

/-- The three steps RDREG and WRREG share, encode, transfer, check: one transfer, of the command and its fill. -/
theorem encodeXferCheck_trace {α : Type} (op : WireOp) (a d z : Word) (k : Bool) (fill : List Byte)
    (c : List Byte → Except DriverError α) (s : State) :
    ∃ fin, (((Op.at 1 (encodeStep op a d z k)).bind fun cmd => (Op.at 2 (xfer (cmd ++ fill))).bind fun rx =>
      Op.at 3 (Op.check (c rx))) s).2.trace = s.trace ++ [⟨encodeFrame s op a d z k ++ fill, fin⟩] := by
  rw [Op.bind_of_ok (Op.at_eq (encodeStep_apply ..)), Op.bind_trace fun _ _ => rfl, Op.at_trace]
  exact xfer_trace ..

theorem rdreg_trace (a : Word) (s : State) :
    ∃ fin, (rdreg a s).2.trace = s.trace ++
      [⟨encodeFrame s (readOpFor a) a 0 0 (readOpFor a = .internalRead) ++ zeros s.params s.params.regRspRd, fin⟩] :=
  encodeXferCheck_trace ..

theorem wrreg_trace (a d : Word) (s : State) :
    ∃ fin, (wrreg a d s).2.trace = s.trace ++
      [⟨encodeFrame s (writeOpFor a) a d 0 (writeOpFor a = .internalWrite) ++ zeros s.params s.params.regRspWr, fin⟩] :=
  encodeXferCheck_trace ..

/-- RDREG on a free port completes with one transfer (R150). -/
theorem exec_rdreg_trace {s : State} (hs : s.seq = .idle) (a : Word) :
    ∃ t fin, exec (.rdreg a) s = .next t ∧ t.trace = s.trace ++
      [⟨encodeFrame s (readOpFor a) a 0 0 (readOpFor a = .internalRead) ++ zeros s.params s.params.regRspRd, fin⟩] := by
  obtain ⟨fin, hfin⟩ := rdreg_trace a (accept .rdreg (fun w => { w with address := a }) s)
  refine ⟨_, fin, runOp_idle hs, ?_⟩
  rw [complete_trace, Op.bind_trace fun _ _ => rfl]
  exact hfin

/-- WRREG on a free port completes with one transfer (R153). -/
theorem exec_wrreg_trace {s : State} (hs : s.seq = .idle) (a d : Word) :
    ∃ t fin, exec (.wrreg a d) s = .next t ∧ t.trace = s.trace ++
      [⟨encodeFrame s (writeOpFor a) a d 0 (writeOpFor a = .internalWrite) ++ zeros s.params s.params.regRspWr, fin⟩] := by
  obtain ⟨fin, hfin⟩ := wrreg_trace a d (accept .wrreg (fun w => { w with address := a, data := d }) s)
  refine ⟨_, fin, runOp_idle hs, ?_⟩
  rw [complete_trace, Op.unit, Op.seq, Op.bind_trace fun _ _ => rfl]
  exact hfin

/-! ## Its opcode -/

/-- Every command begins with its opcode byte, with a check byte or without (R132 to R142). -/
theorem encodeFrame_append_head? (s : State) (op : WireOp) (a d z : Word) (k : Bool) (fill : List Byte) :
    (encodeFrame s op a d z k ++ fill).head? = some (s.params.opc.byteOf op) := by
  have hbody : (body s.params op a d z k).head? = some (s.params.opc.byteOf op) := by cases op <;> rfl
  unfold encodeFrame withCheck
  split <;> simp [hbody]

theorem readOpFor_of_le {a : Word} (h : a.toNat ≤ 0xFF) : readOpFor a = .internalRead := if_pos h
theorem readOpFor_of_lt {a : Word} (h : 0xFF < a.toNat) : readOpFor a = .singleRead := if_neg (Nat.not_le.mpr h)
theorem writeOpFor_of_le {a : Word} (h : a.toNat ≤ 0x30) : writeOpFor a = .internalWrite := if_pos h
theorem writeOpFor_of_lt {a : Word} (h : 0x30 < a.toNat) : writeOpFor a = .singleWrite := if_neg (Nat.not_le.mpr h)

theorem exec_rdreg_opcode {s : State} (hs : s.seq = .idle) {a : Word} {op : WireOp} (hop : readOpFor a = op) :
    ∃ t x, exec (.rdreg a) s = .next t ∧ t.trace = s.trace ++ [x] ∧ x.tx.head? = some (s.params.opc.byteOf op) := by
  obtain ⟨t, fin, ht, htrace⟩ := exec_rdreg_trace hs a
  exact ⟨t, _, ht, htrace, hop ▸ encodeFrame_append_head? ..⟩

theorem exec_wrreg_opcode {s : State} (hs : s.seq = .idle) {a : Word} (d : Word) {op : WireOp}
    (hop : writeOpFor a = op) :
    ∃ t x, exec (.wrreg a d) s = .next t ∧ t.trace = s.trace ++ [x] ∧ x.tx.head? = some (s.params.opc.byteOf op) := by
  obtain ⟨t, fin, ht, htrace⟩ := exec_wrreg_trace hs a d
  exact ⟨t, _, ht, htrace, hop ▸ encodeFrame_append_head? ..⟩

/-! ## The obligation -/

/-- Settles O24: the opcode of the one transfer is the one the address selects, and each of the six addresses lies on
its side of the threshold. -/
theorem clocklessThresholds : Obligations.ClocklessThresholds := by
  intro s d hs v hv
  simp only [List.mem_cons, List.not_mem_nil, or_false] at hv
  rcases hv with rfl | rfl | rfl | rfl | rfl | rfl
  · exact exec_rdreg_opcode hs (readOpFor_of_le (by decide))
  · exact exec_rdreg_opcode hs (readOpFor_of_lt (by decide))
  · exact exec_wrreg_opcode hs d (writeOpFor_of_le (by decide))
  · exact exec_wrreg_opcode hs d (writeOpFor_of_lt (by decide))
  · exact exec_rdreg_opcode hs (readOpFor_of_le (by decide))
  · exact exec_rdreg_opcode hs (readOpFor_of_le (by decide))

end Sys2Proof.Machine

/-! The HIF header codec (43_hif_header.md). The packed word is the concatenation of the three fields, length on top:
every law of HDR.PACK and HDR.UNPACK is read off that one form. -/

namespace Sys2Proof.Machine

open Sys2Proof

/-! ## The bytes and the constructor -/

/-- R185(a): the length is the only field that travels in two bytes. -/
theorem hdrFromBytes_hdrToBytes (h : HifHeader) : hdrFromBytes (hdrToBytes h) = h :=
  congrArg (HifHeader.mk h.groupId h.opcode) (be16_bytes h.length)

/-- Up to the bound of R181 the payload length plus 8 fits the length field. -/
theorem hdrNew_length_toNat (g o : Byte) {n : Nat} (hn : n ≤ 0xFFF7) : (hdrNew g o n).length.toNat = n + 8 :=
  Nat.mod_eq_of_lt (show n + 8 < 2 ^ 16 by omega)

/-! ## The packed word -/

/-- The packed word is its fields side by side (R184). -/
theorem hdrPack_eq_append (h : HifHeader) : hdrPack h = h.length ++ h.opcode ++ h.groupId := by
  have key := BitVec.setWidth_append_append_eq_shiftLeft_setWidth_or (w''' := 32)
    (b := h.length) (b' := h.opcode) (b'' := h.groupId)
  rw [BitVec.setWidth_eq] at key
  exact key.symm

/-- R185(b): bytes 2 and 3, put together, are the length field. -/
theorem hdrPack_eq_le32 (h : HifHeader) :
    hdrPack h = le32 h.groupId h.opcode (byteAt h.length 0) (byteAt h.length 1) :=
  calc hdrPack h
      = h.length ++ h.opcode ++ h.groupId := hdrPack_eq_append h
    _ = be16 (byteAt h.length 1) (byteAt h.length 0) ++ h.opcode ++ h.groupId := by rw [be16_bytes]
    _ = le32 h.groupId h.opcode (byteAt h.length 0) (byteAt h.length 1) := rfl

/-- Fields side by side do not overlap, so the word is their sum (R184). -/
theorem hdrPack_toNat (h : HifHeader) :
    (hdrPack h).toNat = h.length.toNat * 65536 + h.opcode.toNat * 256 + h.groupId.toNat := by
  rw [hdrPack_eq_append, BitVec.toNat_append, BitVec.toNat_append,
    ← Nat.shiftLeft_add_eq_or_of_lt h.opcode.isLt, ← Nat.shiftLeft_add_eq_or_of_lt h.groupId.isLt]
  simp only [Nat.shiftLeft_eq]
  omega

theorem setWidth_byteAt_one (v : BitVec 16) : (byteAt v 1).setWidth 32 = (v >>> 8).setWidth 32 := by
  unfold byteAt
  bv_omega

theorem setWidth_byteAt_zero (v : BitVec 16) : (byteAt v 0).setWidth 32 = (v &&& 0xFF).setWidth 32 := by
  have hmask : (v &&& 0xFF).toNat = v.toNat % 2 ^ 8 := Nat.and_two_pow_sub_one_eq_mod v.toNat 8
  apply BitVec.eq_of_toNat_eq
  rw [BitVec.toNat_setWidth, BitVec.toNat_setWidth, hmask]
  simp [byteAt]

/-- The first line of R184's formula: the four bytes, each shifted to its place. -/
theorem hdrPack_eq_or (h : HifHeader) :
    hdrPack h = ((h.length >>> 8).setWidth 32 <<< 24) ||| ((h.length &&& 0xFF).setWidth 32 <<< 16) |||
      (h.opcode.setWidth 32 <<< 8) ||| h.groupId.setWidth 32 := by
  have key := BitVec.setWidth_append_append_append_eq_shiftLeft_setWidth_or (w'''' := 32)
    (b := byteAt h.length 1) (b' := byteAt h.length 0) (b'' := h.opcode) (b''' := h.groupId)
  rw [BitVec.setWidth_eq, setWidth_byteAt_one, setWidth_byteAt_zero] at key
  exact (hdrPack_eq_le32 h).trans key

/-! ## Its inverse -/

/-- The fields of R187 are slices of the word. -/
theorem hdrUnpack_eq_slices (w : Word) :
    hdrUnpack w = ⟨w.extractLsb' 0 8, w.extractLsb' 8 8, w.extractLsb' 16 16⟩ := by
  simp only [hdrUnpack, byteAt, BitVec.setWidth_ushiftRight_eq_extractLsb]

/-- Slicing the fields side by side gives each field back. -/
theorem hdrUnpack_hdrPack (h : HifHeader) : hdrUnpack (hdrPack h) = h := by
  have hgroup : (h.length ++ h.opcode ++ h.groupId).extractLsb' 0 8 = h.groupId := BitVec.extractLsb'_append_eq_right
  have hopcode : (h.length ++ h.opcode ++ h.groupId).extractLsb' 8 8 = h.opcode := by
    rw [BitVec.extractLsb'_append_eq_of_le (Nat.le_refl 8)]
    exact BitVec.extractLsb'_append_eq_right
  have hlength : (h.length ++ h.opcode ++ h.groupId).extractLsb' 16 16 = h.length := by
    rw [BitVec.extractLsb'_append_eq_of_le (by decide : 8 ≤ 16)]
    exact BitVec.extractLsb'_append_eq_left
  rw [hdrUnpack_eq_slices, hdrPack_eq_append, hgroup, hopcode, hlength]

/-- Neighbouring slices side by side are the word they were cut from. -/
theorem hdrPack_hdrUnpack (w : Word) : hdrPack (hdrUnpack w) = w := by
  rw [hdrPack_eq_append, hdrUnpack_eq_slices]
  calc w.extractLsb' 16 16 ++ w.extractLsb' 8 8 ++ w.extractLsb' 0 8
      = w.extractLsb' 8 24 ++ w.extractLsb' 0 8 := by
        rw [BitVec.extractLsb'_append_extractLsb'_eq_extractLsb' (start₁ := 8) (len₁ := 8) rfl]
    _ = w := BitVec.extractLsb'_append_extractLsb'

/-- R185(c): what can be unpacked was not confused by packing. -/
theorem hdrPack_injective : Function.Injective hdrPack :=
  Function.LeftInverse.injective hdrUnpack_hdrPack

/-! ## The instructions -/

/-- HDR.PACK completes in every state, with its word on the result port and nothing else touched (R100, R184). -/
theorem exec_hdrPack (h : HifHeader) (s : State) : exec (.hdrPack h) s = .next (s.answered (.word (hdrPack h))) := rfl

/-- HDR.UNPACK completes in every state, with its header on the result port and nothing else touched (R100, R187). -/
theorem exec_hdrUnpack (w : Word) (s : State) : exec (.hdrUnpack w) s = .next (s.answered (.header (hdrUnpack w))) := rfl

/-! ## The obligations -/

/-- Settles O16: a constructed header comes back from its bytes, so its length field is the constructor's; packing has
an inverse, so it is injective. -/
theorem headerLaws : Obligations.HeaderLaws := by
  refine ⟨hdrFromBytes_hdrToBytes, fun g o n hn => ?_, hdrPack_eq_le32, fun _ _ => @hdrPack_injective _ _⟩
  rw [hdrFromBytes_hdrToBytes, hdrNew_length_toNat g o hn]

/-- Settles O17: the word HDR.PACK answers has both forms; the worked example is evaluated. -/
theorem headerPackWord : Obligations.HeaderPackWord :=
  ⟨fun h s => ⟨hdrPack h, exec_hdrPack h s, hdrPack_eq_or h, hdrPack_toNat h⟩, by decide⟩

/-- Settles O18: HDR.UNPACK answers the slices of the word, and slicing and concatenating undo each other. -/
theorem headerUnpackWord : Obligations.HeaderUnpackWord := by
  refine ⟨fun w s => ?_, hdrUnpack_hdrPack, hdrPack_hdrUnpack⟩
  rw [exec_hdrUnpack, hdrUnpack_eq_slices]

end Sys2Proof.Machine

/-! Session control (45_session_control.md). `crc_disabled` is a latch: CRCOFF sets it, and every rule of the sequencer
but BRESET's leaves it set, because a rule is a chain of steps that each leave it set. -/

namespace Sys2Proof.Machine

open Sys2Proof

/-! ## Rules that leave the latch set -/

/-- A rule started with `crc_disabled` set ends, in a value or in an error, with it set. -/
def Op.KeepsCrcDisabled {α : Type} (m : Op α) : Prop :=
  ∀ s : State, s.crcDisabled = true → (m s).2.crcDisabled = true

namespace Op.KeepsCrcDisabled

variable {α β : Type}

theorem ret (a : α) : (Op.ret a).KeepsCrcDisabled := fun _ hs => hs

theorem assign {f : State → State} (hf : ∀ s, s.crcDisabled = true → (f s).crcDisabled = true) :
    (Op.assign f).KeepsCrcDisabled := hf

/-- On an error the chain ends where its first part ended (R260). -/
theorem bind {m : Op α} {f : α → Op β} (hm : m.KeepsCrcDisabled) (hf : ∀ a, (f a).KeepsCrcDisabled) :
    (m.bind f).KeepsCrcDisabled := by
  intro s hs
  have hfirst := hm s hs
  rcases hrun : m s with ⟨e | a, s1⟩ <;> rw [hrun] at hfirst
  · rw [Op.bind_of_error hrun]
    exact hfirst
  · rw [Op.bind_of_ok hrun]
    exact hf a s1 hfirst

theorem seq {m : Op α} {n : Op β} (hm : m.KeepsCrcDisabled) (hn : n.KeepsCrcDisabled) : (m.seq n).KeepsCrcDisabled :=
  hm.bind fun _ => hn

theorem atStep (k : Nat) {m : Op α} (hm : m.KeepsCrcDisabled) : (Op.at k m).KeepsCrcDisabled :=
  fun s hs => hm { s with seq := s.seq.into k } hs

theorem unit {m : Op Unit} (hm : m.KeepsCrcDisabled) : m.unit.KeepsCrcDisabled := hm.seq (.ret _)

/-- The link does not reach the flags. -/
theorem of_link {n : Nat} {m : Op α}
    (h : ∀ {s s' : State} {r : Except DriverError α}, m s = (r, s') → LinkStep n s s') :
    m.KeepsCrcDisabled :=
  fun s hs => (h (s := s) rfl).crcDisabled.trans hs

end Op.KeepsCrcDisabled

open Op.KeepsCrcDisabled

/-! ## The rules of the HIF engine -/

theorem hfin_keepsCrcDisabled : hfin.KeepsCrcDisabled :=
  fun s hs => (hfin_link (s := s) rfl).crcDisabled.trans hs

theorem hrecv_keepsCrcDisabled (a n : Nat) : (hrecv a n).KeepsCrcDisabled := by
  intro s hs
  rcases (hrecv_spec (a := a) (n := n) (s := s) rfl).1 with link | link <;> exact link.crcDisabled.trans hs

theorem handler_keepsCrcDisabled (paddr size : Nat) {write : List Byte → State → State}
    (hw : ∀ b s, (write b s).crcDisabled = s.crcDisabled) : (handler paddr size write).KeepsCrcDisabled :=
  (hrecv_keepsCrcDisabled paddr size).bind fun b => assign fun s hs => (hw b s).trans hs

theorem wifiCallback_keepsCrcDisabled (v : WifiCommand) (paddr : Nat) : (wifiCallback v paddr).KeepsCrcDisabled := by
  cases v with
  | respConStateChanged => exact handler_keepsCrcDisabled _ _ applyConState_crcDisabled
  | respGetSysTime => exact handler_keepsCrcDisabled _ _ applySysTime_crcDisabled
  | respConnInfo => exact handler_keepsCrcDisabled _ _ applyConnInfo_crcDisabled
  | respScanResult => exact handler_keepsCrcDisabled _ _ applyScanResult_crcDisabled
  | named _ | invalid => exact ret ()

theorem dispatch_keepsCrcDisabled (cmd : Option Command) (paddr : Nat) : (dispatch cmd paddr).KeepsCrcDisabled := by
  match cmd with
  | some (.wifi v) => exact wifiCallback_keepsCrcDisabled v paddr
  | some (.ip _) | none => exact ret ()

theorem finishIfOpen_keepsCrcDisabled : finishIfOpen.KeepsCrcDisabled := by
  intro s hs
  unfold finishIfOpen
  split
  · exact hfin_keepsCrcDisabled s hs
  · exact hs

theorem servicePacket_keepsCrcDisabled (cmd : Option Command) : (servicePacket cmd).KeepsCrcDisabled := fun s =>
  (((dispatch_keepsCrcDisabled cmd _).atStep 6).seq ((finishIfOpen_keepsCrcDisabled.atStep 7).seq (ret _))) s

theorem fetchHeader_keepsCrcDisabled (size : Word) : (fetchHeader size).KeepsCrcDisabled := fun s =>
  ((of_link rdreg_link).bind fun _ => (assign fun _ hs => by exact hs).seq ((of_link rdblk_link).bind fun _ => ret _)) s

theorem hisr_keepsCrcDisabled : hisr.KeepsCrcDisabled := by
  intro s
  refine (((of_link rdreg_link).atStep 1).bind fun reg => ?_) s
  split
  · exact ret _
  · refine ((of_link wrreg_link).atStep 2).seq
      (((assign fun _ hs => by exact hs).atStep 3).seq (((ret _).atStep 4).bind fun size => ?_))
    split
    · exact (finishIfOpen_keepsCrcDisabled.atStep 7).seq (ret _)
    · exact ((fetchHeader_keepsCrcDisabled size).atStep 5).bind fun _ => servicePacket_keepsCrcDisabled _

/-! ## The instructions -/

/-- A request that goes on with `crc_disabled` set goes on to a state with it set. -/
def RequestKeepsCrcDisabled (run : State → Host.Outcome State Fault Refusal) : Prop :=
  ∀ {s t : State}, run s = .next t → s.crcDisabled = true → t.crcDisabled = true

theorem answer_keepsCrcDisabled {v : Value} : RequestKeepsCrcDisabled (answer v) := by
  intro s t h hs
  rw [answer_eq_next h]
  exact hs

theorem runOp_keepsCrcDisabled (op : HostOp) (latch : Work → Work) {m : Op Value} (hm : m.KeepsCrcDisabled) :
    RequestKeepsCrcDisabled (runOp op latch m) := by
  intro s t h hs
  obtain ⟨-, r, s', hrun, rfl⟩ := runOp_eq_next h
  have hend := hm (accept op latch s) hs
  rw [hrun] at hend
  exact hend

theorem execHdrNew_keepsCrcDisabled (g o : Byte) (n : Nat) : RequestKeepsCrcDisabled (execHdrNew g o n) := by
  intro s t h
  unfold execHdrNew at h
  split at h
  · exact answer_keepsCrcDisabled h
  · cases h

theorem runPacket_keepsCrcDisabled (cmd : Option Command) : RequestKeepsCrcDisabled (runPacket cmd) :=
  runOp_keepsCrcDisabled _ _ (servicePacket_keepsCrcDisabled cmd)

/-- No request but the reset event clears `crc_disabled` (R231). -/
theorem exec_keepsCrcDisabled {i : Instr} (hi : i ≠ .breset) : RequestKeepsCrcDisabled (exec i) := by
  intro s t h
  cases i with
  | dmaWrite | dmaRead | internalWrite | internalRead | terminate | repeatLast | dmaExtWrite | dmaExtRead | singleWrite
  | singleRead | resetPeer | encodeCmd | crc7 | checkByte | crc7Valid | hdrToBytes | hdrFromBytes | hdrPack | hdrUnpack
  | writeDone | readMarker => exact answer_keepsCrcDisabled h
  | hdrNew g o n => exact execHdrNew_keepsCrcDisabled g o n h
  | rdreg a => exact runOp_keepsCrcDisabled _ _ ((of_link rdreg_link).bind fun _ => ret _) h
  | wrreg a d => exact runOp_keepsCrcDisabled _ _ (of_link wrreg_link).unit h
  | rdblk a n =>
    obtain ⟨-, -, hrun⟩ := guarded_eq_next h
    exact runOp_keepsCrcDisabled _ _ ((of_link rdblk_link).bind fun _ => ret _) hrun
  | wrblk a b =>
    obtain ⟨-, -, hrun⟩ := guarded_eq_next h
    exact runOp_keepsCrcDisabled _ _ (of_link wrblk_link).unit hrun
  | hsend hd data ctrl =>
    obtain ⟨-, -, hctrl⟩ := guarded_eq_next h
    obtain ⟨-, -, hrun⟩ := guarded_eq_next hctrl
    exact runOp_keepsCrcDisabled _ _ (of_link hsend_link).unit hrun
  | hisr mode => exact runOp_keepsCrcDisabled _ _ ((assign fun _ hs => by exact hs).seq hisr_keepsCrcDisabled) h
  | hrecv a n =>
    obtain ⟨-, -, hrun⟩ := guarded_eq_next h
    exact runOp_keepsCrcDisabled _ _ ((hrecv_keepsCrcDisabled _ _).bind fun _ => ret _) hrun
  | hfin => exact runOp_keepsCrcDisabled _ _ hfin_keepsCrcDisabled.unit h
  | crcoff => exact runOp_keepsCrcDisabled _ _ (((assign fun _ _ => by rfl).atStep 1).seq (ret _)) h
  | breset => exact absurd rfl hi
  | hifConState | hifSysTime | hifConnInfo | hifScanResult | hifWifiOther | hifIpAny | hifUnknownGroup =>
    exact runPacket_keepsCrcDisabled _ h
  | dataMark => exact runOp_keepsCrcDisabled _ _ (of_link sendMark_link).unit h

/-- The reset event clears `crc_disabled` whenever it is admitted (R280). -/
theorem exec_breset_crcDisabled {s t : State} (h : exec .breset s = .next t) : t.crcDisabled = false := by
  obtain ⟨-, r, s', hrun, rfl⟩ := runOp_eq_next h
  cases hrun
  rfl

/-! ## CRCOFF -/

/-- CRCOFF on a free port writes its one bit and ends without a transfer (R230). -/
theorem exec_crcoff {s : State} (hs : s.seq = .idle) :
    exec .crcoff s = .next ({ s with crcDisabled := true }.ended (.ok .unit) [] s.script) := by
  refine (runOp_idle hs).trans (congrArg Host.Outcome.next ?_)
  rw [Op.seq_of_ok (Op.at_assign ..), Op.ret_apply]
  simp [setCrcDisabled, accept, complete, replyOf, State.ended]

/-- With the bit already set, CRCOFF leaves only the record of its end. -/
theorem exec_crcoff_of_crcDisabled {s : State} (hs : s.seq = .idle) (hc : s.crcDisabled = true) :
    exec .crcoff s = .next (s.ended (.ok .unit) [] s.script) := by
  have hset : { s with crcDisabled := true } = s := by rw [← hc]
  rw [exec_crcoff hs, hset]

theorem crcOn_of_crcForced {s : State} (h : s.params.crcForced = true) : crcOn s = true := by simp [crcOn, h]

theorem crcOn_of_crcDisabled {s : State} (hf : s.params.crcForced = false) (hc : s.crcDisabled = true) :
    crcOn s = false := by simp [crcOn, hf, hc]

/-- Without `crc_on` a command is its body alone (R130). -/
theorem encodeFrame_of_crcOff {s : State} (h : crcOn s = false) (op : WireOp) (a d z : Word) (k : Bool) :
    encodeFrame s op a d z k = body s.params op a d z k := by simp [encodeFrame, withCheck, h]

/-! ## The obligations -/

/-- Settles O51: a request that cleared a set bit is none of those that keep it. -/
theorem crcModeMonotone : Obligations.CrcModeMonotone := by
  refine ⟨fun i s t h hs ht => ?_, fun s t => exec_breset_crcDisabled⟩
  by_contra hi
  have hkept : t.crcDisabled = true := exec_keepsCrcDisabled hi h hs
  rw [ht] at hkept
  cases hkept

/-- Settles O50, from the one state CRCOFF ends in; the two command frames after reset are evaluated. -/
theorem crcoffWrites : Obligations.CrcoffWrites := by
  refine ⟨fun s hs => ⟨exec_crcoff hs, fun t ht => ?_⟩, by decide +kernel, fun t ht => ?_⟩
  · rw [exec_crcoff hs] at ht
    cases ht
    exact ⟨exec_crcoff_of_crcDisabled rfl rfl, rfl,
      fun hf => crcOn_of_crcForced hf, fun hf => crcOn_of_crcDisabled hf rfl⟩
  · rw [exec_crcoff rfl] at ht
    cases ht
    rw [encodeFrame_of_crcOff (crcOn_of_crcDisabled rfl rfl)]
    decide

end Sys2Proof.Machine

/-! Exceptions (60_exceptions.md): the errors a host operation ends in because the bytes received, or its own operands,
do not pass a test. No transfer breaks then, so the end is exact, chip-select included; the rules' failing transcripts
say which error it is. -/

namespace Sys2Proof.Machine

open Sys2Proof

/-! ## Ending in an error with every transfer whole -/

theorem meetsCut_none_iff {s : State} {exs : List Exchange} {rest : List PeerAnswer} :
    s.meetsCut exs none rest ↔ s.meets exs rest := Iff.rfl

/-- Without a broken transfer the state left is fixed in every field (R54, R260). -/
theorem failed_none_iff {s t : State} {e : DriverError} {exs : List Exchange} {rest : List PeerAnswer} :
    s.failed t e exs none rest ↔ t = s.ended (.err e) exs rest := by
  constructor
  · rintro ⟨hfields, hcs⟩
    rw [hfields, hcs rfl]
    simp [State.ended]
  · rintro rfl
    exact ⟨by simp [State.ended], fun _ => rfl⟩

/-- An operation whose rule raises behind whole transfers ends in that error (R260). -/
theorem runOp_raises {op : HostOp} {latch : Work → Work} {m : Op Value} {s : State} {e : DriverError}
    {exs : List Exchange} {rest : List PeerAnswer} (hs : s.seq = .idle)
    (h : Fails m (accept op latch s) e exs none) (hm : s.meets exs rest) :
    runOp op latch m s = .next (s.ended (.err e) exs rest) := by
  obtain ⟨t, hrun, hfailed⟩ := runOp_fails hs h (meetsCut_none_iff.mpr hm)
  rw [hrun, failed_none_iff.mp hfailed]

/-! ## The port's guards -/

theorem countOk_iff {p : Params} {n : Nat} : countOk p n = true ↔ 1 ≤ n ∧ n ≤ p.maxBlock := by simp [countOk]

/-- On a free port a guard that holds is passed. -/
theorem guarded_of_true {ok : Bool} {why : Refusal} {run : State → Host.Outcome State Fault Refusal}
    (hs : s.seq = .idle) (hok : ok = true) : guarded ok why run s = run s := by rw [hok, guarded_idle hs]

/-! ## The four accesses -/

section
variable {s : State} {e : DriverError} {exs : List Exchange} {rest : List PeerAnswer}

theorem exec_rdreg_raises {a : Word} (hs : s.seq = .idle) (h : ReadsRegFails s a e exs none) (hm : s.meets exs rest) :
    exec (.rdreg a) s = .next (s.ended (.err e) exs rest) :=
  runOp_raises hs (.first (rdreg_fails ((ReadsRegFails_congr (by rfl) (by rfl)).mpr h))) hm

theorem exec_wrreg_raises {a d : Word} (hs : s.seq = .idle) (h : WritesRegFails s a d e exs none)
    (hm : s.meets exs rest) : exec (.wrreg a d) s = .next (s.ended (.err e) exs rest) :=
  runOp_raises hs (.first (wrreg_fails ((WritesRegFails_congr (by rfl) (by rfl)).mpr h))) hm

theorem exec_rdblk_raises {a : Word} {n : Nat} (hs : s.seq = .idle) (h1 : 1 ≤ n) (hmax : n ≤ s.params.maxBlock)
    (h : ReadsBlockFails s a.toNat n e exs none) (hm : s.meets exs rest) :
    exec (.rdblk a n) s = .next (s.ended (.err e) exs rest) :=
  (guarded_of_true hs (countOk_iff.mpr ⟨h1, hmax⟩)).trans
    (runOp_raises hs (.first (rdblk_fails (h.congr (by rfl) (by rfl)))) hm)

theorem exec_wrblk_raises {a : Word} {b : List Byte} (hs : s.seq = .idle) (h1 : 1 ≤ b.length)
    (hmax : b.length ≤ s.params.maxBlock) (h : WritesBlockFails s a.toNat b e exs none) (hm : s.meets exs rest) :
    exec (.wrblk a b) s = .next (s.ended (.err e) exs rest) :=
  (guarded_of_true hs (countOk_iff.mpr ⟨h1, hmax⟩)).trans
    (runOp_raises hs (.first (wrblk_fails (h.congr (by rfl) (by rfl)))) hm)

end

/-! ## The checks of HRECV -/

theorem sizeCheck_isOk_iff {c : Ctx} {n : Nat} : (sizeCheck c n).isOk = true ↔ n ≤ c.readSize.toNat := by
  unfold sizeCheck
  split <;> simp [Except.isOk, Except.toBool] <;> omega

theorem windowCheck_isOk_iff {c : Ctx} {a n : Nat} : (windowCheck c a n).isOk = true ↔
    c.readAddr.toNat ≤ a ∧ a + n ≤ c.readAddr.toNat + c.readSize.toNat := by
  unfold windowCheck
  split <;> simp [Except.isOk, Except.toBool] <;> omega

theorem inWindow_iff {c : Ctx} {a n : Nat} : inWindow c a n = true ↔
    n ≤ c.readSize.toNat ∧ c.readAddr.toNat ≤ a ∧ a + n ≤ c.readAddr.toNat + c.readSize.toNat := by
  rw [inWindow, Bool.and_eq_true, sizeCheck_isOk_iff, windowCheck_isOk_iff]

/-- HRECV with a range outside the packet ends in the error of the first check that fails, without a transfer and
whatever its count: the port's bound on counts is asked only of ranges inside (R205, R206, R207). -/
theorem exec_hrecv_raises {s : State} {a : Word} {n : Nat} (hs : s.seq = .idle)
    (hout : s.ctx.readSize.toNat < n ∨ a.toNat < s.ctx.readAddr.toNat ∨
      s.ctx.readAddr.toNat + s.ctx.readSize.toNat < a.toNat + n) :
    exec (.hrecv a n) s = .next (s.ended (.err (.hif (if s.ctx.readSize.toNat < n
      then .sizeMismatch n s.ctx.readSize.toNat
      else .addressMismatch a.toNat s.ctx.readAddr.toNat))) [] s.script) := by
  have hwindow : inWindow s.ctx a.toNat n = false := by
    rw [Bool.eq_false_iff, Ne, inWindow_iff]
    omega
  have hadmitted : (!inWindow s.ctx a.toNat n || countOk s.params n) = true := by rw [hwindow]; rfl
  exact (guarded_of_true hs hadmitted).trans (runOp_raises hs (.first (hrecv_check_fails (by exact hout))) rfl)

/-! ## The obligations -/

/-- Settles O21: a response with a wrong byte is the second way RDREG fails, with its one transfer whole. -/
theorem rdregRejects : Obligations.RdregRejects := by
  intro s a op clk x rest hs hop hsends hbad hm
  exact exec_rdreg_raises hs ⟨op, clk, hop, .inr ⟨x, rfl, rfl, hsends, hbad, rfl⟩⟩ hm

/-- Settles O23: a response with a wrong byte is the second way WRREG fails, with its one transfer whole. -/
theorem wrregRejects : Obligations.WrregRejects := by
  intro s a d op clk L x rest hs hop hsends hbad hm
  exact exec_wrreg_raises hs ⟨op, clk, L, hop, .inr ⟨x, rfl, rfl, hsends, hbad, rfl⟩⟩ hm

/-- Settles O29: RDBLK fails at its third step; the address of the command is the operand itself. -/
theorem rdblkRejects : Obligations.RdblkRejects := by
  intro s a n cmd hit misses rest hs h1 hmax hcmd hpoll hbad hm
  have haddress : BitVec.ofNat 32 a.toNat = a := by simp
  exact exec_rdblk_raises hs h1 hmax (.status (haddress.symm ▸ hcmd) hpoll hbad) hm

/-- Settles O32: WRBLK fails at its third step; the address of the command is the operand itself. -/
theorem wrblkRejects : Obligations.WrblkRejects := by
  intro s a b cmd hit misses rest hs h1 hmax hcmd hpoll hbad hm
  have haddress : BitVec.ofNat 32 a.toNat = a := by simp
  exact exec_wrblk_raises hs h1 hmax (.status (haddress.symm ▸ hcmd) hpoll hbad) hm

/-- Settles O44: a size that is too large decides the error; otherwise the window does. -/
theorem hrecvChecks : Obligations.HrecvChecks := by
  intro s a n hs
  constructor
  · intro hsize
    rw [exec_hrecv_raises hs (.inl hsize), if_pos hsize]
  · intro hsize hrange
    rw [exec_hrecv_raises hs (.inr hrange), if_neg (Nat.not_lt.mpr hsize)]

end Sys2Proof.Machine

/-! Reset (70_reset_and_hazards.md). BRESET is one step of assignments on a free port: its whole end is one state, and
whatever state it started in, what R280 assigns is as at reset. -/

namespace Sys2Proof.Machine

open Sys2Proof

/-! ## BRESET -/

/-- A busy port refuses a host operation before its rule starts (R22, R71). -/
theorem runOp_of_ne_idle {op : HostOp} {latch : Work → Work} {m : Op Value} {s : State} (hs : s.seq ≠ .idle) :
    runOp op latch m s = .refused .portBusy := by
  unfold runOp
  split
  next => rfl
  next hidle => exact absurd hidle hs

/-- BRESET on a free port runs its assignments and ends without a transfer (R280). -/
theorem exec_breset {s : State} (hs : s.seq = .idle) :
    exec .breset s = .next ((resetBlock s).ended (.ok .unit) [] s.script) := by
  refine (runOp_idle hs).trans (congrArg Host.Outcome.next ?_)
  rw [Op.seq_of_ok (Op.at_assign ..), Op.ret_apply]
  simp [resetBlock, accept, complete, replyOf, State.ended]

/-- A BRESET that goes on was admitted on a free port, so there is one state it goes on to. -/
theorem exec_breset_eq_next {s t : State} (h : exec .breset s = .next t) :
    t = (resetBlock s).ended (.ok .unit) [] s.script := by
  obtain ⟨hidle, -⟩ := runOp_eq_next h
  rw [exec_breset hidle] at h
  exact (Host.Outcome.next.inj h).symm

/-! ## The obligation -/

/-- Settles O52: the assignments of BRESET are R280's, a busy port refuses it, and the state it ends in has the values
of reset in every field they reach; `ds.mode`, an input, is set aside. -/
theorem bresetResets : Obligations.BresetResets := by
  refine ⟨fun s => exec_breset, fun s => runOp_of_ne_idle, fun s t h => ?_⟩
  rw [exec_breset_eq_next h]
  exact ⟨rfl, rfl, rfl, rfl, rfl⟩

end Sys2Proof.Machine

/-! What every operation of the sequencer leaves, whatever the peer answers (60_exceptions.md R262): a rule is link steps
and writes to `ctx` and `ds`, so its end is one link step from the state with these two put in place. -/

namespace Sys2Proof.Machine

open Sys2Proof

/-! ## Link steps behind writes to `ctx` and `ds` -/

@[simp] theorem put_params (s : State) (c : Ctx) (d : DriverState) : (s.put c d).params = s.params := rfl
@[simp] theorem put_seq (s : State) (c : Ctx) (d : DriverState) : (s.put c d).seq = s.seq := rfl
@[simp] theorem put_ctx (s : State) (c : Ctx) (d : DriverState) : (s.put c d).ctx = c := rfl
@[simp] theorem put_ds (s : State) (c : Ctx) (d : DriverState) : (s.put c d).ds = d := rfl
@[simp] theorem put_trace (s : State) (c : Ctx) (d : DriverState) : (s.put c d).trace = s.trace := rfl
@[simp] theorem put_crcDisabled (s : State) (c : Ctx) (d : DriverState) : (s.put c d).crcDisabled = s.crcDisabled := rfl
@[simp] theorem put_put (s : State) (c c' : Ctx) (d d' : DriverState) : (s.put c d).put c' d' = s.put c' d' := rfl
@[simp] theorem put_self (s : State) : s.put s.ctx s.ds = s := rfl

theorem Ctx.closed_of_readDone {c : Ctx} (h : c.readDone = true) : c.closed = c := by rw [Ctx.closed, ← h]

/-- What was put before a link step may as well be put behind it. -/
theorem LinkStep.put {n : Nat} {s s1 : State} (h : LinkStep n s s1) (c : Ctx) (d : DriverState) :
    LinkStep n (s.put c d) (s1.put c d) := by
  obtain ⟨ts, hl, e⟩ := h
  exact ⟨ts, hl, by rw [e]; rfl⟩

/-- A link step, a write to `ctx` and `ds`, and a link step are one link step behind the write. -/
theorem LinkStep.thenPut {m n : Nat} {s s1 s2 : State} {c c' : Ctx} {d d' : DriverState}
    (h1 : LinkStep m (s.put c d) s1) (h2 : LinkStep n (s1.put c' d') s2) : LinkStep (m + n) (s.put c' d') s2 :=
  (h1.put c' d').trans h2

/-- The position of a step is no part of what it leaves. -/
theorem LinkStep.ofPosition {n : Nat} {s s1 : State} {q : Seq} {c : Ctx} {d : DriverState}
    (h : LinkStep n ({ s with seq := q }.put c d) s1) : LinkStep n (s.put c d) { s1 with seq := s.seq } := by
  obtain ⟨ts, hl, e⟩ := h
  exact ⟨ts, hl, by rw [e]; rfl⟩

/-- At most `n` transfers are made from `s` to `s'`, and none is taken back. -/
def TraceGrows (n : Nat) (s s' : State) : Prop := ∃ ts : List Transfer, ts.length ≤ n ∧ s'.trace = s.trace ++ ts

theorem LinkStep.traceGrows {n : Nat} {s s1 : State} {c : Ctx} {d : DriverState} (h : LinkStep n (s.put c d) s1) :
    TraceGrows n s s1 := h.trace

theorem TraceGrows.trans {m n : Nat} {s s1 s2 : State} (h1 : TraceGrows m s s1) (h2 : TraceGrows n s1 s2) :
    TraceGrows (m + n) s s2 := by
  obtain ⟨t1, l1, e1⟩ := h1
  obtain ⟨t2, l2, e2⟩ := h2
  exact ⟨t1 ++ t2, by simp; omega, by rw [e2, e1, List.append_assoc]⟩

theorem TraceGrows.mono {m n : Nat} {s s1 : State} (h : TraceGrows m s s1) (hmn : m ≤ n) : TraceGrows n s s1 := by
  obtain ⟨ts, hl, e⟩ := h
  exact ⟨ts, hl.trans hmn, e⟩

/-- Transfers made stay the first ones, whatever is made behind them. -/
theorem Made.begins {n : Nat} {s s1 s2 : State} {e : List Exchange} (h : Made s s1 e) (hg : TraceGrows n s1 s2) :
    s.begins s2 e := by
  obtain ⟨ts, -, htrace⟩ := hg
  exact ⟨ts, by rw [htrace, h]⟩

theorem Made.thenBegins {s s1 t : State} {e e1 : List Exchange} (h : Made s s1 e) (hb : s1.begins t e1) :
    s.begins t (e ++ e1) := by
  unfold State.begins at hb ⊢
  rw [h] at hb
  simpa [List.append_assoc] using hb

/-! ## The release of a packet -/

/-- HISR's step 7 runs HFIN on an open packet and does nothing on a closed one (R203). -/
theorem finishIfOpen_cases {s s' : State} {r : Except DriverError Unit} (h : finishIfOpen s = (r, s')) :
    s.ctx.readDone = false ∧ hfin s = (r, s') ∨ s.ctx.readDone = true ∧ r = .ok () ∧ s' = s := by
  unfold finishIfOpen at h
  split at h
  next hopen => exact .inl ⟨hopen, h⟩
  next hclosed =>
    cases h
    exact .inr ⟨by simpa using hclosed, rfl, rfl⟩

/-- Behind step 7 the packet is closed, whatever HFIN came to (R262). -/
theorem finishIfOpen_link {s s' : State} {r : Except DriverError Unit} (h : finishIfOpen s = (r, s')) :
    LinkStep 2 (s.put s.ctx.closed s.ds) s' := by
  rcases finishIfOpen_cases h with ⟨-, hrun⟩ | ⟨hclosed, -, rfl⟩
  · exact hfin_link hrun
  · rw [Ctx.closed_of_readDone hclosed, put_self]
    exact .refl _ _

/-- Step 7 and the return of a value behind it. -/
theorem release_link {v : Value} {s s' : State} {r : Except DriverError Value}
    (h : ((Op.at 7 finishIfOpen).seq (Op.ret v)) s = (r, s')) :
    LinkStep 2 (s.put s.ctx.closed s.ds) s' ∧ (s.ctx.readDone = true → s' = s) := by
  have hrun : ∃ r1, Op.at 7 finishIfOpen s = (r1, s') := by
    rcases Op.bind_cases h with ⟨e, hrun, -⟩ | ⟨_, s1, hrun, hret⟩
    · exact ⟨_, hrun⟩
    · cases hret
      exact ⟨_, hrun⟩
  obtain ⟨r1, hrun⟩ := hrun
  obtain ⟨s1, hstep, rfl⟩ := Op.at_cases hrun
  refine ⟨.ofPosition (s := s) (q := s.seq.into 7) (finishIfOpen_link hstep), fun hclosed => ?_⟩
  rcases finishIfOpen_cases hstep with ⟨hopen, -⟩ | ⟨-, -, rfl⟩
  · exact absurd (hclosed.symm.trans hopen) (by decide)
  · rfl

/-! ## HISR's steps 6 and 7 -/

/-- The window of the payload of a packet: `k` bytes behind its header end at the packet's end exactly when the packet
has `8 + k` bytes (R200, R208). -/
theorem payload_ends_iff {c : Ctx} {k : Nat} (hk : 8 + k ≤ c.readSize.toNat) :
    c.readAddr.toNat + c.readSize.toNat ≤ c.readAddr.toNat + 8 + k ↔ c.readSize.toNat = 8 + k := by omega

/-- A handler that returned read its payload along a good transcript before it wrote its sink register (R214). -/
theorem handler_made {s s' : State} {k : Nat} {f : List Byte → State → State}
    (h : handler (s.ctx.readAddr.toNat + 8) k f s = (.ok (), s')) :
    8 + k ≤ s.ctx.readSize.toNat ∧ ∃ b s1 e1 e2, ReadsBlock s (s.ctx.readAddr.toNat + 8) k b e1 ∧
      FinishesIf s (s.ctx.readSize.toNat = 8 + k) e2 ∧ Made s s1 (e1 ++ e2) ∧
      (LinkStep 12 s s1 ∨ LinkStep 14 (setReadDone true s) s1) ∧ s' = f b s1 := by
  obtain ⟨b, s1, hread, hwrite⟩ := Op.bind_ok h
  cases hwrite
  obtain ⟨-, -, hend, e1, e2, hblock, hfin, hmade⟩ := hrecv_made hread
  have hk : 8 + k ≤ s.ctx.readSize.toNat := by omega
  rw [payload_ends_iff hk] at hfin
  exact ⟨hk, b, s1, e1, e2, hblock, hfin, hmade, (hrecv_spec hread).1, rfl⟩

/-- HISR's steps 6 and 7, whatever the peer answers (R203, R214, R222): the packet is closed or stays as it was, and of
the sink registers at most the one of the command's kind is written, from the payload of a good read. -/
theorem servicePacket_leaves {cmd : Option Command} {s s' : State} {r : Except DriverError Value}
    (h : servicePacket cmd s = (r, s')) :
    (∃ rd, LinkStep 14 (s.put { s.ctx with readDone := s.ctx.readDone || rd } s.ds) s') ∨
    ∃ k b e1 e2, payloadSize cmd = some k ∧ 8 + k ≤ s.ctx.readSize.toNat ∧
      ReadsBlock s (s.ctx.readAddr.toNat + 8) k b e1 ∧ FinishesIf s (s.ctx.readSize.toNat = 8 + k) e2 ∧
      s.begins s' (e1 ++ e2) ∧ LinkStep 14 (s.put s.ctx.closed (sinkAfter s cmd b)) s' := by
  have hkeep : ({ s.ctx with readDone := s.ctx.readDone || false } : Ctx) = s.ctx := by rw [Bool.or_false]
  have hclose : ({ s.ctx with readDone := s.ctx.readDone || true } : Ctx) = s.ctx.closed := by rw [Bool.or_true]; rfl
  rw [servicePacket_eq] at h
  rcases dispatch_cases cmd with ⟨-, hd, -⟩ | ⟨k, f, hk, hd, hf⟩ <;> rw [hd] at h
  · rw [Op.seq_of_ok (Op.at_ret ..)] at h
    exact .inl ⟨true, hclose ▸ (release_link h).1.mono (by omega)⟩
  · rcases Op.bind_cases h with ⟨e, hstep, -⟩ | ⟨_, s1, hstep, hrel⟩
    · obtain ⟨s1, hrun, rfl⟩ := Op.at_cases hstep
      rcases handler_spec hrun with ⟨-, -, hl | hl⟩ | ⟨-, -, hok, -⟩
      · refine .inl ⟨false, ?_⟩
        rw [hkeep]
        exact .ofPosition (s := s) (q := s.seq.into 6) (hl.mono (by omega))
      · exact .inl ⟨true, hclose ▸ LinkStep.ofPosition (s := s) (q := s.seq.into 6) hl⟩
      · cases hok
    · obtain ⟨s2, hrun, rfl⟩ := Op.at_cases hstep
      obtain ⟨hle, b, s3, e1, e2, hblock, hfin, hmade, hl, rfl⟩ := handler_made hrun
      have hsink : f b s3 = s3.put s3.ctx (sinkAfter s cmd b) := by
        rcases hl with hl | hl <;> exact hf s s3 b hl.params hl.ds
      rw [hsink] at hrel
      have hmade' : Made s { s3.put s3.ctx (sinkAfter s cmd b) with seq := s.seq } (e1 ++ e2) := hmade
      refine .inr ⟨k, b, e1, e2, hk, hle, (ReadsBlock_congr rfl rfl).mp hblock, (FinishesIf_congr rfl rfl).mp hfin,
        hmade'.begins (release_link hrel).1.traceGrows, ?_⟩
      rcases hl with hl | hl
      · have hpay := LinkStep.ofPosition (s := s) (q := s.seq.into 6) (hl.put s.ctx.closed (sinkAfter s cmd b))
        have hctx : s3.ctx = s.ctx := hl.ctx
        have hend := (release_link hrel).1
        exact hpay.trans (by simpa [State.put, hctx] using hend)
      · have hctx : s3.ctx = s.ctx.closed := hl.ctx
        rw [(release_link hrel).2 (by rw [put_ctx, hctx]; rfl)]
        exact hctx ▸ LinkStep.ofPosition (s := s) (q := s.seq.into 6) (hl.put s3.ctx (sinkAfter s cmd b))

/-- HISR's steps 6 and 7 make at most 14 transfers (R272). -/
theorem servicePacket_traceGrows {cmd : Option Command} {s s' : State} {r : Except DriverError Value}
    (h : servicePacket cmd s = (r, s')) : TraceGrows 14 s s' := by
  rcases servicePacket_leaves h with ⟨_, hl⟩ | ⟨_, _, _, _, -, -, -, -, -, hl⟩
  · exact hl.traceGrows
  · exact hl.traceGrows

end Sys2Proof.Machine

/-! HISR up to the announced window, whatever the peer answers (44_hif_engine.md R193 to R199): where its steps 1 to 5 end,
and the transcript they made. -/

namespace Sys2Proof.Machine

open Sys2Proof

/-! ## HISR's steps 1 to 5 -/

/-- A rule and the value computed behind it end in the same state. -/
theorem Op.thenRet_cases {α β : Type} {m : Op α} {g : α → β} {s s' : State} {r : Except DriverError β}
    (h : (m.bind fun a => Op.ret (g a)) s = (r, s')) : ∃ r1, m s = (r1, s') ∧ r = r1.map g := by
  rcases Op.bind_cases h with ⟨e, hrun, rfl⟩ | ⟨a, s1, hrun, hret⟩
  · exact ⟨_, hrun, rfl⟩
  · cases hret
    exact ⟨_, hrun, rfl⟩

theorem Op.unit_cases {m : Op Unit} {s s' : State} {r : Except DriverError Value} (h : m.unit s = (r, s')) :
    ∃ r1, m s = (r1, s') ∧ r = r1.map fun _ => .unit := Op.thenRet_cases h

/-- HISR behind its claim, steps 4 to 7 (R196 to R203). -/
def announced (p : Params) (reg : Word) : Op Value :=
  if sizeField reg = 0 then (Op.at 7 finishIfOpen).seq (Op.ret (.command none))
  else (Op.at 5 (fetchHeader (sizeField reg))).bind fun h => servicePacket (routeHeader p h)

theorem hisrClaimed_eq (s : State) (reg : Word) : hisrClaimed s reg =
    (Op.at 2 (wrreg s.params.regRcvCtrl0 (clearBit reg s.params.newDataBit))).seq
      ((Op.at 3 (Op.assign (setReadDone false))).seq (announced s.params reg)) := rfl

theorem announced_of_empty (p : Params) {reg : Word} (h : sizeField reg = 0) :
    announced p reg = (Op.at 7 finishIfOpen).seq (Op.ret (.command none)) := if_pos h

theorem announced_of_size (p : Params) {reg : Word} (h : sizeField reg ≠ 0) :
    announced p reg = (Op.at 5 (fetchHeader (sizeField reg))).bind fun h => servicePacket (routeHeader p h) := if_neg h

theorem rdreg_at_link {k : Nat} {a : Word} {s s' : State} {r : Except DriverError Word}
    (h : Op.at k (rdreg a) s = (r, s')) : LinkStep 1 s s' := Op.at_link h fun _ _ _ => rdreg_link

theorem wrreg_at_link {k : Nat} {a d : Word} {s s' : State} {r : Except DriverError Unit}
    (h : Op.at k (wrreg a d) s = (r, s')) : LinkStep 1 s s' := Op.at_link h fun _ _ _ => wrreg_link

/-- A register read as a step of a rule: the position is no part of its transcript. -/
theorem rdreg_at_made {k : Nat} {a v : Word} {s s' : State} (h : Op.at k (rdreg a) s = (.ok v, s')) :
    ∃ exs, ReadsReg s a v exs ∧ Made s s' exs := by
  obtain ⟨s1, hrun, rfl⟩ := Op.at_cases h
  obtain ⟨exs, hr, hm⟩ := rdreg_made hrun
  exact ⟨exs, (ReadsReg_congr rfl rfl).mp hr, hm⟩

/-- A register write as a step of a rule. -/
theorem wrreg_at_made {k : Nat} {a d : Word} {s s' : State} (h : Op.at k (wrreg a d) s = (.ok (), s')) :
    ∃ exs, WritesReg s a d exs ∧ Made s s' exs := by
  obtain ⟨s1, hrun, rfl⟩ := Op.at_cases h
  obtain ⟨exs, hw, hm⟩ := wrreg_made hrun
  exact ⟨exs, (WritesReg_congr rfl rfl).mp hw, hm⟩

/-- HISR ends at step 1 or 2, or goes on behind a claim with the packet open (R193, R194). -/
theorem hisr_cases {s s' : State} {r : Except DriverError Value} (h : hisr s = (r, s')) :
    LinkStep 2 s s' ∨ ∃ reg e s1, Claims s reg e ∧ Made s s1 e ∧ LinkStep 2 s s1 ∧
      announced s.params reg (s1.put { s.ctx with readDone := false } s.ds) = (r, s') := by
  rw [hisr_eq] at h
  rcases Op.bind_cases h with ⟨_, hread, -⟩ | ⟨reg, s1, hread, h⟩
  · exact .inl ((rdreg_at_link hread).mono (by omega))
  have l1 := rdreg_at_link hread
  split at h
  next => cases h; exact .inl (l1.mono (by omega))
  next hbit =>
    rw [hisrClaimed_eq] at h
    rcases Op.bind_cases h with ⟨_, hwrite, -⟩ | ⟨_, s2, hwrite, h⟩
    · exact .inl (l1.trans (wrreg_at_link hwrite))
    have l2 := l1.trans (wrreg_at_link hwrite)
    obtain ⟨e1, hr, m1⟩ := rdreg_at_made hread
    obtain ⟨e2, hw, m2⟩ := wrreg_at_made hwrite
    refine .inr ⟨reg, e1 ++ e2, s2, ⟨e1, e2, rfl, hr, by simpa [bitOf] using hbit, ?_⟩, m1.trans m2, l2, ?_⟩
    · exact (WritesReg_congr l1.params l1.crcDisabled).mp hw
    · rw [Op.seq_of_ok (Op.at_assign ..)] at h
      rw [← l2.ctx, ← l2.ds]
      exact h

/-- Step 5 of HISR: the address is read, and behind it the announced window holds, whether the header comes or not
(R198, R262). -/
theorem fetchHeader_leaves {size : Word} {s s' : State} {r : Except DriverError HifHeader}
    (h : fetchHeader size s = (r, s')) :
    (∃ e, r = .error e) ∧ LinkStep 1 s s' ∨
    ∃ addr e1, ReadsReg s s.params.regRcvCtrl1 addr e1 ∧ s.begins s' e1 ∧
      LinkStep 13 (s.put ⟨addr, size, s.ctx.readDone⟩ s.ds) s' ∧
      ∀ hd, r = .ok hd → ∃ hb e2, hd = hdrFromBytes hb ∧ ReadsBlock s addr.toNat 4 hb e2 ∧ Made s s' (e1 ++ e2) := by
  rw [fetchHeader_eq] at h
  rcases Op.bind_cases h with ⟨e, hread, rfl⟩ | ⟨addr, s1, hread, h⟩
  · exact .inl ⟨⟨e, rfl⟩, rdreg_link hread⟩
  right
  have l1 := rdreg_link hread
  obtain ⟨e1, hr, m1⟩ := rdreg_made hread
  rw [Op.assign_seq] at h
  obtain ⟨r1, hblock, rfl⟩ := Op.thenRet_cases h
  have l2 := rdblk_link hblock
  refine ⟨addr, e1, hr, m1.begins l2.trace, ?_, fun hd hok => ?_⟩
  · have hwin : s1.ctx.readDone = s.ctx.readDone := by rw [l1.ctx]
    rw [← hwin, ← l1.ds]
    exact (l1.put _ _).trans l2
  · cases r1 with
    | error e => cases hok
    | ok hb =>
      cases hok
      obtain ⟨e2, hd, m2⟩ := rdblk_made hblock
      exact ⟨hb, e2, rfl, (ReadsBlock_congr (s := s) l1.params l1.crcDisabled).mp hd, m1.trans m2⟩

/-- Step 5 at its position. -/
theorem fetchHeader_at_leaves {k : Nat} {size : Word} {s s' : State} {r : Except DriverError HifHeader}
    (h : Op.at k (fetchHeader size) s = (r, s')) :
    (∃ e, r = .error e) ∧ LinkStep 1 s s' ∨
    ∃ addr e1, ReadsReg s s.params.regRcvCtrl1 addr e1 ∧ s.begins s' e1 ∧
      LinkStep 13 (s.put ⟨addr, size, s.ctx.readDone⟩ s.ds) s' ∧
      ∀ hd, r = .ok hd → ∃ hb e2, hd = hdrFromBytes hb ∧ ReadsBlock s addr.toNat 4 hb e2 ∧ Made s s' (e1 ++ e2) := by
  obtain ⟨s1, hrun, rfl⟩ := Op.at_cases h
  rcases fetchHeader_leaves hrun with ⟨he, hl⟩ | ⟨addr, e1, hr, hb, hl, hok⟩
  · exact .inl ⟨he, .ofPosition (s := s) (q := s.seq.into k) hl⟩
  · refine .inr ⟨addr, e1, (ReadsReg_congr rfl rfl).mp hr, hb, .ofPosition (s := s) (q := s.seq.into k) hl,
      fun hd he => ?_⟩
    obtain ⟨hb, e2, hhd, hblock, hm⟩ := hok hd he
    exact ⟨hb, e2, hhd, (ReadsBlock_congr rfl rfl).mp hblock, hm⟩

end Sys2Proof.Machine

/-! The frames of the operations: what each of them writes, over every peer (60_exceptions.md R262). -/

namespace Sys2Proof.Machine

open Sys2Proof

/-! ## Ends of operations, over every peer -/

section
variable {op : HostOp} {latch : Work → Work} {m : Op Value} {s t : State}

/-- An operation whose rule is link steps behind writes to `ctx` and `ds` ends with these and touches nothing else. -/
theorem onlyTouches_of_link {n : Nat} {s' : State} {r : Except DriverError Value} {c : Ctx} {d : DriverState}
    (h : LinkStep n ((accept op latch s).put c d) s') : s.onlyTouches (complete r s') c d := by
  obtain ⟨ts, -, e⟩ := h
  refine ⟨ts, ?_⟩
  rw [e]
  simp [complete, State.put, accept]

/-- An operation whose rule only makes link steps leaves `ctx` and `ds`. -/
theorem runOp_onlyTouches {n : Nat} (hm : ∀ r s', m (accept op latch s) = (r, s') → LinkStep n (accept op latch s) s')
    (h : runOp op latch m s = .next t) : s.onlyTouches t s.ctx s.ds := by
  obtain ⟨-, r, s', hrun, rfl⟩ := runOp_eq_next h
  exact onlyTouches_of_link (hm r s' hrun)

end

/-- A value computed behind a rule adds no link step. -/
theorem thenRet_link {α β : Type} {n : Nat} {m : Op α} {g : α → β} {s s' : State} {r : Except DriverError β}
    (hm : ∀ r s', m s = (r, s') → LinkStep n s s') (h : (m.bind fun a => Op.ret (g a)) s = (r, s')) : LinkStep n s s' :=
  Op.bind_link (k := 0) h hm fun _ _ _ _ _ => ret_link

/-! ## Requests the port admits -/

/-- RDBLK within the bounds of R165. -/
theorem exec_rdblk {s : State} {a : Word} {n : Nat} (hs : s.seq = .idle) (h : 1 ≤ n ∧ n ≤ s.params.maxBlock) :
    exec (.rdblk a n) s = runOp .rdblk (fun w => { w with address := a, count := n })
      ((rdblk a.toNat n).bind fun b => Op.ret (.bytes b)) s :=
  guarded_of_true hs (countOk_iff.mpr h)

/-- WRBLK within the bounds of R165. -/
theorem exec_wrblk {s : State} {a : Word} {b : List Byte} (hs : s.seq = .idle)
    (h : 1 ≤ b.length ∧ b.length ≤ s.params.maxBlock) :
    exec (.wrblk a b) s = runOp .wrblk (fun w => { w with address := a, count := b.length }) (wrblk a.toNat b).unit s :=
  guarded_of_true hs (countOk_iff.mpr h)

/-- HSEND with buffers of at most `MAX_BLOCK` bytes (R190). -/
theorem exec_hsend {s : State} {h : HifHeader} {d c : List Byte} (hs : s.seq = .idle)
    (hl : d.length ≤ s.params.maxBlock ∧ c.length ≤ s.params.maxBlock) :
    exec (.hsend h d c) s = runOp .hsend id (hsend h d c).unit s :=
  (guarded_of_true hs (decide_eq_true hl.1)).trans (guarded_of_true hs (decide_eq_true hl.2))

/-- HRECV where R207 does not refuse it. -/
theorem exec_hrecv {s : State} {a : Word} {n : Nat} (hs : s.seq = .idle) (h : inBounds s (.hrecv a n)) :
    exec (.hrecv a n) s = runOp .hrecv (fun w => { w with address := a, count := n })
      ((hrecv a.toNat n).bind fun b => Op.ret (.bytes b)) s := by
  have hadmitted : (!inWindow s.ctx a.toNat n || countOk s.params n) = true := by
    rw [Bool.or_eq_true, Bool.not_eq_true', ← Bool.not_eq_true, inWindow_iff, countOk_iff, ← imp_iff_not_or]
    rintro ⟨hsize, hlow, hhigh⟩
    exact h hsize hlow hhigh
  exact guarded_of_true hs hadmitted

/-- HISR is its rule at the state with its operand in `ds.mode` (R31). -/
theorem exec_hisr (m : Mode) (s : State) :
    exec (.hisr m) s = runOp .hisr id hisr { s with ds := { s.ds with mode := m } } := rfl

/-! ## The accesses, HRECV and HFIN -/

theorem exec_rdreg_onlyTouches {a : Word} {s t : State} (h : exec (.rdreg a) s = .next t) :
    s.onlyTouches t s.ctx s.ds :=
  runOp_onlyTouches (fun _ _ => thenRet_link fun _ _ => rdreg_link) h

theorem exec_wrreg_onlyTouches {a d : Word} {s t : State} (h : exec (.wrreg a d) s = .next t) :
    s.onlyTouches t s.ctx s.ds :=
  runOp_onlyTouches (fun _ _ => thenRet_link fun _ _ => wrreg_link) h

theorem exec_rdblk_onlyTouches {a : Word} {n : Nat} {s t : State} (h : exec (.rdblk a n) s = .next t) :
    s.onlyTouches t s.ctx s.ds := by
  obtain ⟨-, -, hrun⟩ := guarded_eq_next h
  exact runOp_onlyTouches (fun _ _ => thenRet_link fun _ _ => rdblk_link) hrun

theorem exec_wrblk_onlyTouches {a : Word} {b : List Byte} {s t : State} (h : exec (.wrblk a b) s = .next t) :
    s.onlyTouches t s.ctx s.ds := by
  obtain ⟨-, -, hrun⟩ := guarded_eq_next h
  exact runOp_onlyTouches (fun _ _ => thenRet_link fun _ _ => wrblk_link) hrun

theorem exec_hsend_onlyTouches {hd : HifHeader} {d c : List Byte} {s t : State}
    (h : exec (.hsend hd d c) s = .next t) : s.onlyTouches t s.ctx s.ds := by
  obtain ⟨-, -, hctrl⟩ := guarded_eq_next h
  obtain ⟨-, -, hrun⟩ := guarded_eq_next hctrl
  exact runOp_onlyTouches (fun _ _ => thenRet_link fun _ _ => hsend_link) hrun

theorem exec_dataMark_onlyTouches {s t : State} (h : exec .dataMark s = .next t) : s.onlyTouches t s.ctx s.ds :=
  runOp_onlyTouches (fun _ _ => thenRet_link fun _ _ => sendMark_link) h

theorem exec_hrecv_onlyTouches {a : Word} {n : Nat} {s t : State} (h : exec (.hrecv a n) s = .next t) :
    s.onlyTouches t s.ctx s.ds ∨ s.onlyTouches t s.ctx.closed s.ds := by
  obtain ⟨-, -, hrun⟩ := guarded_eq_next h
  obtain ⟨-, r, s', hbody, rfl⟩ := runOp_eq_next hrun
  obtain ⟨r1, hrecv, -⟩ := Op.thenRet_cases hbody
  rcases (hrecv_spec hrecv).1 with hl | hl
  · exact .inl (onlyTouches_of_link (op := .hrecv) (latch := fun w => { w with address := a, count := n }) hl)
  · exact .inr (onlyTouches_of_link (op := .hrecv) (latch := fun w => { w with address := a, count := n }) hl)

theorem exec_hfin_onlyTouches {s t : State} (h : exec .hfin s = .next t) : s.onlyTouches t s.ctx.closed s.ds := by
  obtain ⟨-, r, s', hbody, rfl⟩ := runOp_eq_next h
  obtain ⟨r1, hfin, -⟩ := Op.unit_cases hbody
  exact onlyTouches_of_link (hfin_link hfin)

/-- Settles O54: the accesses are link steps; HFIN sets its flag before them, HRECV where it reaches HFIN. -/
theorem accessFrames : Obligations.AccessFrames := by
  refine fun s t => ⟨fun i hi h => ?_, fun a n => exec_hrecv_onlyTouches, exec_hfin_onlyTouches⟩
  rcases hi with ⟨a, rfl⟩ | ⟨a, d, rfl⟩ | ⟨a, n, rfl⟩ | ⟨a, b, rfl⟩ | ⟨hd, d, c, rfl⟩ | rfl
  · exact exec_rdreg_onlyTouches h
  · exact exec_wrreg_onlyTouches h
  · exact exec_rdblk_onlyTouches h
  · exact exec_wrblk_onlyTouches h
  · exact exec_hsend_onlyTouches h
  · exact exec_dataMark_onlyTouches h

/-! ## HISR and the packets -/

/-- A packet as a request is steps 6 and 7 of HISR on the window `ctx` holds (log 7). -/
theorem exec_packet {p : Params} {i : Instr} {cmd : Option Command} {s : State} (hp : s.params = p)
    (h : packetCommand p i = some cmd) : exec i s = runPacket cmd s := by
  subst hp
  cases i <;> cases h <;> rfl

/-- Steps 6 and 7 leave the same as an operation of their own or behind HISR's steps 1 to 5, here the state `s1` that
only differs from `s` in the link, with the transfers `e` made. -/
theorem serviceLeaves_of_run {n : Nat} {op : HostOp} {latch : Work → Work} {s s1 s' : State} {cmd : Option Command}
    {r : Except DriverError Value} {e : List Exchange} (hl : LinkStep n (accept op latch s) s1)
    (hm : Made s s1 e) (h : servicePacket cmd s1 = (r, s')) : ServiceLeaves s (complete r s') cmd e := by
  have hctx : s1.ctx = s.ctx := hl.ctx
  have hds : s1.ds = s.ds := hl.ds
  rcases servicePacket_leaves h with ⟨rd, hl2⟩ | ⟨k, b, e1, e2, hk, hle, hblock, hfin, hbegin, hl2⟩
  · have htouch := onlyTouches_of_link (r := r) ((hl.put _ _).trans hl2)
    have hdone : s'.ctx.readDone = (s.ctx.readDone || rd) := by rw [hl2.ctx]; simp [hctx]
    left
    simpa [hctx, hds, hdone] using htouch
  · right
    have hsink : sinkAfter s1 cmd b = sinkAfter s cmd b := by
      have hparams : s1.params = s.params := hl.params
      unfold sinkAfter
      simp only [hparams, hds]
    rw [hctx] at hle hblock hfin
    refine ⟨k, b, e1, e2, hk, hle, (ReadsBlock_congr hl.params hl.crcDisabled).mp hblock,
      (FinishesIf_congr hl.params hl.crcDisabled).mp hfin, ?_, ?_⟩
    · rw [List.append_assoc]
      exact hm.thenBegins hbegin
    · have htouch := onlyTouches_of_link (r := r) ((hl.put _ _).trans hl2)
      rw [hctx, hsink] at htouch
      exact htouch

/-- What HISR leaves, whatever the peer answers, by the step it reached (R193 to R203, R262). -/
theorem hisrLeaves_of_run {op : HostOp} {latch : Work → Work} {s s' : State} {r : Except DriverError Value}
    (h : hisr (accept op latch s) = (r, s')) : HisrLeaves s (complete r s') := by
  rcases hisr_cases h with hl | ⟨reg, e, s1, hclaim, hm, hl, h⟩
  · exact .unclaimed (onlyTouches_of_link hl)
  have hclaim : Claims s reg e := (Claims_congr rfl rfl).mp hclaim
  by_cases hz : sizeField reg = 0
  · rw [announced_of_empty _ hz] at h
    have hend := (release_link h).1
    refine .claimed hclaim (hm.begins hend.traceGrows) ?_
    have hdone : s'.ctx.readDone = true := by rw [hend.ctx]; rfl
    have htouch := onlyTouches_of_link (r := r) ((hl.put _ _).trans hend)
    rw [complete_ctx, hdone]
    exact htouch
  rw [announced_of_size _ hz] at h
  rcases Op.bind_cases h with ⟨er, hfetch, rfl⟩ | ⟨hd, s2, hfetch, h⟩
  · rcases fetchHeader_at_leaves hfetch with ⟨-, hl2⟩ | ⟨addr, e1, hr, hb, hl2, -⟩
    · have hopen := (hl.put { s.ctx with readDone := false } s.ds).trans hl2
      have hdone : s'.ctx.readDone = false := by rw [hopen.ctx]; rfl
      refine .claimed hclaim (hm.begins hl2.trace) ?_
      rw [complete_ctx, hdone]
      exact onlyTouches_of_link hopen
    · have hwin : LinkStep 15 ((accept op latch s).put ⟨addr, sizeField reg, false⟩ s.ds) s' :=
        (hl.put ⟨addr, sizeField reg, false⟩ s.ds).trans hl2
      simp only [put_params, hl.params] at hr
      exact .windowed hclaim (sizeField_toNat reg) hz ((ReadsReg_congr hl.params hl.crcDisabled).mp hr)
        (hm.thenBegins hb) (onlyTouches_of_link hwin)
  · rcases fetchHeader_at_leaves hfetch with ⟨⟨_, he⟩, -⟩ | ⟨addr, e3, hr, -, hl2, hok⟩
    · cases he
    obtain ⟨hb, e4, rfl, hblock, hm2⟩ := hok hd rfl
    have hwin : LinkStep 15 ((accept op latch s).put ⟨addr, sizeField reg, false⟩ s.ds) s2 :=
      (hl.put ⟨addr, sizeField reg, false⟩ s.ds).trans hl2
    simp only [put_params, hl.params] at hr
    obtain ⟨e1, e2, rfl, hread, hbit, hwrite⟩ := hclaim
    have hann : Announces s (sizeField reg) addr hb (e1 ++ e2 ++ (e3 ++ e4)) :=
      ⟨reg, e1, e2, e3, e4, by simp, hbit, sizeField_toNat reg, hz, hread, hwrite,
        (ReadsReg_congr hl.params hl.crcDisabled).mp hr, (ReadsBlock_congr hl.params hl.crcDisabled).mp hblock⟩
    have hmade : Made s s2 (e1 ++ e2 ++ (e3 ++ e4)) := Made.trans (s1 := s1) hm hm2
    exact .serviced hann (hmade.begins (s2 := s') (servicePacket_traceGrows h))
      (serviceLeaves_of_run (s := { s with ctx := ⟨addr, sizeField reg, false⟩ }) (op := op) (latch := latch)
        hwin hmade h)

/-- Settles O55: a packet is steps 6 and 7 alone; HISR reaches them behind its announcement, or ends before. -/
theorem dispatchFrames : Obligations.DispatchFrames := by
  refine fun s t => ⟨fun i cmd hi h => ?_, fun m h => ?_⟩
  · rw [exec_packet rfl hi] at h
    obtain ⟨-, r, s', hrun, rfl⟩ := runOp_eq_next h
    exact serviceLeaves_of_run (.refl 0 _) (Made.nil rfl) hrun
  · rw [exec_hisr] at h
    obtain ⟨-, r, s', hrun, rfl⟩ := runOp_eq_next h
    exact hisrLeaves_of_run hrun

end Sys2Proof.Machine

/-! The invariant (70_reset_and_hazards.md R306(a), 10_state.md R33 to R35) is about the parameters, `ctx` and `ds`: it
is kept because of what each instruction leaves of these, whatever the peer answers. -/

namespace Sys2Proof.Machine

open Sys2Proof

/-! ## What an operation that only touches the link leaves -/

section
variable {s t : State} {c : Ctx} {d : DriverState}

theorem State.onlyTouches_params (h : s.onlyTouches t c d) : t.params = s.params := by
  obtain ⟨ts, e⟩ := h
  rw [e]

theorem State.onlyTouches_ctx (h : s.onlyTouches t c d) : t.ctx = c := by
  obtain ⟨ts, e⟩ := h
  rw [e]

theorem State.onlyTouches_ds (h : s.onlyTouches t c d) : t.ds = d := by
  obtain ⟨ts, e⟩ := h
  rw [e]

/-- The invariant behind an operation is asked of the `ctx` and `ds` it leaves only. -/
theorem State.Inv.of_onlyTouches (hs : s.Inv) (h : s.onlyTouches t c d) (hc : c.readSize.toNat ≤ 4095)
    (hd : d.widthsOk) : t.Inv where
  params := (State.onlyTouches_params h).symm ▸ hs.params
  readSize := (State.onlyTouches_ctx h).symm ▸ hc
  widths := (State.onlyTouches_ds h).symm ▸ hd

end

/-! ## The widths of the sink registers -/

/-- A block read gives as many bytes as it asks for (R159). -/
theorem ReadsBlock.length {s : State} {a n : Nat} {d : List Byte} {exs : List Exchange} (h : ReadsBlock s a n d exs) :
    d.length = n := by
  obtain ⟨cmd, misses, hit, dat, -, -, -, -, -, ⟨-, hlen⟩, rfl⟩ := h
  simpa [zeros] using hlen

/-- A payload of its kind's size keeps the widths (R213 to R219). -/
theorem sinkAfter_widthsOk {s : State} {cmd : Option Command} {k : Nat} {b : List Byte} (hd : s.ds.widthsOk)
    (hk : payloadSize cmd = some k) (hb : b.length = k) : (sinkAfter s cmd b).widthsOk := by
  obtain ⟨htime, hinfo, hscan⟩ := hd
  unfold sinkAfter
  split
  · split_ifs
    · exact ⟨htime, hinfo, hscan⟩
    · exact ⟨htime, hinfo, hscan⟩
    · exact ⟨htime, hinfo, hscan⟩
  · cases hk
    exact ⟨fun _ e => Option.some.inj e ▸ hb, hinfo, hscan⟩
  · cases hk
    exact ⟨htime, fun _ e => Option.some.inj e ▸ hb, hscan⟩
  · cases hk
    refine ⟨htime, hinfo, fun r e => ?_⟩
    obtain rfl := Option.some.inj e
    refine ⟨by simp [hb], by simp [hb], ?_, ?_⟩
    · exact BitVec.le_toInt (at' b 1)
    · exact Int.le_of_lt_add_one (BitVec.toInt_lt (x := at' b 1))
  · exact ⟨htime, hinfo, hscan⟩

/-! ## HISR and the packets -/

theorem State.Inv.of_serviceLeaves {s t : State} {cmd : Option Command} {exs : List Exchange} (hs : s.Inv)
    (h : ServiceLeaves s t cmd exs) : t.Inv := by
  rcases h with h | ⟨k, b, e1, e2, hk, -, hblock, -, -, h⟩
  · exact hs.of_onlyTouches h hs.readSize hs.widths
  · exact hs.of_onlyTouches h hs.readSize (sinkAfter_widthsOk hs.widths hk hblock.length)

/-- A size of twelve bits is at most 4095 (R196). -/
theorem announcedSize_le {size reg : Word} (h : size.toNat = reg.toNat / 4 % 4096) : size.toNat ≤ 4095 := by omega

theorem State.Inv.of_hisrLeaves {s t : State} (hs : s.Inv) (h : HisrLeaves s t) : t.Inv := by
  cases h with
  | unclaimed h => exact hs.of_onlyTouches h hs.readSize hs.widths
  | claimed _ _ h => exact hs.of_onlyTouches h hs.readSize hs.widths
  | windowed _ hsize _ _ _ h => exact hs.of_onlyTouches h (announcedSize_le hsize) hs.widths
  | @serviced addr size hb e hann _ h =>
    obtain ⟨reg, -, -, -, -, -, -, hsize, -⟩ := hann
    have hwindow : State.Inv { s with ctx := ⟨addr, size, false⟩ } := ⟨hs.params, announcedSize_le hsize, hs.widths⟩
    exact hwindow.of_serviceLeaves h

/-! ## The instructions -/

theorem State.Inv.of_answer {v : Value} {s t : State} (hs : s.Inv) (h : answer v s = .next t) : t.Inv := by
  rw [answer_eq_next h]
  exact ⟨hs.params, hs.readSize, hs.widths⟩

theorem execHdrNew_eq_next {g o : Byte} {n : Nat} {s t : State} (h : execHdrNew g o n s = .next t) :
    answer (.header (hdrNew g o n)) s = .next t := by
  unfold execHdrNew at h
  split at h
  · exact h
  · cases h

theorem exec_crcoff_eq_next {s t : State} (h : exec .crcoff s = .next t) :
    t = { s with crcDisabled := true }.ended (.ok .unit) [] s.script := by
  obtain ⟨hidle, -⟩ := runOp_eq_next h
  rw [exec_crcoff hidle] at h
  exact (Host.Outcome.next.inj h).symm

/-- Every instruction keeps the invariant. -/
theorem exec_keeps_inv {i : Instr} {s t : State} (hs : s.Inv) (h : exec i s = .next t) : t.Inv := by
  obtain ⟨haccess, hhrecv, hhfin⟩ := accessFrames s t
  obtain ⟨hpacket, hhisr⟩ := dispatchFrames s t
  cases i with
  | dmaWrite | dmaRead | internalWrite | internalRead | terminate | repeatLast | dmaExtWrite | dmaExtRead | singleWrite
  | singleRead | resetPeer | encodeCmd | crc7 | checkByte | crc7Valid | hdrToBytes | hdrFromBytes | hdrPack | hdrUnpack
  | writeDone | readMarker => exact hs.of_answer h
  | hdrNew g o n => exact hs.of_answer (execHdrNew_eq_next h)
  | rdreg | wrreg | rdblk | wrblk | hsend | dataMark =>
    exact hs.of_onlyTouches (haccess _ (by simp) h) hs.readSize hs.widths
  | hisr m =>
    have hmode : State.Inv { s with ds := { s.ds with mode := m } } := ⟨hs.params, hs.readSize, hs.widths⟩
    exact hmode.of_hisrLeaves (hhisr m h)
  | hrecv a n =>
    rcases hhrecv a n h with h | h
    · exact hs.of_onlyTouches h hs.readSize hs.widths
    · exact hs.of_onlyTouches h hs.readSize hs.widths
  | hfin => exact hs.of_onlyTouches (hhfin h) hs.readSize hs.widths
  | crcoff =>
    rw [exec_crcoff_eq_next h]
    exact ⟨hs.params, hs.readSize, hs.widths⟩
  | breset =>
    rw [exec_breset_eq_next h]
    exact ⟨hs.params, Nat.zero_le _, by simp [DriverState.widthsOk]⟩
  | hifConState | hifSysTime | hifConnInfo | hifScanResult | hifWifiOther | hifIpAny | hifUnknownGroup =>
    exact hs.of_serviceLeaves (hpacket _ _ rfl h)

/-! ## The step -/

theorem step_of_empty {s : State} (h : s.port = []) : step s = .next s := by simp only [step, h]

theorem step_of_decode {s : State} {r : Request} {rest : List Request} {i : Instr} (hp : s.port = r :: rest)
    (hd : decode s.params r = .ok i) : step s = exec i s.popPort := by simp only [step, hp, hd]

theorem step_of_error {s : State} {r : Request} {rest : List Request} {e : DecodeError} (hp : s.port = r :: rest)
    (hd : decode s.params r = .error e) : step s = .refused (.undecodable e) := by simp only [step, hp, hd]

/-- Settles O58: the port is no part of the invariant, so a step keeps it as the instruction it runs does. -/
theorem stepKeepsInvariant : Obligations.StepKeepsInvariant := by
  intro s t hs h
  cases hport : s.port with
  | nil =>
    rw [step_of_empty hport] at h
    cases h
    exact hs
  | cons r rest =>
    cases hdecode : decode s.params r with
    | error e =>
      rw [step_of_error hport hdecode] at h
      cases h
    | ok i =>
      rw [step_of_decode hport hdecode] at h
      have hpopped : s.popPort.Inv := ⟨hs.params, hs.readSize, hs.widths⟩
      exact exec_keeps_inv hpopped h

/-- The spec's defaults meet the spec's constraints on the parameters (log 2). -/
theorem default_wellFormed : Params.default.WellFormed where
  opcodesDistinct := by decide
  gidsDistinct := by decide
  handledDistinct := by decide
  otherUnhandled := by decide
  otherKeys := by decide
  otherNames := by decide
  socketKeys := by decide
  csDistinct := by decide
  newDataBit := by decide
  txBits := by decide
  responseLengths := by decide
  maxBlock := by decide

/-- Settles O59: no window is announced at reset and no sink register holds a value. -/
theorem resetInvariant : Obligations.ResetInvariant where
  params := default_wellFormed
  readSize := Nat.zero_le _
  widths := by simp [DriverState.widthsOk, State.reset]

/-- Settles O4: the request at the front is taken from the port, then run. -/
theorem stepRunsDecoded : Obligations.StepRunsDecoded := by
  intro s r rest i hport hdecode
  rw [step_of_decode hport hdecode, State.popPort, hport]
  rfl

/-- Settles O53, by evaluation. -/
theorem resetValues : Obligations.ResetValues := by
  unfold Obligations.ResetValues
  decide

end Sys2Proof.Machine

/-! How a host operation ends (60_exceptions.md): it always ends (R272), a packet taken up by HISR is released where it
ends in a value (R306(b)), and the errors it can end in are those of its rules (R241, R249, R258). -/

namespace Sys2Proof.Machine

open Sys2Proof

/-! ## Every operation ends within its bound on transfers -/

/-- HISR behind its claim makes at most 27 transfers (R272). -/
theorem announced_traceGrows {p : Params} {reg : Word} {s s' : State} {r : Except DriverError Value}
    (h : announced p reg s = (r, s')) : TraceGrows 27 s s' := by
  by_cases hz : sizeField reg = 0
  · rw [announced_of_empty _ hz] at h
    exact (release_link h).1.traceGrows.mono (by omega)
  · rw [announced_of_size _ hz] at h
    have hfetch : ∀ r1 s1, Op.at 5 (fetchHeader (sizeField reg)) s = (r1, s1) → TraceGrows 13 s s1 := by
      intro r1 s1 hrun
      rcases fetchHeader_at_leaves hrun with ⟨-, hl⟩ | ⟨_, _, -, -, hl, -⟩
      · exact (LinkStep.traceGrows hl).mono (by omega)
      · exact hl.traceGrows
    rcases Op.bind_cases h with ⟨_, hrun, -⟩ | ⟨_, s1, hrun, hserve⟩
    · exact (hfetch _ _ hrun).mono (by omega)
    · exact (hfetch _ _ hrun).trans (servicePacket_traceGrows hserve)

/-- HISR makes at most 29 transfers (R272). -/
theorem hisr_traceGrows {s s' : State} {r : Except DriverError Value} (h : hisr s = (r, s')) : TraceGrows 29 s s' := by
  rcases hisr_cases h with hl | ⟨reg, e, s1, -, -, hl, hrun⟩
  · exact (LinkStep.traceGrows hl).mono (by omega)
  · exact (LinkStep.traceGrows (c := { s.ctx with readDone := false }) (d := s.ds) (hl.put _ _)).trans
      (announced_traceGrows hrun)

/-- HRECV makes at most 14 transfers (R272). -/
theorem hrecv_traceGrows {a n : Nat} {s s' : State} {r : Except DriverError (List Byte)} (h : hrecv a n s = (r, s')) :
    TraceGrows 14 s s' := by
  rcases (hrecv_spec h).1 with hl | hl
  · exact (LinkStep.traceGrows hl).mono (by omega)
  · exact LinkStep.traceGrows (c := s.ctx.closed) hl

/-- The request ends in Ok or Err with the port free again, after at most `n` transfers (R272). -/
def EndsWithin (n : Nat) (s : State) (o : Host.Outcome State Fault Refusal) : Prop :=
  ∃ t ts, o = .next t ∧ t.seq = .idle ∧ (∃ r, t.result = some r) ∧ t.trace = s.trace ++ ts ∧ ts.length ≤ n

/-- An operation accepted on a free port ends, after the transfers of its rule. -/
theorem runOp_endsWithin {n : Nat} {op : HostOp} {latch : Work → Work} {m : Op Value} {s : State} (hs : s.seq = .idle)
    (hm : ∀ r s', m (accept op latch s) = (r, s') → TraceGrows n (accept op latch s) s') :
    EndsWithin n s (runOp op latch m s) := by
  obtain ⟨ts, hlen, htrace⟩ := hm _ _ rfl
  exact ⟨_, ts, runOp_idle hs, rfl, ⟨_, rfl⟩, htrace, hlen⟩

/-- A rule that makes link steps ends within their number. -/
theorem runOp_endsWithin_of_link {α : Type} {n : Nat} {op : HostOp} {latch : Work → Work} {m : Op α} {g : α → Value}
    {s : State} (hs : s.seq = .idle) (hm : ∀ s r s', m s = (r, s') → LinkStep n s s') :
    EndsWithin n s (runOp op latch (m.bind fun a => Op.ret (g a)) s) :=
  runOp_endsWithin hs fun _ _ h => (thenRet_link (hm _) h).trace

theorem exec_hisr_endsWithin {s : State} (hs : s.seq = .idle) (m : Mode) : EndsWithin 29 s (exec (.hisr m) s) := by
  rw [exec_hisr]
  obtain ⟨t, ts, hend⟩ := runOp_endsWithin (n := 29) (op := .hisr) (latch := id) (m := hisr)
    (s := { s with ds := { s.ds with mode := m } }) hs fun _ _ => hisr_traceGrows
  exact ⟨t, ts, hend⟩

/-- Settles O57: each admitted operation is a rule with a bound on its transfers; CRCOFF and BRESET have one end each. -/
theorem hostOperationsTerminate : Obligations.HostOperationsTerminate := by
  intro s i hi hs hin
  show EndsWithin (transferBound i) s (exec i s)
  cases i with
  | rdreg a => exact runOp_endsWithin_of_link hs fun _ _ _ => rdreg_link
  | wrreg a d => exact runOp_endsWithin_of_link hs fun _ _ _ => wrreg_link
  | rdblk a n =>
    rw [exec_rdblk hs hin]
    exact runOp_endsWithin_of_link hs fun _ _ _ => rdblk_link
  | wrblk a b =>
    rw [exec_wrblk hs hin]
    exact runOp_endsWithin_of_link hs fun _ _ _ => wrblk_link
  | hsend hd d c =>
    rw [exec_hsend hs hin]
    exact runOp_endsWithin_of_link hs fun _ _ _ => hsend_link
  | hisr m => exact exec_hisr_endsWithin hs m
  | hrecv a n =>
    rw [exec_hrecv hs hin]
    refine runOp_endsWithin hs fun r s' h => ?_
    obtain ⟨_, hrun, -⟩ := Op.thenRet_cases h
    exact hrecv_traceGrows hrun
  | hfin =>
    refine runOp_endsWithin hs fun r s' h => ?_
    obtain ⟨_, hrun, -⟩ := Op.unit_cases h
    exact LinkStep.traceGrows (c := s.ctx.closed) (hfin_link hrun)
  | crcoff => exact ⟨_, [], exec_crcoff hs, rfl, ⟨_, rfl⟩, rfl, Nat.le_refl 0⟩
  | breset => exact ⟨_, [], exec_breset hs, rfl, ⟨_, rfl⟩, rfl, Nat.le_refl 0⟩
  | _ => cases hi

/-! ## A packet taken up is released -/

theorem release_readDone {v w : Value} {s s' : State} (h : ((Op.at 7 finishIfOpen).seq (Op.ret v)) s = (.ok w, s')) :
    s'.ctx.readDone = true := by
  rw [(release_link h).1.ctx]
  rfl

/-- Step 7 ran wherever steps 6 and 7 returned (R203). -/
theorem servicePacket_readDone {cmd : Option Command} {v : Value} {s s' : State}
    (h : servicePacket cmd s = (.ok v, s')) : s'.ctx.readDone = true := by
  rw [servicePacket_eq] at h
  obtain ⟨_, s1, -, hrel⟩ := Op.seq_ok h
  exact release_readDone hrel

/-- HISR behind its claim releases the packet where it returns, of whatever size (R197, R203). -/
theorem announced_readDone {p : Params} {reg : Word} {v : Value} {s s' : State}
    (h : announced p reg s = (.ok v, s')) : s'.ctx.readDone = true := by
  by_cases hz : sizeField reg = 0
  · rw [announced_of_empty _ hz] at h
    exact release_readDone h
  · rw [announced_of_size _ hz] at h
    obtain ⟨_, s1, -, hserve⟩ := Op.bind_ok h
    exact servicePacket_readDone hserve

theorem replyOf_ok {r : Except DriverError Value} {v : Value} (h : replyOf r = .ok v) : r = .ok v := by
  cases r with
  | ok w => cases h; rfl
  | error e => cases h

/-- A register read as a step of a rule runs along its transcript. -/
theorem rdreg_at_runs {k : Nat} {s : State} {a v : Word} {exs : List Exchange} (h : ReadsReg s a v exs) :
    Runs (Op.at k (rdreg a)) s v exs := Runs.at (rdreg_runs ((ReadsReg_congr rfl rfl).mpr h))

/-- HISR once its first read has given `reg` (R193). -/
theorem hisr_of_read {s : State} {reg : Word} {e : List Exchange} {rest : List PeerAnswer}
    (hr : ReadsReg s s.params.regRcvCtrl0 reg e) (hm : s.meets e rest) :
    ∃ w, hisr s = (if bitOf reg s.params.newDataBit = false then Op.ret (.command none) else hisrClaimed s reg)
      (s.linked e rest w) := by
  obtain ⟨w, hread⟩ := rdreg_at_runs (k := 1) hr rest hm
  exact ⟨w, by rw [hisr_eq, Op.bind_of_ok hread]⟩

/-- Settles O42: the first read decides; behind it HISR returns at once, or returns behind step 7. -/
theorem hisrReleases : Obligations.HisrReleases := by
  intro s t m reg e rest hs hr hm h
  rw [exec_hisr] at h
  obtain ⟨-, r, s', hrun, rfl⟩ := runOp_eq_next h
  obtain ⟨w, hread⟩ := hisr_of_read (s := accept .hisr id { s with ds := { s.ds with mode := m } })
    ((ReadsReg_congr rfl rfl).mpr hr) hm
  rw [hread] at hrun
  constructor
  · intro hbit v hv
    rw [if_neg (by simp [bitOf, hbit]), hisrClaimed_eq] at hrun
    obtain rfl := replyOf_ok (Option.some.inj hv)
    obtain ⟨_, s1, -, hclaimed⟩ := Op.seq_ok hrun
    obtain ⟨_, s2, -, hannounced⟩ := Op.seq_ok hclaimed
    exact announced_readDone (s' := s') hannounced
  · intro hbit
    rw [if_pos (by simpa [bitOf] using hbit)] at hrun
    cases hrun
    rfl

end Sys2Proof.Machine

/-! Which errors a rule can raise (60_exceptions.md R241, R249): those of the link and the tests on received bytes, which
are of the Spi half, and those of HRECV's two checks, which are of the Hif half. -/

namespace Sys2Proof.Machine

open Sys2Proof

/-! ## Errors along chains -/

/-- Every error the rule raises, in any state, has the property. -/
structure Op.Raises {α : Type} (m : Op α) (P : DriverError → Prop) : Prop where
  of_error : ∀ s e s', m s = (.error e, s') → P e

/-- The errors of the Spi half that are raised: all but InvalidSpiCommandError (R249). -/
def SpiFault (e : DriverError) : Prop := ∃ x, e = .spi x ∧ x ≠ .invalidSpiCommand

/-- Every error that is raised (R249). -/
def AnyFault (e : DriverError) : Prop := e ≠ .spi .invalidSpiCommand

theorem SpiFault.any {e : DriverError} (h : SpiFault e) : AnyFault e := by
  obtain ⟨x, rfl, hx⟩ := h
  exact fun he => hx (DriverError.spi.inj he)

namespace Op.Raises

variable {α β : Type} {P Q : DriverError → Prop}

theorem mono {m : Op α} (hm : m.Raises P) (h : ∀ e, P e → Q e) : m.Raises Q :=
  ⟨fun s e s' hrun => h e (hm.of_error s e s' hrun)⟩

theorem ret (a : α) : (Op.ret a).Raises P := ⟨fun _ _ _ h => by cases h⟩

theorem assign (f : State → State) : (Op.assign f).Raises P := ⟨fun _ _ _ h => by cases h⟩

theorem raise {e : DriverError} (he : P e) : (Op.raise e : Op α).Raises P := ⟨fun _ _ _ h => by cases h; exact he⟩

theorem check {c : Except DriverError α} (hc : ∀ e, c = .error e → P e) : (Op.check c).Raises P :=
  ⟨fun _ e _ h => hc e (congrArg Prod.fst h)⟩

/-- A chain raises what its parts raise (R260). -/
theorem bind {m : Op α} {f : α → Op β} (hm : m.Raises P) (hf : ∀ a, (f a).Raises P) : (m.bind f).Raises P := by
  refine ⟨fun s e s' h => ?_⟩
  rcases Op.bind_cases h with ⟨e', hrun, he⟩ | ⟨a, s1, -, hrun⟩
  · cases he
    exact hm.of_error _ _ _ hrun
  · exact (hf a).of_error _ _ _ hrun

theorem seq {m : Op α} {n : Op β} (hm : m.Raises P) (hn : n.Raises P) : (m.seq n).Raises P := hm.bind fun _ => hn

theorem atStep (k : Nat) {m : Op α} (hm : m.Raises P) : (Op.at k m).Raises P := by
  refine ⟨fun s e s' h => ?_⟩
  obtain ⟨s1, hrun, -⟩ := Op.at_cases h
  exact hm.of_error _ _ _ hrun

theorem unit {m : Op Unit} (hm : m.Raises P) : m.unit.Raises P := hm.seq (ret _)

theorem ite {c : Prop} [Decidable c] {m n : Op α} (hm : m.Raises P) (hn : n.Raises P) :
    (if c then m else n).Raises P := by
  split
  · exact hm
  · exact hn

/-- A rule that reads parameters from the state raises what the chain it is at a state raises. -/
theorem ofState {m : Op α} (h : ∀ s, ∃ f : Op α, f.Raises P ∧ m s = f s) : m.Raises P := by
  refine ⟨fun s e s' hrun => ?_⟩
  obtain ⟨f, hf, hm⟩ := h s
  exact hf.of_error s e s' (hm.symm.trans hrun)

end Op.Raises

open Op.Raises

/-! ## The accesses -/

theorem xfer_raises (tx : List Byte) : (xfer tx).Raises SpiFault := by
  refine ⟨fun s e s' h => ?_⟩
  rcases xfer_spec tx s with ⟨t, hrun, -⟩ | ⟨t, hrun, -⟩ | ⟨rx, t, hrun, -⟩ <;> rw [h] at hrun <;> cases hrun
  · exact ⟨_, rfl, by simp⟩
  · exact ⟨_, rfl, by simp⟩

theorem encodeStep_raises (op : WireOp) (a d z : Word) (k : Bool) : (encodeStep op a d z k).Raises SpiFault :=
  (assign _).seq ⟨fun _ _ _ h => by cases h⟩

theorem readResponse_error {p : Params} {op : WireOp} {rs : Nat} {rx : List Byte} {e : DriverError}
    (h : readResponse p op rs rx = .error e) : SpiFault e := by
  simp only [readResponse] at h
  split at h <;> cases h
  exact ⟨_, rfl, by simp⟩

theorem writeResponse_error {p : Params} {op : WireOp} {rs : Nat} {rx : List Byte} {e : DriverError}
    (h : writeResponse p op rs rx = .error e) : SpiFault e := by
  unfold writeResponse at h
  split at h <;> cases h
  exact ⟨_, rfl, by simp⟩

theorem readDataResponse_error {p : Params} {rsp : List Byte} {e : DriverError}
    (h : readDataResponse p rsp = .error e) : SpiFault e := by
  unfold readDataResponse at h
  split at h <;> cases h
  exact ⟨_, rfl, by simp⟩

theorem writeDataResponse_error {p : Params} {rsp : List Byte} {e : DriverError}
    (h : writeDataResponse p rsp = .error e) : SpiFault e := by
  unfold writeDataResponse at h
  split at h <;> cases h
  exact ⟨_, rfl, by simp⟩

/-- The chain RDREG is at a state (R150). -/
theorem rdreg_eq (a : Word) (s : State) : rdreg a s =
    ((Op.at 1 (encodeStep (readOpFor a) a 0 0 (readOpFor a = .internalRead))).bind fun cmd =>
      (Op.at 2 (xfer (cmd ++ zeros s.params s.params.regRspRd))).bind fun rx =>
        Op.at 3 (Op.check (readResponse s.params (readOpFor a) (lenOf (readOpFor a) + crcLen s) rx))) s := rfl

/-- The chain WRREG is at a state (R153). -/
theorem wrreg_eq (a d : Word) (s : State) : wrreg a d s =
    ((Op.at 1 (encodeStep (writeOpFor a) a d 0 (writeOpFor a = .internalWrite))).bind fun cmd =>
      (Op.at 2 (xfer (cmd ++ zeros s.params s.params.regRspWr))).bind fun rx =>
        Op.at 3 (Op.check (writeResponse s.params (writeOpFor a) (lenOf (writeOpFor a) + crcLen s) rx))) s := rfl

theorem rdreg_raises (a : Word) : (rdreg a).Raises SpiFault :=
  ofState fun s => ⟨_, ((encodeStep_raises ..).atStep 1).bind fun _ => ((xfer_raises _).atStep 2).bind
    fun _ => (check fun _ => readResponse_error).atStep 3, rdreg_eq a s⟩

theorem wrreg_raises (a d : Word) : (wrreg a d).Raises SpiFault :=
  ofState fun s => ⟨_, ((encodeStep_raises ..).atStep 1).bind fun _ => ((xfer_raises _).atStep 2).bind
    fun _ => (check fun _ => writeResponse_error).atStep 3, wrreg_eq a d s⟩

theorem pollResponse_raises (echo : Byte) (n : Nat) (site : PollSite) (left : Nat) :
    (pollResponse echo n site left).Raises SpiFault := by
  induction left with
  | zero => exact raise ⟨_, rfl, by simp⟩
  | succ k ih =>
    exact ofState fun _ => ⟨_, (assign _).seq ((xfer_raises _).bind fun _ => ite (ret _) ih), rfl⟩

theorem pollDone_raises (left : Nat) : (pollDone left).Raises SpiFault := by
  induction left with
  | zero => exact raise ⟨_, rfl, by simp⟩
  | succ k ih =>
    exact ofState fun _ => ⟨_, (assign _).seq ((xfer_raises _).bind fun _ => ite (ret _) ih), rfl⟩

theorem sendCommand_raises (op : WireOp) (a n : Nat) : (sendCommand op a n).Raises SpiFault :=
  (assign _).seq ((encodeStep_raises ..).bind fun _ => (xfer_raises _).seq (ret _))

theorem sendMark_raises : sendMark.Raises SpiFault := ((xfer_raises _).atStep 4).seq (ret _)

theorem rdblk_raises (a n : Nat) : (rdblk a n).Raises SpiFault :=
  ofState fun _ => ⟨_, ((sendCommand_raises ..).atStep 1).seq (((pollResponse_raises ..).atStep 2).bind
    fun _ => ((check fun _ => readDataResponse_error).atStep 3).seq ((xfer_raises _).atStep 4)), rfl⟩

theorem wrblk_raises (a : Nat) (b : List Byte) : (wrblk a b).Raises SpiFault :=
  ofState fun _ => ⟨_, ((sendCommand_raises ..).atStep 1).seq (((pollResponse_raises ..).atStep 2).bind
    fun _ => ((check fun _ => writeDataResponse_error).atStep 3).seq (sendMark_raises.seq
      (((xfer_raises _).atStep 5).seq ((pollDone_raises _).atStep 6)))), rfl⟩

/-! ## The HIF engine -/

theorem pollBusy_raises (left : Nat) : (pollBusy left).Raises SpiFault := by
  induction left with
  | zero => exact raise ⟨_, rfl, by simp⟩
  | succ k ih =>
    exact ofState fun _ => ⟨_, (assign _).seq ((rdreg_raises _).bind fun _ => ite (ret _) ih), rfl⟩

theorem wrblkIfAny_raises (a : Nat) (b : List Byte) : (wrblkIfAny a b).Raises SpiFault := by
  unfold wrblkIfAny
  split
  · exact ret _
  · exact wrblk_raises a b

theorem hsend_raises (h : HifHeader) (d c : List Byte) : (hsend h d c).Raises SpiFault :=
  ofState fun _ => ⟨_, ((wrreg_raises ..).atStep 1).seq (((wrreg_raises ..).atStep 2).seq
    (((pollBusy_raises _).atStep 3).seq (((rdreg_raises _).atStep 4).bind fun _ => ((wrblk_raises ..).atStep 5).seq
      (((wrblkIfAny_raises ..).atStep 6).seq (((wrblkIfAny_raises ..).atStep 7).seq ((wrreg_raises ..).atStep 8)))))), rfl⟩

theorem hfin_raises : hfin.Raises SpiFault :=
  ofState fun _ => ⟨_, ((assign _).atStep 1).seq (((rdreg_raises _).atStep 2).bind
    fun _ => (wrreg_raises ..).atStep 3), rfl⟩

theorem finishIfOpen_raises : finishIfOpen.Raises SpiFault := by
  refine ⟨fun s e s' h => ?_⟩
  rcases finishIfOpen_cases h with ⟨-, hrun⟩ | ⟨-, hr, -⟩
  · exact hfin_raises.of_error _ _ _ hrun
  · cases hr

theorem finishAtEnd_raises (a n : Nat) : (finishAtEnd a n).Raises SpiFault := by
  refine ⟨fun s e s' h => ?_⟩
  rcases finishAtEnd_cases h with ⟨-, hrun⟩ | ⟨-, hr, -⟩
  · exact hfin_raises.of_error _ _ _ hrun
  · cases hr

theorem sizeCheck_error {c : Ctx} {n : Nat} {e : DriverError} (h : sizeCheck c n = .error e) : AnyFault e := by
  unfold sizeCheck at h
  split at h <;> cases h
  simp [AnyFault]

theorem windowCheck_error {c : Ctx} {a n : Nat} {e : DriverError} (h : windowCheck c a n = .error e) : AnyFault e := by
  unfold windowCheck at h
  split at h <;> cases h
  simp [AnyFault]

theorem hrecv_raises (a n : Nat) : (hrecv a n).Raises AnyFault :=
  ofState fun _ => ⟨_, ((check fun _ => sizeCheck_error).atStep 1).seq
    (((check fun _ => windowCheck_error).atStep 2).seq ((((rdblk_raises a n).mono fun _ => SpiFault.any).atStep 3).bind
      fun _ => (((finishAtEnd_raises a n).mono fun _ => SpiFault.any).atStep 4).seq (ret _))), rfl⟩

/-- Steps 6 and 7 raise what the handler raises, where there is one (R214). -/
theorem servicePacket_raises (cmd : Option Command) : (servicePacket cmd).Raises AnyFault := by
  refine ofState fun s => ⟨_, ?_, servicePacket_eq cmd s⟩
  have hrelease := (finishIfOpen_raises.mono fun _ => SpiFault.any).atStep 7
  rcases dispatch_cases cmd with ⟨-, hd, -⟩ | ⟨k, f, -, hd, -⟩ <;> rw [hd]
  · exact ((ret _).atStep 6).seq (hrelease.seq (ret _))
  · exact (((hrecv_raises _ _).bind fun b => assign (f b)).atStep 6).seq (hrelease.seq (ret _))

/-- Without a handler only the release of step 7 can fail. -/
theorem servicePacket_raises_of_unhandled {cmd : Option Command} (h : payloadSize cmd = none) :
    (servicePacket cmd).Raises SpiFault := by
  refine ofState fun s => ⟨_, ?_, servicePacket_eq cmd s⟩
  rcases dispatch_cases cmd with ⟨-, hd, -⟩ | ⟨k, f, hk, -, -⟩
  · rw [hd]
    exact ((ret _).atStep 6).seq ((finishIfOpen_raises.atStep 7).seq (ret _))
  · simp [h] at hk

theorem fetchHeader_raises (size : Word) : (fetchHeader size).Raises SpiFault :=
  ofState fun _ => ⟨_, (rdreg_raises _).bind fun _ => (assign _).seq ((rdblk_raises ..).bind
    fun _ => ret _), rfl⟩

theorem announced_raises (p : Params) (reg : Word) : (announced p reg).Raises AnyFault :=
  ite (((finishIfOpen_raises.mono fun _ => SpiFault.any).atStep 7).seq (ret _))
    ((((fetchHeader_raises _).mono fun _ => SpiFault.any).atStep 5).bind fun _ => servicePacket_raises _)

theorem hisr_raises : hisr.Raises AnyFault := by
  refine ofState fun s => ⟨_, (((rdreg_raises _).mono fun _ => SpiFault.any).atStep 1).bind fun reg => ?_, hisr_eq s⟩
  rw [hisrClaimed_eq]
  exact ite (ret _) ((((wrreg_raises ..).mono fun _ => SpiFault.any).atStep 2).seq
    (((assign _).atStep 3).seq (announced_raises ..)))

/-! ## The instructions -/

/-- An operation that ends in an error ends in one its rule raises (R260). -/
theorem runOp_raises_of {op : HostOp} {latch : Work → Work} {m : Op Value} {P : DriverError → Prop} (hm : m.Raises P)
    {s t : State} {e : DriverError} (h : runOp op latch m s = .next t) (ht : t.result = some (.err e)) : P e := by
  obtain ⟨-, r, s', hrun, rfl⟩ := runOp_eq_next h
  cases r with
  | ok v => cases ht
  | error e' =>
    cases ht
    exact hm.of_error _ _ _ hrun

theorem answer_result {v : Value} {s t : State} (h : answer v s = .next t) : t.result = some (.ok v) := by
  rw [answer_eq_next h]

/-- What O56 says of an instruction and an error it can end in. -/
def ErrorAllowed (p : Params) (i : Instr) (e : DriverError) : Prop :=
  e ≠ .spi .invalidSpiCommand ∧
    (isHostOp i = true ∨ i = .dataMark ∨ packetCommand p i ≠ none) ∧ i ≠ .crcoff ∧ i ≠ .breset ∧
    (((∃ a, i = Instr.rdreg a) ∨ (∃ a d, i = .wrreg a d) ∨ (∃ a n, i = .rdblk a n) ∨ (∃ a b, i = .wrblk a b) ∨
      (∃ h d c, i = .hsend h d c) ∨ i = .hfin ∨ i = .dataMark) → ∃ x, e = .spi x) ∧
    (∀ cmd, packetCommand p i = some cmd → payloadSize cmd = none → ∃ x, e = .spi x)

/-- An instruction whose errors are of the Spi half may end in each of them. -/
theorem ErrorAllowed.of_spi {p : Params} {i : Instr} {e : DriverError} (he : SpiFault e)
    (hi : isHostOp i = true ∨ i = .dataMark ∨ packetCommand p i ≠ none) (hc : i ≠ .crcoff) (hb : i ≠ .breset) :
    ErrorAllowed p i e := by
  have hany := he.any
  obtain ⟨x, rfl, -⟩ := he
  exact ⟨hany, hi, hc, hb, fun _ => ⟨x, rfl⟩, fun _ _ _ => ⟨x, rfl⟩⟩

/-- A packet: any error where its kind has a handler, one of the Spi half where it has none. -/
theorem ErrorAllowed.of_packet {i : Instr} {cmd : Option Command} {s t : State} {e : DriverError}
    (hi : packetCommand s.params i = some cmd) (h : exec i s = .next t) (ht : t.result = some (.err e)) :
    ErrorAllowed s.params i e := by
  rw [exec_packet rfl hi] at h
  refine ⟨runOp_raises_of (servicePacket_raises cmd) h ht, .inr (.inr (by simp [hi])), ?_, ?_, ?_, ?_⟩
  · rintro rfl
    cases hi
  · rintro rfl
    cases hi
  · rintro (⟨a, rfl⟩ | ⟨a, d, rfl⟩ | ⟨a, n, rfl⟩ | ⟨a, b, rfl⟩ | ⟨hd, d, c, rfl⟩ | rfl | rfl) <;> cases hi
  · intro cmd' hi' hunhandled
    obtain rfl := Option.some.inj (hi.symm.trans hi')
    obtain ⟨x, hx, -⟩ := runOp_raises_of (servicePacket_raises_of_unhandled hunhandled) h ht
    exact ⟨x, hx⟩

/-- Settles O56: the errors of each rule, by the half they are of; whatever is answered off the sequencer has none. -/
theorem errorFamilies : Obligations.ErrorFamilies := by
  intro i s t e h ht
  show ErrorAllowed s.params i e
  cases i with
  | dmaWrite | dmaRead | internalWrite | internalRead | terminate | repeatLast | dmaExtWrite | dmaExtRead | singleWrite
  | singleRead | resetPeer | encodeCmd | crc7 | checkByte | crc7Valid | hdrToBytes | hdrFromBytes | hdrPack | hdrUnpack
  | writeDone | readMarker => cases (answer_result h).symm.trans ht
  | hdrNew g o n => cases (answer_result (execHdrNew_eq_next h)).symm.trans ht
  | crcoff => cases exec_crcoff_eq_next h ▸ ht
  | breset => cases exec_breset_eq_next h ▸ ht
  | rdreg a => exact .of_spi (runOp_raises_of ((rdreg_raises a).bind fun _ => ret _) h ht) (.inl rfl) nofun nofun
  | wrreg a d => exact .of_spi (runOp_raises_of (wrreg_raises a d).unit h ht) (.inl rfl) nofun nofun
  | rdblk a n =>
    obtain ⟨-, -, hrun⟩ := guarded_eq_next h
    exact .of_spi (runOp_raises_of ((rdblk_raises _ n).bind fun _ => ret _) hrun ht) (.inl rfl) nofun nofun
  | wrblk a b =>
    obtain ⟨-, -, hrun⟩ := guarded_eq_next h
    exact .of_spi (runOp_raises_of (wrblk_raises _ b).unit hrun ht) (.inl rfl) nofun nofun
  | hsend hd d c =>
    obtain ⟨-, -, hctrl⟩ := guarded_eq_next h
    obtain ⟨-, -, hrun⟩ := guarded_eq_next hctrl
    exact .of_spi (runOp_raises_of (hsend_raises hd d c).unit hrun ht) (.inl rfl) nofun nofun
  | hfin => exact .of_spi (runOp_raises_of hfin_raises.unit h ht) (.inl rfl) nofun nofun
  | dataMark => exact .of_spi (runOp_raises_of sendMark_raises.unit h ht) (.inr (.inl rfl)) nofun nofun
  | hisr m =>
    rw [exec_hisr] at h
    exact ⟨runOp_raises_of hisr_raises h ht, .inl rfl, nofun, nofun, by simp, by simp [packetCommand]⟩
  | hrecv a n =>
    obtain ⟨-, -, hrun⟩ := guarded_eq_next h
    exact ⟨runOp_raises_of ((hrecv_raises _ n).bind fun _ => ret _) hrun ht, .inl rfl, nofun, nofun, by simp,
      by simp [packetCommand]⟩
  | hifConState | hifSysTime | hifConnInfo | hifScanResult | hifWifiOther | hifIpAny | hifUnknownGroup =>
    exact .of_packet rfl h ht

end Sys2Proof.Machine

/-! The accesses along transcripts (42_register_block_access.md): a good transcript ends in the rule's value, a failing
one in the error of the first thing that goes wrong, and nothing but the link is touched. -/

namespace Sys2Proof.Machine

open Sys2Proof

/-! ## Operations whose value is computed behind a rule -/

theorem Runs.thenRet {α β : Type} {m : Op α} {s : State} {a : α} {exs : List Exchange} (h : Runs m s a exs)
    (g : α → β) : Runs (m.bind fun a => Op.ret (g a)) s (g a) exs := by
  intro rest hm
  obtain ⟨w, hw⟩ := h rest hm
  exact ⟨w, by rw [Op.bind_of_ok hw, Op.ret_apply]⟩

theorem Runs.unit {m : Op Unit} {s : State} {exs : List Exchange} (h : Runs m s () exs) : Runs m.unit s .unit exs :=
  h.thenRet fun _ => Value.unit

section
variable {s : State} {exs : List Exchange} {rest : List PeerAnswer}

theorem exec_rdreg_ends {a v : Word} (hs : s.seq = .idle) (h : ReadsReg s a v exs) (hm : s.meets exs rest) :
    exec (.rdreg a) s = .next (s.ended (.ok (.word v)) exs rest) :=
  runOp_runs hs ((rdreg_runs ((ReadsReg_congr (by rfl) (by rfl)).mpr h)).thenRet _) hm

theorem exec_wrreg_ends {a d : Word} (hs : s.seq = .idle) (h : WritesReg s a d exs) (hm : s.meets exs rest) :
    exec (.wrreg a d) s = .next (s.ended (.ok .unit) exs rest) :=
  runOp_runs hs (wrreg_runs ((WritesReg_congr (by rfl) (by rfl)).mpr h)).unit hm

theorem exec_rdblk_ends {a : Word} {n : Nat} {d : List Byte} (hs : s.seq = .idle)
    (hn : 1 ≤ n ∧ n ≤ s.params.maxBlock) (h : ReadsBlock s a.toNat n d exs) (hm : s.meets exs rest) :
    exec (.rdblk a n) s = .next (s.ended (.ok (.bytes d)) exs rest) :=
  (exec_rdblk hs hn).trans (runOp_runs hs ((rdblk_runs ((ReadsBlock_congr (by rfl) (by rfl)).mpr h)).thenRet _) hm)

theorem exec_wrblk_ends {a : Word} {b : List Byte} (hs : s.seq = .idle)
    (hb : 1 ≤ b.length ∧ b.length ≤ s.params.maxBlock) (h : WritesBlock s a.toNat b exs) (hm : s.meets exs rest) :
    exec (.wrblk a b) s = .next (s.ended (.ok .unit) exs rest) :=
  (exec_wrblk hs hb).trans (runOp_runs hs (wrblk_runs ((WritesBlock_congr (by rfl) (by rfl)).mpr h)).unit hm)

end

/-- Settles O20. -/
theorem rdregReads : Obligations.RdregReads := fun _ _ _ _ _ => exec_rdreg_ends

/-- Settles O22. -/
theorem wrregWrites : Obligations.WrregWrites := fun _ _ _ _ _ => exec_wrreg_ends

/-- Settles O27. -/
theorem rdblkReads : Obligations.RdblkReads := fun _ _ _ _ _ _ hs h1 hmax => exec_rdblk_ends hs ⟨h1, hmax⟩

/-- Settles O30. -/
theorem wrblkWrites : Obligations.WrblkWrites := fun _ _ _ _ _ hs h1 hmax => exec_wrblk_ends hs ⟨h1, hmax⟩

/-! ## Failing transcripts -/

section
variable {s : State} {e : DriverError} {exs : List Exchange} {cut : Option Cut} {rest : List PeerAnswer}

theorem exec_rdreg_fails {a : Word} (hs : s.seq = .idle) (h : ReadsRegFails s a e exs cut)
    (hm : s.meetsCut exs cut rest) : ∃ t, exec (.rdreg a) s = .next t ∧ s.failed t e exs cut rest :=
  runOp_fails hs (.first (rdreg_fails ((ReadsRegFails_congr (by rfl) (by rfl)).mpr h))) hm

theorem exec_wrreg_fails {a d : Word} (hs : s.seq = .idle) (h : WritesRegFails s a d e exs cut)
    (hm : s.meetsCut exs cut rest) : ∃ t, exec (.wrreg a d) s = .next t ∧ s.failed t e exs cut rest :=
  runOp_fails hs (.first (wrreg_fails ((WritesRegFails_congr (by rfl) (by rfl)).mpr h))) hm

theorem exec_rdblk_fails {a : Word} {n : Nat} (hs : s.seq = .idle) (hn : 1 ≤ n ∧ n ≤ s.params.maxBlock)
    (h : ReadsBlockFails s a.toNat n e exs cut) (hm : s.meetsCut exs cut rest) :
    ∃ t, exec (.rdblk a n) s = .next t ∧ s.failed t e exs cut rest :=
  exec_rdblk hs hn ▸ runOp_fails hs (.first (rdblk_fails (h.congr (by rfl) (by rfl)))) hm

theorem exec_wrblk_fails {a : Word} {b : List Byte} (hs : s.seq = .idle)
    (hb : 1 ≤ b.length ∧ b.length ≤ s.params.maxBlock) (h : WritesBlockFails s a.toNat b e exs cut)
    (hm : s.meetsCut exs cut rest) : ∃ t, exec (.wrblk a b) s = .next t ∧ s.failed t e exs cut rest :=
  exec_wrblk hs hb ▸ runOp_fails hs (.first (wrblk_fails (h.congr (by rfl) (by rfl)))) hm

theorem exec_hsend_fails {h : HifHeader} {d c : List Byte} (hs : s.seq = .idle)
    (hl : d.length ≤ s.params.maxBlock ∧ c.length ≤ s.params.maxBlock) (hf : SendsFails s h d c e exs cut)
    (hm : s.meetsCut exs cut rest) : ∃ t, exec (.hsend h d c) s = .next t ∧ s.failed t e exs cut rest :=
  exec_hsend hs hl ▸ runOp_fails hs (.first (hsend_fails (hf.congr (by rfl) (by rfl)))) hm

theorem exec_dataMark_fails (hs : s.seq = .idle) (h : Breaks [0xF3] e exs cut) (hm : s.meetsCut exs cut rest) :
    ∃ t, exec .dataMark s = .next t ∧ s.failed t e exs cut rest :=
  runOp_fails hs (.first (.first_seq (.at (.xfer h)))) hm

end

/-- Settles O33: the three operations fail as their rules do. -/
theorem pollTransportErrors : Obligations.PollTransportErrors :=
  fun _ _ _ _ _ hs hm => ⟨fun _ _ h1 hmax h => exec_rdblk_fails hs ⟨h1, hmax⟩ h hm,
    fun _ _ h1 hmax h => exec_wrblk_fails hs ⟨h1, hmax⟩ h hm,
    fun _ _ _ hd hc h => exec_hsend_fails hs ⟨hd, hc⟩ h hm⟩

/-- Settles O26: the one transfer of each breaks, so no exchange stands before the cut. -/
theorem transportErrors : Obligations.TransportErrors := by
  intro s ans rest e fin i tx hs hscript hfails hi
  have hbreaks : Breaks tx (.spi e) [] (some ⟨tx, ans, fin⟩) := ⟨rfl, _, e, rfl, rfl, hfails, rfl⟩
  have hm : s.meetsCut [] (some ⟨tx, ans, fin⟩) rest := hscript
  rcases hi with ⟨a, op, clk, rfl, hop, rfl⟩ | ⟨a, d, op, clk, rfl, hop, rfl⟩ | ⟨rfl, rfl⟩
  · exact exec_rdreg_fails hs ⟨op, clk, hop, .inl hbreaks⟩ hm
  · have hlen : ∃ L, a.toNat ≤ 0x30 ∧ op = .internalWrite ∧ clk = true ∧ L = 7 ∨
        0x30 < a.toNat ∧ op = .singleWrite ∧ clk = false ∧ L = 8 := by
      rcases hop with ⟨ha, hop, hclk⟩ | ⟨ha, hop, hclk⟩
      · exact ⟨7, .inl ⟨ha, hop, hclk, rfl⟩⟩
      · exact ⟨8, .inr ⟨ha, hop, hclk, rfl⟩⟩
    obtain ⟨L, hop⟩ := hlen
    exact exec_wrreg_fails hs ⟨op, clk, L, hop, .inl hbreaks⟩ hm
  · exact exec_dataMark_fails hs hbreaks hm

/-- Settles O28: ten misses are one way the response poll of RDBLK fails. -/
theorem rdblkTimesOut : Obligations.RdblkTimesOut := by
  intro s a n cmd misses rest hs h1 hmax hcmd hlen hmiss hm
  have haddress : BitVec.ofNat 32 a.toNat = a := by simp
  have hpoll : PollFails s s.params.rdRspLen (fun rx => at' rx 0 ≠ s.params.opc.dmaExtRead) .readDataResponse
      (.spi (.timeout .readDataResponse)) misses none :=
    ⟨misses, [], by simp, hmiss, .inr ⟨hlen, rfl, rfl, rfl⟩⟩
  exact exec_rdblk_raises hs h1 hmax (.poll (haddress.symm ▸ hcmd) hpoll) hm

/-- Settles O31: ten misses are one way each of the two polls of WRBLK fails. -/
theorem wrblkTimesOut : Obligations.WrblkTimesOut := by
  intro s a b cmd hit mark payload misses waits rest hs h1 hmax hcmd
  have haddress : BitVec.ofNat 32 a.toNat = a := by simp
  rw [← haddress] at hcmd
  refine ⟨fun hlen hmiss hm => ?_, fun hecho hstatus hmark hpayload hlen hmiss hm => ?_⟩
  · have hpoll : PollFails s s.params.wrRspLen (fun rx => at' rx 0 ≠ s.params.opc.dmaExtWrite) .writeDataResponse
        (.spi (.timeout .writeDataResponse)) misses none :=
      ⟨misses, [], by simp, hmiss, .inr ⟨hlen, rfl, rfl, rfl⟩⟩
    exact exec_wrblk_raises hs h1 hmax (.poll hcmd hpoll) hm
  · have hpoll : PollFails s 1 (fun rx => at' rx 0 ≠ 0xC3) .writeDataComplete
        (.spi (.timeout .writeDataComplete)) waits none :=
      ⟨waits, [], by simp, hmiss, .inr ⟨hlen, rfl, rfl, rfl⟩⟩
    exact exec_wrblk_raises hs h1 hmax (.completion hcmd hecho hstatus hmark hpayload hpoll) hm

end Sys2Proof.Machine

/-! The HIF engine along transcripts (44_hif_engine.md): HSEND's eight steps, HISR from its claim to the release, HRECV,
HFIN and the packets end in their value along a good transcript, and in the error of the nested access along a failing
one. -/

namespace Sys2Proof.Machine

open Sys2Proof

/-! ## Ends behind writes to `ctx` and `ds` -/

theorem RunsTo.thenValue {α β : Type} {m : Op α} {s : State} {a : α} {c : Ctx} {d : DriverState} {exs : List Exchange}
    (h : RunsTo m s a c d exs) (g : α → β) : RunsTo (m.bind fun a => Op.ret (g a)) s (g a) c d exs := by
  intro rest hm
  obtain ⟨w, hw⟩ := h rest hm
  exact ⟨w, by rw [Op.bind_of_ok hw, Op.ret_apply]⟩

/-- An operation whose rule runs along a transcript ends along it, with `ctx` and `ds` as its rule left them. -/
theorem runOp_runsTo {op : HostOp} {latch : Work → Work} {m : Op Value} {s : State} {v : Value} {c : Ctx}
    {d : DriverState} {exs : List Exchange} {rest : List PeerAnswer} (hs : s.seq = .idle)
    (h : RunsTo m (accept op latch s) v c d exs) (hm : s.meets exs rest) :
    runOp op latch m s = .next ((s.put c d).ended (.ok v) exs rest) := by
  obtain ⟨w, hw⟩ := h rest (accept_meets.mpr hm)
  rw [runOp_idle hs, hw]
  exact congrArg Host.Outcome.next (complete_linked (s.put c d) op latch v exs rest w)

/-! ## HSEND -/

theorem wrreg_at_runs {k : Nat} {s t : State} {a d : Word} {exs : List Exchange} (hp : t.params = s.params)
    (hc : t.crcDisabled = s.crcDisabled) (h : WritesReg s a d exs) : Runs (Op.at k (wrreg a d)) t () exs :=
  Runs.at (wrreg_runs ((WritesReg_congr hp hc).mpr h))

theorem wrblkIfAny_at_runs {k : Nat} {s t : State} {a : Nat} {b : List Byte} {exs : List Exchange}
    (hp : t.params = s.params) (hc : t.crcDisabled = s.crcDisabled) (h : WritesBlockIfAny s a b exs) :
    Runs (Op.at k (wrblkIfAny a b)) t () exs :=
  Runs.at (wrblkIfAny_runs ((WritesBlockIfAny_congr hp hc).mpr h))

/-- The chain HSEND is at a state (R190). -/
theorem hsend_eq (h : HifHeader) (d c : List Byte) (s : State) : hsend h d c s =
    ((Op.at 1 (wrreg s.params.regHifHdr (hdrPack h))).seq
      ((Op.at 2 (wrreg s.params.regTxCtrl (bitMask s.params.txFlagBit))).seq
        ((Op.at 3 (pollBusy Config.sendRetry)).seq
          ((Op.at 4 (rdreg s.params.regTxAddr)).bind fun a =>
            (Op.at 5 (wrblk a.toNat (hdrToBytes h))).seq
              ((Op.at 6 (wrblkIfAny (a.toNat + 8) d)).seq
                ((Op.at 7 (wrblkIfAny (a.toNat + 8 + d.length) c)).seq
                  (Op.at 8 (wrreg s.params.regTxCommit (commitWord s.params a))))))))) s := rfl

/-- HSEND's steps 1 to 4 along a good transcript, and what runs behind them (R190 to R192). -/
theorem allocates_runs {s : State} {h : HifHeader} {a : Word} {f : Word → Op Unit} {e1 e2 : List Exchange}
    (halloc : Allocates s h a e1) (hf : ∀ r w, Runs (f a) (s.linked e1 r w) () e2) :
    Runs ((Op.at 1 (wrreg s.params.regHifHdr (hdrPack h))).seq
      ((Op.at 2 (wrreg s.params.regTxCtrl (bitMask s.params.txFlagBit))).seq
        ((Op.at 3 (pollBusy Config.sendRetry)).seq ((Op.at 4 (rdreg s.params.regTxAddr)).bind f)))) s () (e1 ++ e2) := by
  obtain ⟨x1, x2, x3, x4, rfl, h1, h2, h3, h4⟩ := halloc
  simp only [List.append_assoc]
  refine Runs.seq (wrreg_at_runs rfl rfl h1) fun _ _ => Runs.seq (wrreg_at_runs rfl rfl h2) fun _ _ => ?_
  refine Runs.seq (Runs.at (pollsBusy_runs ((PollsBusy_congr rfl rfl).mpr h3))) fun _ _ => ?_
  refine Runs.bind (rdreg_at_runs ((ReadsReg_congr rfl rfl).mpr h4)) fun r w => ?_
  simpa only [linked_linked, List.append_assoc] using hf r w

/-- HSEND along a good transcript (R190). -/
theorem hsend_runs {s : State} {h : HifHeader} {d c : List Byte} {exs : List Exchange} (hsends : Sends s h d c exs) :
    Runs (hsend h d c) s () exs := by
  obtain ⟨a, e1, e2, e3, e4, e5, e6, e7, e8, rfl, h1, h2, h3, h4, h5, h6, h7, h8⟩ := hsends
  have hsplit : e1 ++ e2 ++ e3 ++ e4 ++ e5 ++ e6 ++ e7 ++ e8 = (e1 ++ e2 ++ e3 ++ e4) ++ (e5 ++ (e6 ++ (e7 ++ e8))) := by
    simp only [List.append_assoc]
  rw [hsplit]
  refine Runs.of_eq (hsend_eq h d c s) (allocates_runs ⟨e1, e2, e3, e4, rfl, h1, h2, h3, h4⟩ fun r w => ?_)
  refine Runs.seq (Runs.at (wrblk_runs ((WritesBlock_congr rfl rfl).mpr h5))) fun _ _ => ?_
  refine Runs.seq (wrblkIfAny_at_runs rfl rfl h6) fun _ _ => Runs.seq (wrblkIfAny_at_runs rfl rfl h7) fun _ _ => ?_
  exact wrreg_at_runs rfl rfl h8

theorem Sends_congr {s s' : State} (hp : s'.params = s.params) (hc : s'.crcDisabled = s.crcDisabled) {h : HifHeader}
    {d c : List Byte} {exs : List Exchange} : Sends s' h d c exs ↔ Sends s h d c exs := by
  simp [Sends, hp, WritesReg_congr hp hc, PollsBusy_congr hp hc, ReadsReg_congr hp hc, WritesBlock_congr hp hc,
    WritesBlockIfAny_congr hp hc]

/-- Settles O36: the eight steps one behind the other. -/
theorem hsendSends : Obligations.HsendSends := by
  intro s h d c exs rest hs hd hc hsends hm
  rw [exec_hsend hs ⟨hd, hc⟩]
  exact runOp_runs hs (hsend_runs ((Sends_congr (by rfl) (by rfl)).mpr hsends)).unit hm

/-- Settles O37: a hundred busy reads are one way the busy poll fails, with every transfer whole. -/
theorem hsendBusyTimesOut : Obligations.HsendBusyTimesOut := by
  intro s h d c e1 e2 busy rest hs hd hc h1 h2 hlen hbusy hm
  have hpoll : BusyFails s (.spi (.timeout .sendBusy)) busy.flatten none :=
    ⟨busy, [], by simp, hbusy, .inr ⟨hlen, rfl, rfl, rfl⟩⟩
  rw [List.append_assoc] at hm ⊢
  obtain ⟨t, hrun, hfailed⟩ := exec_hsend_fails hs ⟨hd, hc⟩ (.busy h1 h2 hpoll) (meetsCut_none_iff.mpr hm)
  rw [hrun, failed_none_iff.mp hfailed]

/-! ## HFIN and HRECV -/

/-- Settles O46. -/
theorem hfinFinishes : Obligations.HfinFinishes :=
  fun _ _ _ hs h hm => runOp_runsTo hs ((hfin_runsTo ((Finishes_congr (by rfl) (by rfl)).mpr h)).thenRet Value.unit) hm

/-- A request of HRECV is admitted with a count within the bounds of R165. -/
theorem inBounds_hrecv {s : State} {a : Word} {n : Nat} (h1 : 1 ≤ n) (hmax : n ≤ s.params.maxBlock) :
    inBounds s (.hrecv a n) := fun _ _ _ => ⟨h1, hmax⟩

/-- Settles O45: inside the window both checks pass, and HRECV is its block read and what R208 asks behind it. -/
theorem hrecvReads : Obligations.HrecvReads := by
  intro s a n d e1 e2 rest hs h1 hmax hsize hlow hhigh hread hfin hm
  rw [exec_hrecv hs (inBounds_hrecv h1 hmax)]
  refine runOp_runsTo hs (RunsTo.thenValue (a := d) ?_ Value.bytes) hm
  exact hrecv_runsTo (s := accept _ _ s) hsize hlow hhigh ((ReadsBlock_congr rfl rfl).mpr hread)
    ((FinishesIf_congr rfl rfl).mpr hfin)

/-! ## HISR -/

/-- HISR behind its claim: what steps 4 to 7 run along, HISR runs along. -/
theorem hisr_claimed_runsTo {s : State} {reg : Word} {v : Value} {c : Ctx} {d : DriverState} {e1 e2 : List Exchange}
    (hclaims : Claims s reg e1)
    (h : ∀ r w, RunsTo (announced s.params reg) ((setReadDone false s).linked e1 r w) v c d e2) :
    RunsTo hisr s v c d (e1 ++ e2) := by
  obtain ⟨x1, x2, rfl, hread, hbit, hwrite⟩ := hclaims
  refine RunsTo.of_eq (hisr_eq s) ?_
  rw [List.append_assoc]
  refine RunsTo.bind (Runs.to (rdreg_at_runs hread)) fun r1 w1 => ?_
  rw [if_neg (by simp [bitOf, hbit]), hisrClaimed_eq]
  refine RunsTo.seq (Runs.to (wrreg_at_runs rfl rfl hwrite)) fun r2 w2 => ?_
  refine RunsTo.seq (e1 := []) (RunsTo.at (RunsTo.assign rfl)) fun r w => ?_
  have hlinked := h r w
  rw [← List.append_nil (x1 ++ x2), ← linked_linked (r1 := r2) (w1 := w2), ← linked_linked (r1 := r1) (w1 := w1)]
    at hlinked
  exact hlinked

theorem sizeField_eq_zero {reg : Word} (h : reg.toNat / 4 % 4096 = 0) : sizeField reg = 0 :=
  BitVec.eq_of_toNat_eq ((sizeField_toNat reg).trans h)

/-- HISR with a packet of size 0 (R197). -/
theorem hisr_empty_runsTo {s : State} {reg : Word} {e1 e2 : List Exchange} (hclaims : Claims s reg e1)
    (hz : reg.toNat / 4 % 4096 = 0) (hfin : Finishes s e2) :
    RunsTo hisr s (.command none) s.ctx.closed s.ds (e1 ++ e2) := by
  refine hisr_claimed_runsTo hclaims fun r w => ?_
  rw [announced_of_empty _ (sizeField_eq_zero hz)]
  exact (RunsTo.at (finishIfOpen_runsTo (.inl ⟨by rfl, (Finishes_congr (by rfl) (by rfl)).mpr hfin⟩))).thenRet _

/-- Step 5 of HISR along a good transcript (R198, R199). -/
theorem fetchHeader_runsTo {s : State} {size addr : Word} {hb : List Byte} {e1 e2 : List Exchange}
    (haddr : ReadsReg s s.params.regRcvCtrl1 addr e1) (hhead : ReadsBlock s addr.toNat 4 hb e2) :
    RunsTo (fetchHeader size) s (hdrFromBytes hb) ⟨addr, size, s.ctx.readDone⟩ s.ds (e1 ++ e2) := by
  refine RunsTo.of_eq (fetchHeader_eq size s) ?_
  refine RunsTo.bind (Runs.to (rdreg_runs haddr)) fun _ _ => ?_
  refine RunsTo.seq (e1 := []) (RunsTo.assign rfl) fun _ _ => ?_
  exact (Runs.to (rdblk_runs ((ReadsBlock_congr (by rfl) (by rfl)).mpr hhead))).thenValue _

theorem sinkAfter_congr {s s' : State} (hp : s'.params = s.params) (hd : s'.ds = s.ds) (cmd : Option Command)
    (b : List Byte) : sinkAfter s' cmd b = sinkAfter s cmd b := by
  unfold sinkAfter
  split <;> simp [hp, hd]

theorem Services_congr {s s' : State} (hp : s'.params = s.params) (hc : s'.crcDisabled = s.crcDisabled)
    (hx : s'.ctx = s.ctx) {cmd : Option Command} {b : List Byte} {exs : List Exchange} :
    Services s' cmd b exs ↔ Services s cmd b exs := by
  unfold Services
  split <;> simp [hx, ReadsBlock_congr hp hc, FinishesIf_congr hp hc]

/-- HISR with a packet announced at `addr` with `size` bytes (R193 to R203). -/
theorem hisr_packet_runsTo {s : State} {size addr : Word} {hb b : List Byte} {e1 e2 : List Exchange}
    (hann : Announces s size addr hb e1)
    (hserve : Services { s with ctx := ⟨addr, size, false⟩ } (headerCommand s hb) b e2) :
    RunsTo hisr s (.command (headerCommand s hb)) ⟨addr, size, true⟩ (sinkAfter s (headerCommand s hb) b)
      (e1 ++ e2) := by
  obtain ⟨reg, x1, x2, x3, x4, rfl, hbit, hsize, hz, hread, hwrite, haddr, hhead⟩ := hann
  obtain rfl : sizeField reg = size := BitVec.eq_of_toNat_eq (by rw [sizeField_toNat, hsize])
  have hsplit : x1 ++ x2 ++ x3 ++ x4 ++ e2 = (x1 ++ x2) ++ ((x3 ++ x4) ++ e2) := by simp
  rw [hsplit]
  refine hisr_claimed_runsTo ⟨x1, x2, rfl, hread, hbit, hwrite⟩ fun r w => ?_
  rw [announced_of_size _ hz]
  refine RunsTo.bind (RunsTo.at (fetchHeader_runsTo ((ReadsReg_congr rfl rfl).mpr haddr)
    ((ReadsBlock_congr rfl rfl).mpr hhead))) fun r' w' => ?_
  rw [← sinkAfter_congr (s := s) (s' := State.linked _ (x3 ++ x4) r' w') rfl rfl]
  exact servicePacket_runsTo ((Services_congr rfl rfl rfl).mpr hserve)

/-- Settles O38: the first read decides that HISR returns at once. -/
theorem hisrNothingPending : Obligations.HisrNothingPending := by
  intro s m reg e rest hs hread hbit hm
  rw [exec_hisr]
  refine runOp_runs hs (fun rest' hm' => ?_) hm
  obtain ⟨w, hrun⟩ := hisr_of_read (s := accept .hisr id { s with ds := { s.ds with mode := m } })
    ((ReadsReg_congr rfl rfl).mpr hread) hm'
  exact ⟨w, by rw [hrun, if_pos (by exact hbit), Op.ret_apply]⟩

/-- Settles O39. -/
theorem hisrEmptyPacket : Obligations.HisrEmptyPacket := by
  intro s m reg e1 e2 e3 rest hs hread hbit hz hwrite hfin hm
  rw [exec_hisr]
  exact runOp_runsTo hs (hisr_empty_runsTo ((Claims_congr (s := s) rfl rfl).mpr ⟨e1, e2, rfl, hread, hbit, hwrite⟩) hz
    ((Finishes_congr rfl rfl).mpr hfin)) hm

/-- Settles O40. -/
theorem hisrServicesPacket : Obligations.HisrServicesPacket := by
  intro s m size addr hb b cmd e1 e2 rest hs hann hcmd hserve hm
  subst hcmd
  rw [exec_hisr]
  exact runOp_runsTo hs (hisr_packet_runsTo ((Announces_congr (s := s) rfl rfl).mpr hann)
    ((Services_congr (s := { s with ds := { s.ds with mode := m }, ctx := ⟨addr, size, false⟩ }) rfl rfl rfl).mpr
      hserve)) hm

/-! ## The packets as requests -/

/-- A packet on the window `ctx` holds ends along its transcript (log 7). -/
theorem exec_packet_ends {p : Params} {i : Instr} {cmd : Option Command} {s : State} {b : List Byte}
    {exs : List Exchange} {rest : List PeerAnswer} (hp : s.params = p) (hi : packetCommand p i = some cmd)
    (hs : s.seq = .idle) (hserve : Services s cmd b exs) (hm : s.meets exs rest) :
    exec i s = .next ((s.put s.ctx.closed (sinkAfter s cmd b)).ended (.ok (.command cmd)) exs rest) := by
  rw [exec_packet hp hi, ← sinkAfter_congr (s := s) (s' := accept .hisr id s) rfl rfl]
  exact runOp_runsTo hs (servicePacket_runsTo ((Services_congr rfl rfl rfl).mpr hserve)) hm

/-- Settles O47. -/
theorem handledPackets : Obligations.HandledPackets := by
  intro s l i v b exs rest hs hi hserve hm
  have hcmd : packetCommand s.params i = some (some (.wifi v)) := by
    rcases hi with ⟨rfl, rfl⟩ | ⟨rfl, rfl⟩ | ⟨rfl, rfl⟩ | ⟨rfl, rfl⟩ <;> rfl
  exact exec_packet_ends rfl hcmd hs hserve hm

/-! ## Routing -/

theorem routeHeader_of_wifi {p : Params} {h : HifHeader} (hg : h.groupId = p.gidWifi) :
    routeHeader p h = some (.wifi (wifiTable p h.opcode)) := if_pos hg

theorem routeHeader_of_ip {p : Params} {h : HifHeader} (hne : p.gidWifi ≠ p.gidIp) (hg : h.groupId = p.gidIp) :
    routeHeader p h = some (.ip (socketTable p h.opcode)) := by
  unfold routeHeader
  rw [if_neg (hg ▸ hne.symm), if_pos hg]

theorem routeHeader_of_unknown {p : Params} {h : HifHeader} (hw : h.groupId ≠ p.gidWifi) (hi : h.groupId ≠ p.gidIp) :
    routeHeader p h = none := by
  unfold routeHeader
  rw [if_neg hw, if_neg hi]

/-- A table whose bytes are distinct gives the name of each of its rows (R104, R105). -/
theorem lookupName_of_mem {t : List (Byte × Nat)} {o : Byte} {n : Nat} (hkeys : (t.map Prod.fst).Nodup)
    (h : (o, n) ∈ t) : lookupName t o = some n := by
  induction t with
  | nil => cases h
  | cons row rest ih =>
    obtain ⟨hrow, hrest⟩ := List.nodup_cons.mp hkeys
    rcases List.mem_cons.mp h with rfl | hmem
    · exact if_pos rfl
    · have hne : o ≠ row.1 := fun heq => hrow (heq ▸ List.mem_map_of_mem hmem)
      exact (if_neg hne).trans (ih hrest hmem)

theorem lookupName_of_not_mem {t : List (Byte × Nat)} {o : Byte} (h : o ∉ t.map Prod.fst) : lookupName t o = none := by
  induction t with
  | nil => rfl
  | cons row rest ih =>
    simp only [List.map_cons, List.mem_cons, not_or] at h
    obtain ⟨hrow, hrest⟩ := h
    exact (if_neg hrow).trans (ih hrest)

/-- Behind the four handled bytes the WIFI table is its other rows (R104). -/
theorem wifiTable_of_unhandled {p : Params} {o : Byte} (h : o ∉ p.handledOpcodes) :
    wifiTable p o = (lookupName p.wifiOther o).elim .invalid .named := by
  simp only [Params.handledOpcodes, List.mem_cons, List.not_mem_nil, or_false, not_or] at h
  obtain ⟨hcon, hsys, hinfo, hscan⟩ := h
  unfold wifiTable
  rw [if_neg hcon, if_neg hsys, if_neg hinfo, if_neg hscan]
  cases lookupName p.wifiOther o <;> rfl

/-- The four handled bytes of the WIFI table, none of which hides another (R104). -/
theorem wifiTable_handled {p : Params} (h : p.handledOpcodes.Nodup) :
    wifiTable p p.wifiConState = .respConStateChanged ∧ wifiTable p p.wifiSysTime = .respGetSysTime ∧
      wifiTable p p.wifiConnInfo = .respConnInfo ∧ wifiTable p p.wifiScanResult = .respScanResult := by
  simp only [Params.handledOpcodes, List.nodup_cons, List.mem_cons, List.not_mem_nil, or_false, not_or] at h
  obtain ⟨⟨hcs, hci, hcr⟩, ⟨hsi, hsr⟩, hir, -⟩ := h
  refine ⟨if_pos rfl, ?_, ?_, ?_⟩ <;> unfold wifiTable
  · rw [if_neg (Ne.symm hcs), if_pos rfl]
  · rw [if_neg (Ne.symm hci), if_neg (Ne.symm hsi), if_pos rfl]
  · rw [if_neg (Ne.symm hcr), if_neg (Ne.symm hsr), if_neg (Ne.symm hir), if_pos rfl]

/-- Settles O43: the group selects the table, the opcode its row; distinct bytes give each row its own name. -/
theorem routingTables : Obligations.RoutingTables := by
  intro p h hp
  refine ⟨routeHeader_of_unknown, fun hg => ?_, fun hg => ?_⟩
  · rw [routeHeader_of_ip hp.gidsDistinct hg]
    unfold socketTable
    exact ⟨fun n hn => by rw [lookupName_of_mem hp.socketKeys hn], fun hn => by rw [lookupName_of_not_mem hn]⟩
  · rw [routeHeader_of_wifi hg]
    obtain ⟨hcon, hsys, hinfo, hscan⟩ := wifiTable_handled hp.handledDistinct
    refine ⟨fun ho => by rw [ho, hcon], fun ho => by rw [ho, hsys], fun ho => by rw [ho, hinfo],
      fun ho => by rw [ho, hscan], fun n hn => ?_, fun hu hn => ?_⟩
    · rw [wifiTable_of_unhandled (hp.otherUnhandled _ hn), lookupName_of_mem hp.otherKeys hn]
      rfl
    · rw [wifiTable_of_unhandled hu, lookupName_of_not_mem hn]
      rfl

/-! ## Packets without a handler, and the connection status -/

theorem payloadSize_wifiTable {p : Params} {o : Byte} (h : o ∉ p.handledOpcodes) :
    payloadSize (some (.wifi (wifiTable p o))) = none := by
  rw [wifiTable_of_unhandled h]
  cases lookupName p.wifiOther o <;> rfl

theorem sinkAfter_of_unhandled {cmd : Option Command} (h : payloadSize cmd = none) (s : State) (b : List Byte) :
    sinkAfter s cmd b = s.ds := by
  rcases dispatch_cases cmd with ⟨-, -, hsink⟩ | ⟨k, f, hk, -⟩
  · exact hsink s b
  · rw [h] at hk
    cases hk

/-- Settles O48: a packet of these three kinds routes to a command without a payload. -/
theorem unhandledPackets : Obligations.UnhandledPackets := by
  intro s g o l i cmd exs rest hs hwf hi hfin hm
  have hcmd : packetCommand s.params i = some cmd ∧ payloadSize cmd = none := by
    rcases hi with ⟨rfl, rfl⟩ | ⟨rfl, hne, rfl⟩ | ⟨rfl, rfl⟩
    · rw [routeHeader_of_wifi rfl]
      exact ⟨rfl, payloadSize_wifiTable (by simpa [Instr.wf] using hwf)⟩
    · rw [routeHeader_of_ip hne rfl]
      exact ⟨rfl, rfl⟩
    · have hgroup : g ≠ s.params.gidWifi ∧ g ≠ s.params.gidIp := by simpa [Instr.wf] using hwf
      rw [routeHeader_of_unknown hgroup.1 hgroup.2]
      exact ⟨rfl, rfl⟩
  obtain ⟨hpacket, hsize⟩ := hcmd
  have hserve : Services s cmd [] exs := by
    unfold Services
    rw [hsize]
    exact ⟨rfl, hfin⟩
  rw [exec_packet_ends rfl hpacket hs hserve hm, sinkAfter_of_unhandled hsize]
  rfl

/-- The payload of a connection-state packet has a first byte (R215). -/
theorem conState_payload {s : State} {b : List Byte} {exs : List Exchange}
    (h : Services s (some (.wifi .respConStateChanged)) b exs) : b[0]? = some (at' b 0) := by
  obtain ⟨-, e1, e2, -, hread, -⟩ := h
  have hlen : b.length = 4 := hread.length
  match b, hlen with
  | _ :: _, _ => rfl

section
variable {s : State} {b : List Byte}

/-- The first row of R216. -/
theorem connStatus_of_connected (h : at' b 0 = s.params.csConnected) :
    (sinkAfter s (some (.wifi .respConStateChanged)) b).connStatus =
      some (match s.ds.mode with | .station => .connected | .ap => .apConnected) :=
  congrArg DriverState.connStatus (if_pos h)

/-- The second row of R216. -/
theorem connStatus_of_disconnected (hne : s.params.csConnected ≠ s.params.csDisconnected)
    (h : at' b 0 = s.params.csDisconnected) :
    (sinkAfter s (some (.wifi .respConStateChanged)) b).connStatus =
      some (match s.ds.mode with | .station => .disconnected | .ap => .apListening) :=
  congrArg DriverState.connStatus ((if_neg (h ▸ hne.symm)).trans (if_pos h))

/-- Any other byte changes nothing (R216). -/
theorem connStatus_of_undefined (hc : at' b 0 ≠ s.params.csConnected) (hd : at' b 0 ≠ s.params.csDisconnected) :
    (sinkAfter s (some (.wifi .respConStateChanged)) b).connStatus = s.ds.connStatus :=
  congrArg DriverState.connStatus ((if_neg hc).trans (if_neg hd))

end

/-- Settles O49: the packet's sink register is the table of R216, read at the first payload byte. -/
theorem connectionStatus : Obligations.ConnectionStatus := by
  intro s l b exs rest hs hne hserve hm
  refine ⟨_, exec_packet_ends rfl rfl hs hserve hm, ?_⟩
  rw [conState_payload hserve]
  simp only [Option.some.injEq, ne_eq]
  refine ⟨fun hb hmode => ?_, fun hb hmode => ?_, fun hb hmode => ?_, fun hb hmode => ?_, connStatus_of_undefined⟩
  · exact (connStatus_of_connected hb).trans (by rw [hmode])
  · exact (connStatus_of_connected hb).trans (by rw [hmode])
  · exact (connStatus_of_disconnected hne hb).trans (by rw [hmode])
  · exact (connStatus_of_disconnected hne hb).trans (by rw [hmode])

/-! ## Failing transcripts -/

/-- HISR along a failing transcript, from the state with its operand in `ds.mode` (R262). -/
theorem exec_hisr_fails {s : State} {m : Mode} {c : Ctx} {d : DriverState} {e : DriverError} {exs : List Exchange}
    {cut : Option Cut} {rest : List PeerAnswer} (hs : s.seq = .idle)
    (h : HisrFails { s with ds := { s.ds with mode := m } } c d e exs cut) (hm : s.meetsCut exs cut rest) :
    ∃ t, exec (.hisr m) s = .next t ∧ (s.put c d).failed t e exs cut rest := by
  rw [exec_hisr]
  exact runOp_failsTo hs (hisr_fails (h.congr (by rfl) (by rfl) (by rfl) (by rfl))) hm

/-- Settles O41: the handler's checks fail behind the header read, with every transfer whole. -/
theorem hisrShortPacket : Obligations.HisrShortPacket := by
  intro s m size addr hb cmd k e rest hs hann hcmd hk hshort hm
  subst hcmd
  have hfails := HisrFails.service
    ((Announces_congr (s := s) (s' := { s with ds := { s.ds with mode := m } }) rfl rfl).mpr hann) (.short hk hshort)
  rw [List.append_nil] at hfails
  obtain ⟨t, hrun, hfailed⟩ := exec_hisr_fails hs hfails (meetsCut_none_iff.mpr hm)
  rw [hrun, failed_none_iff.mp hfailed]
  rfl

/-- Settles O60: each request fails as its rule does. -/
theorem nestedErrorsPropagate : Obligations.NestedErrorsPropagate := by
  intro s e exs cut rest hs hm
  refine ⟨fun h => ?_, fun a n h1 hmax hsize hlow hhigh => ⟨fun h => ?_, fun d e1 e2 hend hsplit hread h => ?_⟩,
    fun i cmd ctx ds hi h => ?_, fun m ctx ds h => exec_hisr_fails hs h hm⟩
  · exact runOp_failsTo hs (.first (hfin_failsTo ((FinishesFails_congr (by rfl) (by rfl)).mpr h))) hm
  · rw [exec_hrecv hs (inBounds_hrecv h1 hmax)]
    exact runOp_fails hs (.first (hrecv_read_fails hsize hlow hhigh (h.congr (by rfl) (by rfl)))) hm
  · subst hsplit
    rw [exec_hrecv hs (inBounds_hrecv h1 hmax)]
    refine runOp_failsTo hs (.first (hrecv_release_fails (s := accept _ _ s) hsize hlow hend
      ((ReadsBlock_congr rfl rfl).mpr hread) ((FinishesFails_congr rfl rfl).mpr h))) hm
  · rw [exec_packet rfl hi]
    exact runOp_failsTo hs (servicePacket_fails (h.congr (by rfl) (by rfl) (by rfl) (by rfl))) hm

end Sys2Proof.Machine

/-! The encoding (30_encoding.md): the encoder and the decoder are inverse to each other, channel by channel. -/

namespace Sys2Proof.Machine

open Sys2Proof

/-! ## The opcode of a command -/

/-- The eleven opcodes in table order. -/
def wireOps : List WireOp :=
  [.dmaWrite, .dmaRead, .internalWrite, .internalRead, .terminate, .repeatLast, .dmaExtWrite, .dmaExtRead,
    .singleWrite, .singleRead, .reset]

theorem mem_wireOps (op : WireOp) : op ∈ wireOps := by cases op <;> decide

theorem toList_eq_map_byteOf (o : Opcodes) : o.toList = wireOps.map o.byteOf := rfl

theorem find?_byteOf_cons (o : Opcodes) (b : Byte) (op : WireOp) (ops : List WireOp) :
    (op :: ops).find? (fun op => decide (b = o.byteOf op)) =
      if b = o.byteOf op then some op else ops.find? fun op => decide (b = o.byteOf op) := by
  by_cases h : b = o.byteOf op <;> simp [h]

/-- The opcode a byte stands for is the first one of the table with this byte (R86). -/
theorem opOf_eq_find? (o : Opcodes) (b : Byte) : o.opOf b = wireOps.find? fun op => decide (b = o.byteOf op) := by
  simp only [wireOps, find?_byteOf_cons, List.find?_nil]
  rfl

theorem byteOf_of_opOf {o : Opcodes} {b : Byte} {op : WireOp} (h : o.opOf b = some op) : b = o.byteOf op := by
  rw [opOf_eq_find?] at h
  simpa using List.find?_some h

/-- A byte that is none of the eleven stands for no opcode (R86). -/
theorem opOf_of_not_mem {o : Opcodes} {b : Byte} (h : b ∉ o.toList) : o.opOf b = none := by
  rw [opOf_eq_find?, List.find?_eq_none]
  intro op hop
  rw [decide_eq_true_eq]
  rintro rfl
  exact h (toList_eq_map_byteOf o ▸ List.mem_map_of_mem hop)

/-- With distinct opcode bytes each byte of the table stands for its own opcode (R9, R86). -/
theorem opOf_byteOf {o : Opcodes} (h : o.toList.Nodup) (op : WireOp) : o.opOf (o.byteOf op) = some op := by
  cases hfind : o.opOf (o.byteOf op) with
  | none =>
    rw [opOf_eq_find?, List.find?_eq_none] at hfind
    exact absurd (decide_eq_true rfl) (hfind op (mem_wireOps op))
  | some op' =>
    have hbyte : o.byteOf op = o.byteOf op' := byteOf_of_opOf hfind
    rw [List.inj_on_of_nodup_map (toList_eq_map_byteOf o ▸ h) (mem_wireOps op) (mem_wireOps op') hbyte]

/-! ## Fields behind their bytes -/

section
variable {w : Nat}

/-- The last byte of a value put together from bytes. -/
@[simp] theorem byteAt_append_zero (v : BitVec w) (b : Byte) : byteAt (v ++ b) 0 = b := by
  apply BitVec.eq_of_getLsbD_eq
  intro i hi
  simp only [getLsbD_byteAt, BitVec.getLsbD_append]
  simp [hi]

/-- The bytes before it. -/
@[simp] theorem byteAt_append_succ (v : BitVec w) (b : Byte) (k : Nat) : byteAt (v ++ b) (k + 1) = byteAt v k := by
  apply BitVec.eq_of_getLsbD_eq
  intro i hi
  have hindex : ¬ 8 * (k + 1) + i < 8 ∧ 8 * (k + 1) + i - 8 = 8 * k + i := by omega
  simp only [getLsbD_byteAt, BitVec.getLsbD_append]
  simp [hindex]

@[simp] theorem byteAt_byte (b : Byte) : byteAt b 0 = b := by simp [byteAt]

end

theorem bytes16_be16 (b1 b0 : Byte) : bytes16 (be16 b1 b0) = [b1, b0] := by simp [bytes16, be16]

theorem bytes24_be24 (b2 b1 b0 : Byte) : bytes24 (be24 b2 b1 b0) = [b2, b1, b0] := by simp [bytes24, be24]

theorem bytes32_be32 (b3 b2 b1 b0 : Byte) : bytes32 (be32 b3 b2 b1 b0) = [b3, b2, b1, b0] := by simp [bytes32, be32]

/-- The 16-bit address field is the clockless bit and the 15 address bits (R87). -/
theorem ofBool_append_setWidth (v : BitVec 16) : BitVec.ofBool (v.getLsbD 15) ++ v.setWidth 15 = v := by
  apply BitVec.eq_of_getLsbD_eq
  intro i hi
  simp only [BitVec.getLsbD_append, BitVec.getLsbD_setWidth]
  by_cases hlow : i < 15
  · simp [hlow]
  · obtain rfl : i = 15 := by omega
    simp

theorem getLsbD_ofBool_append (c : Bool) (a : BitVec 15) : (BitVec.ofBool c ++ a).getLsbD 15 = c := by
  simp only [BitVec.getLsbD_append]
  simp

theorem setWidth_ofBool_append (c : Bool) (a : BitVec 15) : (BitVec.ofBool c ++ a).setWidth 15 = a := by
  apply BitVec.eq_of_getLsbD_eq
  intro i hi
  simp only [BitVec.getLsbD_setWidth, BitVec.getLsbD_append]
  simp [hi]

theorem getLsbD_be16_top (b1 b0 : Byte) : (be16 b1 b0).getLsbD 15 = b1.getLsbD 7 := by
  simp only [be16, BitVec.getLsbD_append]
  simp

theorem internalAddress_be16 (b1 b0 : Byte) :
    internalAddress (b1.getLsbD 7) ((be16 b1 b0).setWidth 15) = [b1, b0] := by
  rw [internalAddress, ← getLsbD_be16_top b1 b0, ofBool_append_setWidth, bytes16_be16]

/-- Bytes 1 and 2 of the 16-bit forms are read back. -/
theorem be16_internalAddress (c : Bool) (a : BitVec 15) :
    ∃ b1 b0, internalAddress c a = [b1, b0] ∧ b1.getLsbD 7 = c ∧ (be16 b1 b0).setWidth 15 = a := by
  refine ⟨_, _, rfl, ?_, ?_⟩
  · rw [← getLsbD_be16_top _ (byteAt (BitVec.ofBool c ++ a) 0), be16_bytes, getLsbD_ofBool_append]
  · rw [be16_bytes, setWidth_ofBool_append]

/-! ## Operands at the end of a request -/

@[simp] theorem readWord_end (v : Word) : readWord (bytes32 v) = .ok (v, []) := by
  simpa using readWord_bytes32 v []

@[simp] theorem readNat_end {n : Nat} (h : n < 2 ^ 32) : readNat (lengthBytes n) = .ok (n, []) := by
  simpa using readNat_lengthBytes h []

@[simp] theorem readBytes_end {b : List Byte} (h : b.length < 2 ^ 32) : readBytes (seqBytes b) = .ok (b, []) := by
  simpa using readBytes_seqBytes h []

@[simp] theorem readHeader_end (h : HifHeader) : readHeader (headerOperand h) = .ok (h, []) := by
  simpa using readHeader_headerOperand h []

@[simp] theorem readByte_cons (b : Byte) (r : List Byte) : readByte (b :: r) = .ok (b, r) := rfl

/-! ## Decoding what was encoded -/

theorem fitsLength_iff {n : Nat} : fitsLength n = true ↔ n < 2 ^ 32 := by simp [fitsLength]

/-- A command is read by the form of its opcode (R80, R86). -/
theorem decodeWire_byteOf {p : Params} (h : p.opc.toList.Nodup) (op : WireOp) (t : List Byte) :
    decodeWire p (p.opc.byteOf op :: t) = decodeWireFields op t := by
  simp only [decodeWire, opOf_byteOf h]

theorem decode_of_prefix {p : Params} {r : Request} {i : Instr} (h : decodePrefix p r.chan r.bytes = .ok (i, [])) :
    decode p r = .ok i := by simp only [decode, h]

/-- The wire commands: the fields are read from the bytes behind the opcode. -/
theorem decodeWire_encode {p : Params} (hp : p.opc.toList.Nodup) {i : Instr} (h : (encode p i).chan = .wire) :
    decodeWire p (encode p i).bytes = .ok (i, []) := by
  cases i with
  | dmaWrite a s =>
    refine (decodeWire_byteOf hp .dmaWrite _).trans ?_
    simp [decodeWireFields, bytes24, bytes16, be24_bytes, be16_bytes]
  | dmaRead a s =>
    refine (decodeWire_byteOf hp .dmaRead _).trans ?_
    simp [decodeWireFields, bytes24, bytes16, be24_bytes, be16_bytes]
  | internalWrite c a d =>
    obtain ⟨b1, b0, hbytes, rfl, rfl⟩ := be16_internalAddress c a
    refine (decodeWire_byteOf hp .internalWrite _).trans ?_
    rw [hbytes]
    simp [decodeWireFields, bytes32, be32_bytes]
  | internalRead c a =>
    obtain ⟨b1, b0, hbytes, rfl, rfl⟩ := be16_internalAddress c a
    refine (decodeWire_byteOf hp .internalRead _).trans ?_
    rw [hbytes]
    simp [decodeWireFields]
  | terminate => exact decodeWire_byteOf hp .terminate _
  | repeatLast => exact decodeWire_byteOf hp .repeatLast _
  | dmaExtWrite a s =>
    refine (decodeWire_byteOf hp .dmaExtWrite _).trans ?_
    simp [decodeWireFields, bytes24, be24_bytes]
  | dmaExtRead a s =>
    refine (decodeWire_byteOf hp .dmaExtRead _).trans ?_
    simp [decodeWireFields, bytes24, be24_bytes]
  | singleWrite a d =>
    refine (decodeWire_byteOf hp .singleWrite _).trans ?_
    simp [decodeWireFields, bytes24, bytes32, be24_bytes, be32_bytes]
  | singleRead a =>
    refine (decodeWire_byteOf hp .singleRead _).trans ?_
    simp [decodeWireFields, bytes24, be24_bytes]
  | resetPeer => exact decodeWire_byteOf hp .reset _
  | _ => cases h

/-- The host operations: the operands are read one behind the other. -/
theorem decodeHost_encode {p : Params} {i : Instr} (hwf : i.wf p = true) (h : (encode p i).chan = .host) :
    decodeHost (encode p i).bytes = .ok (i, []) := by
  cases i with
  | rdreg a => simp [encode, decodeHost]
  | wrreg a d => simp [encode, decodeHost]
  | rdblk a n => simp [encode, decodeHost, readNat_end (fitsLength_iff.mp hwf)]
  | wrblk a b => simp [encode, decodeHost, readBytes_end (fitsLength_iff.mp hwf)]
  | hsend hd d c =>
    simp only [Instr.wf, Bool.and_eq_true, fitsLength_iff] at hwf
    simp [encode, decodeHost, readBytes_seqBytes hwf.1, readBytes_end hwf.2]
  | hisr m => cases m <;> simp [encode, decodeHost]
  | hrecv a n => simp [encode, decodeHost, readNat_end (fitsLength_iff.mp hwf)]
  | hfin => rfl
  | crcoff => rfl
  | breset => rfl
  | _ => cases h

/-- The seven CRC bits travel in the low bits of a byte. -/
theorem crcOperand : ∀ c : BitVec 7, (c.setWidth 8).getLsbD 7 = false ∧ (c.setWidth 8).setWidth 7 = c := by decide

/-- The pure functions. -/
theorem decodePure_encode {p : Params} {i : Instr} (hwf : i.wf p = true) (h : (encode p i).chan = .pure) :
    decodePure (encode p i).bytes = .ok (i, []) := by
  cases i with
  | encodeCmd op a d z k => simp [encode, decodePure]
  | crc7 c b => simp [encode, decodePure, readBytes_end (fitsLength_iff.mp hwf), crcOperand c]
  | checkByte b => simp [encode, decodePure, readBytes_end (fitsLength_iff.mp hwf)]
  | crc7Valid b => simp [encode, decodePure, readBytes_end (fitsLength_iff.mp hwf)]
  | hdrNew g o n => simp [encode, decodePure, readNat_end (fitsLength_iff.mp hwf)]
  | hdrToBytes hd => simp [encode, decodePure]
  | hdrFromBytes b => simp [encode, decodePure, readBytes_end (fitsLength_iff.mp hwf)]
  | hdrPack hd => simp [encode, decodePure]
  | hdrUnpack w => simp [encode, decodePure]
  | _ => cases h

/-- The eight bytes of a packet header are read back, and classified (R94). -/
theorem decodePacket_packetBytes (p : Params) (g o : Byte) (l : BitVec 16) :
    decodePacket p (packetBytes g o l) = .ok (classifyHeader p ⟨g, o, l⟩, []) := by
  simp only [packetBytes, decodePacket, be16_bytes]

/-- The inbound packets: each header is classified as the row it was written from (R103 to R105). -/
theorem decodePacket_encode {p : Params} (hg : p.gidWifi ≠ p.gidIp) (ho : p.handledOpcodes.Nodup) {i : Instr}
    (hwf : i.wf p = true) (h : (encode p i).chan = .packet) : decodePacket p (encode p i).bytes = .ok (i, []) := by
  simp only [Params.handledOpcodes, List.nodup_cons, List.mem_cons, List.not_mem_nil, or_false, not_or] at ho
  obtain ⟨⟨hcs, hci, hcr⟩, ⟨hsi, hsr⟩, hir, -⟩ := ho
  cases i with
  | hifConState l => exact (decodePacket_packetBytes ..).trans (by simp [classifyHeader])
  | hifSysTime l => exact (decodePacket_packetBytes ..).trans (by simp [classifyHeader, Ne.symm hcs])
  | hifConnInfo l => exact (decodePacket_packetBytes ..).trans (by simp [classifyHeader, Ne.symm hci, Ne.symm hsi])
  | hifScanResult l =>
    exact (decodePacket_packetBytes ..).trans (by simp [classifyHeader, Ne.symm hcr, Ne.symm hsr, Ne.symm hir])
  | hifWifiOther o l =>
    have hother : o ∉ p.handledOpcodes := by simpa [Instr.wf] using hwf
    simp only [Params.handledOpcodes, List.mem_cons, List.not_mem_nil, or_false, not_or] at hother
    exact (decodePacket_packetBytes ..).trans (by simp [classifyHeader, hother])
  | hifIpAny o l => exact (decodePacket_packetBytes ..).trans (by simp [classifyHeader, Ne.symm hg])
  | hifUnknownGroup g o l =>
    have hgroup : g ≠ p.gidWifi ∧ g ≠ p.gidIp := by simpa [Instr.wf] using hwf
    exact (decodePacket_packetBytes ..).trans (by simp [classifyHeader, hgroup])
  | _ => cases h

/-- A marker is no completion byte, has the high nibble of markers, and carries its four bits (R92). -/
theorem marker_byte : ∀ x : BitVec 4, (0xF : BitVec 4) ++ x ≠ Config.writeDone ∧
    ((0xF : BitVec 4) ++ x) &&& 0xF0 = (0xF0 : Byte) ∧ ((0xF : BitVec 4) ++ x).setWidth 4 = x := by decide

theorem decodeTokenIn_encode {p : Params} {i : Instr} (h : (encode p i).chan = .tokenIn) :
    decodeTokenIn (encode p i).bytes = .ok (i, []) := by
  cases i with
  | writeDone => rfl
  | readMarker x =>
    obtain ⟨hne, hhigh, hlow⟩ := marker_byte x
    simp only [encode, decodeTokenIn]
    rw [if_neg hne, if_pos hhigh, hlow]
  | _ => cases h

theorem decodeTokenOut_encode {p : Params} {i : Instr} (h : (encode p i).chan = .tokenOut) :
    decodeTokenOut (encode p i).bytes = .ok (i, []) := by
  cases i with
  | dataMark => rfl
  | _ => cases h

/-- Settles O1, channel by channel: distinct opcode bytes and group ids tell the commands and the packets apart, lengths
below 2^32 are read back. -/
theorem decodeOfEncode : Obligations.DecodeOfEncode := by
  intro p i hp hwf
  refine decode_of_prefix ?_
  cases hchan : (encode p i).chan with
  | wire => exact decodeWire_encode hp.opcodesDistinct hchan
  | host => exact decodeHost_encode hwf hchan
  | pure => exact decodePure_encode hwf hchan
  | packet => exact decodePacket_encode hp.gidsDistinct hp.handledDistinct hwf hchan
  | tokenOut => exact decodeTokenOut_encode hchan
  | tokenIn => exact decodeTokenIn_encode hchan

/-! ## What an operand was read from -/

/-- Reading goes on only behind a value that was read. -/
theorem onRead_eq_ok {α β : Type} {x : Reads α} {f : α → List Byte → Reads β} {y : β × List Byte} :
    onRead x f = .ok y ↔ ∃ a r, x = .ok (a, r) ∧ f a r = .ok y := by
  rcases x with e | ⟨a, r⟩
  · exact ⟨fun h => (by cases h), fun ⟨_, _, h, _⟩ => (by cases h)⟩
  · exact ⟨fun h => ⟨a, r, rfl, h⟩, fun ⟨_, _, hx, h⟩ => (by cases hx; exact h)⟩

section
variable {t r : List Byte}

theorem readByte_eq_ok {b : Byte} (h : readByte t = .ok (b, r)) : t = b :: r := by
  cases t with
  | nil => cases h
  | cons => cases h; rfl

theorem readWord_eq_ok {v : Word} (h : readWord t = .ok (v, r)) : t = bytes32 v ++ r := by
  unfold readWord at h
  split at h
  · cases h
    rw [bytes32_be32]
    rfl
  · cases h

theorem readNat_eq_ok {n : Nat} (h : readNat t = .ok (n, r)) : n < 2 ^ 32 ∧ t = lengthBytes n ++ r := by
  obtain ⟨v, r', hv, hn⟩ := onRead_eq_ok.mp h
  cases hn
  refine ⟨v.isLt, ?_⟩
  rw [lengthBytes, BitVec.ofNat_toNat, BitVec.setWidth_eq]
  exact readWord_eq_ok hv

theorem readBytes_eq_ok {b : List Byte} (h : readBytes t = .ok (b, r)) : b.length < 2 ^ 32 ∧ t = seqBytes b ++ r := by
  obtain ⟨n, r', hn, hb⟩ := onRead_eq_ok.mp h
  obtain ⟨hlt, rfl⟩ := readNat_eq_ok hn
  split at hb
  next hle =>
    cases hb
    have hlen : (r'.take n).length = n := List.length_take_of_le hle
    rw [seqBytes, hlen, List.append_assoc, List.take_append_drop]
    exact ⟨hlt, rfl⟩
  next => cases hb

theorem readHeader_eq_ok {h : HifHeader} (hr : readHeader t = .ok (h, r)) : t = headerOperand h ++ r := by
  unfold readHeader at hr
  split at hr
  · cases hr
    rw [headerOperand, bytes16_be16]
    rfl
  · cases hr

theorem readBool_eq_ok {b : Bool} (h : readBool t = .ok (b, r)) : t = boolByte b :: r := by
  obtain ⟨x, r', hx, hb⟩ := onRead_eq_ok.mp h
  obtain rfl := readByte_eq_ok hx
  split_ifs at hb with hzero hone
  · cases hb
    rw [hzero]
    rfl
  · cases hb
    rw [hone]
    rfl

/-- The number of an opcode is its place in the table. -/
theorem readOp_eq_ok {op : WireOp} (h : readOp t = .ok (op, r)) : t = op.number :: r := by
  obtain ⟨x, r', hx, hop⟩ := onRead_eq_ok.mp h
  obtain rfl := readByte_eq_ok hx
  have hnumber : x = op.number ∧ r' = r := by
    split at hop <;> cases hop <;> exact ⟨BitVec.eq_of_toNat_eq ‹_›, rfl⟩
  rw [hnumber.1, hnumber.2]

end

/-! ## Encoding what was decoded -/

/-- `i` is well formed and stands at the front of the bytes `t` of the channel, with `r` behind it. -/
def Written (p : Params) (i : Instr) (chan : Channel) (t r : List Byte) : Prop :=
  i.wf p = true ∧ (encode p i).chan = chan ∧ t = (encode p i).bytes ++ r

/-- The wire commands: each form is written from the fields read from it. -/
theorem decodeWireFields_written (p : Params) {op : WireOp} {i : Instr} {t r : List Byte}
    (h : decodeWireFields op t = .ok (i, r)) : Written p i .wire (p.opc.byteOf op :: t) r := by
  unfold decodeWireFields at h
  split at h
  next => cases h; exact ⟨rfl, rfl, by simp [encode, Opcodes.byteOf, bytes24_be24, bytes16_be16]⟩
  next => cases h; exact ⟨rfl, rfl, by simp [encode, Opcodes.byteOf, bytes24_be24, bytes16_be16]⟩
  next => cases h; exact ⟨rfl, rfl, by simp only [encode, internalAddress_be16, bytes32_be32]; rfl⟩
  next =>
    split_ifs at h with hz
    cases h
    exact ⟨rfl, rfl, by simp only [encode, internalAddress_be16, hz]; rfl⟩
  next =>
    split_ifs at h with hz
    cases h
    obtain ⟨rfl, rfl, rfl⟩ := hz
    exact ⟨rfl, rfl, rfl⟩
  next =>
    split_ifs at h with hz
    cases h
    obtain ⟨rfl, rfl, rfl⟩ := hz
    exact ⟨rfl, rfl, rfl⟩
  next => cases h; exact ⟨rfl, rfl, by simp [encode, Opcodes.byteOf, bytes24_be24]⟩
  next => cases h; exact ⟨rfl, rfl, by simp [encode, Opcodes.byteOf, bytes24_be24]⟩
  next => cases h; exact ⟨rfl, rfl, by simp [encode, Opcodes.byteOf, bytes24_be24, bytes32_be32]⟩
  next => cases h; exact ⟨rfl, rfl, by simp [encode, Opcodes.byteOf, bytes24_be24]⟩
  next =>
    split_ifs at h with hz
    cases h
    obtain ⟨rfl, rfl, rfl⟩ := hz
    exact ⟨rfl, rfl, rfl⟩
  next => cases h

theorem decodeWire_written {p : Params} {i : Instr} {t r : List Byte} (h : decodeWire p t = .ok (i, r)) :
    Written p i .wire t r := by
  cases t with
  | nil => cases h
  | cons b t =>
    simp only [decodeWire] at h
    split at h
    next op hop =>
      rw [byteOf_of_opOf hop]
      exact decodeWireFields_written p h
    next => cases h

/-- The host operations: the selector, then the operands one behind the other. -/
theorem decodeHost_written {p : Params} {i : Instr} {t r : List Byte} (h : decodeHost t = .ok (i, r)) :
    Written p i .host t r := by
  cases t with
  | nil => cases h
  | cons sel t =>
    simp only [decodeHost] at h
    split at h
    next hsel =>
      obtain rfl : sel = 0 := BitVec.eq_of_toNat_eq hsel
      obtain ⟨a, r1, ha, hret⟩ := onRead_eq_ok.mp h
      cases hret
      exact ⟨rfl, rfl, by rw [readWord_eq_ok ha]; rfl⟩
    next hsel =>
      obtain rfl : sel = 1 := BitVec.eq_of_toNat_eq hsel
      obtain ⟨a, r1, ha, h⟩ := onRead_eq_ok.mp h
      obtain ⟨d, r2, hd, hret⟩ := onRead_eq_ok.mp h
      cases hret
      exact ⟨rfl, rfl, by rw [readWord_eq_ok ha, readWord_eq_ok hd]; rfl⟩
    next hsel =>
      obtain rfl : sel = 2 := BitVec.eq_of_toNat_eq hsel
      obtain ⟨a, r1, ha, h⟩ := onRead_eq_ok.mp h
      obtain ⟨n, r2, hn, hret⟩ := onRead_eq_ok.mp h
      cases hret
      obtain ⟨hlt, rfl⟩ := readNat_eq_ok hn
      exact ⟨fitsLength_iff.mpr hlt, rfl, by rw [readWord_eq_ok ha]; rfl⟩
    next hsel =>
      obtain rfl : sel = 3 := BitVec.eq_of_toNat_eq hsel
      obtain ⟨a, r1, ha, h⟩ := onRead_eq_ok.mp h
      obtain ⟨b, r2, hb, hret⟩ := onRead_eq_ok.mp h
      cases hret
      obtain ⟨hlt, rfl⟩ := readBytes_eq_ok hb
      exact ⟨fitsLength_iff.mpr hlt, rfl, by rw [readWord_eq_ok ha]; simp [encode]⟩
    next hsel =>
      obtain rfl : sel = 4 := BitVec.eq_of_toNat_eq hsel
      obtain ⟨hd, r1, hh, h⟩ := onRead_eq_ok.mp h
      obtain ⟨d, r2, hd, h⟩ := onRead_eq_ok.mp h
      obtain ⟨c, r3, hc, hret⟩ := onRead_eq_ok.mp h
      cases hret
      obtain ⟨hltd, rfl⟩ := readBytes_eq_ok hd
      obtain ⟨hltc, rfl⟩ := readBytes_eq_ok hc
      refine ⟨?_, rfl, by rw [readHeader_eq_ok hh]; simp [encode]⟩
      simp only [Instr.wf, fitsLength_iff.mpr hltd, fitsLength_iff.mpr hltc, Bool.and_self]
    next hsel =>
      obtain rfl : sel = 5 := BitVec.eq_of_toNat_eq hsel
      obtain ⟨b, r1, hb, hret⟩ := onRead_eq_ok.mp h
      cases hret
      exact ⟨rfl, rfl, by rw [readBool_eq_ok hb]; cases b <;> rfl⟩
    next hsel =>
      obtain rfl : sel = 6 := BitVec.eq_of_toNat_eq hsel
      obtain ⟨a, r1, ha, h⟩ := onRead_eq_ok.mp h
      obtain ⟨n, r2, hn, hret⟩ := onRead_eq_ok.mp h
      cases hret
      obtain ⟨hlt, rfl⟩ := readNat_eq_ok hn
      exact ⟨fitsLength_iff.mpr hlt, rfl, by rw [readWord_eq_ok ha]; rfl⟩
    next hsel =>
      obtain rfl : sel = 7 := BitVec.eq_of_toNat_eq hsel
      cases h
      exact ⟨rfl, rfl, rfl⟩
    next hsel =>
      obtain rfl : sel = 8 := BitVec.eq_of_toNat_eq hsel
      cases h
      exact ⟨rfl, rfl, rfl⟩
    next hsel =>
      obtain rfl : sel = 9 := BitVec.eq_of_toNat_eq hsel
      cases h
      exact ⟨rfl, rfl, rfl⟩
    next => cases h

/-- A byte with bit 7 clear is the operand of its low seven bits. -/
theorem crcOperand_of_clear : ∀ c : Byte, c.getLsbD 7 = false → (c.setWidth 7).setWidth 8 = c := by decide

/-- The pure functions. -/
theorem decodePure_written {p : Params} {i : Instr} {t r : List Byte} (h : decodePure t = .ok (i, r)) :
    Written p i .pure t r := by
  cases t with
  | nil => cases h
  | cons sel t =>
    simp only [decodePure] at h
    split at h
    next hsel =>
      obtain rfl : sel = 0 := BitVec.eq_of_toNat_eq hsel
      obtain ⟨op, r1, hop, h⟩ := onRead_eq_ok.mp h
      obtain ⟨a, r2, ha, h⟩ := onRead_eq_ok.mp h
      obtain ⟨d, r3, hd, h⟩ := onRead_eq_ok.mp h
      obtain ⟨z, r4, hz, h⟩ := onRead_eq_ok.mp h
      obtain ⟨k, r5, hk, hret⟩ := onRead_eq_ok.mp h
      cases hret
      refine ⟨rfl, rfl, ?_⟩
      rw [readOp_eq_ok hop, readWord_eq_ok ha, readWord_eq_ok hd, readWord_eq_ok hz, readBool_eq_ok hk]
      simp [encode]
    next hsel =>
      obtain rfl : sel = 1 := BitVec.eq_of_toNat_eq hsel
      obtain ⟨c, r1, hc, h⟩ := onRead_eq_ok.mp h
      obtain ⟨b, r2, hb, hret⟩ := onRead_eq_ok.mp h
      split_ifs at hret with htop
      cases hret
      obtain ⟨hlt, rfl⟩ := readBytes_eq_ok hb
      refine ⟨fitsLength_iff.mpr hlt, rfl, ?_⟩
      rw [readByte_eq_ok hc]
      simp only [encode, crcOperand_of_clear c (by simpa using htop)]
      rfl
    next hsel =>
      obtain rfl : sel = 2 := BitVec.eq_of_toNat_eq hsel
      obtain ⟨b, r1, hb, hret⟩ := onRead_eq_ok.mp h
      cases hret
      obtain ⟨hlt, rfl⟩ := readBytes_eq_ok hb
      exact ⟨fitsLength_iff.mpr hlt, rfl, rfl⟩
    next hsel =>
      obtain rfl : sel = 3 := BitVec.eq_of_toNat_eq hsel
      obtain ⟨b, r1, hb, hret⟩ := onRead_eq_ok.mp h
      cases hret
      obtain ⟨hlt, rfl⟩ := readBytes_eq_ok hb
      exact ⟨fitsLength_iff.mpr hlt, rfl, rfl⟩
    next hsel =>
      obtain rfl : sel = 4 := BitVec.eq_of_toNat_eq hsel
      obtain ⟨g, r1, hg, h⟩ := onRead_eq_ok.mp h
      obtain ⟨o, r2, ho, h⟩ := onRead_eq_ok.mp h
      obtain ⟨n, r3, hn, hret⟩ := onRead_eq_ok.mp h
      cases hret
      obtain ⟨hlt, rfl⟩ := readNat_eq_ok hn
      exact ⟨fitsLength_iff.mpr hlt, rfl, by rw [readByte_eq_ok hg, readByte_eq_ok ho]; rfl⟩
    next hsel =>
      obtain rfl : sel = 5 := BitVec.eq_of_toNat_eq hsel
      obtain ⟨hd, r1, hh, hret⟩ := onRead_eq_ok.mp h
      cases hret
      exact ⟨rfl, rfl, by rw [readHeader_eq_ok hh]; rfl⟩
    next hsel =>
      obtain rfl : sel = 6 := BitVec.eq_of_toNat_eq hsel
      obtain ⟨b, r1, hb, hret⟩ := onRead_eq_ok.mp h
      cases hret
      obtain ⟨hlt, rfl⟩ := readBytes_eq_ok hb
      exact ⟨fitsLength_iff.mpr hlt, rfl, rfl⟩
    next hsel =>
      obtain rfl : sel = 7 := BitVec.eq_of_toNat_eq hsel
      obtain ⟨hd, r1, hh, hret⟩ := onRead_eq_ok.mp h
      cases hret
      exact ⟨rfl, rfl, by rw [readHeader_eq_ok hh]; rfl⟩
    next hsel =>
      obtain rfl : sel = 8 := BitVec.eq_of_toNat_eq hsel
      obtain ⟨w, r1, hw, hret⟩ := onRead_eq_ok.mp h
      cases hret
      exact ⟨rfl, rfl, by rw [readWord_eq_ok hw]; rfl⟩
    next => cases h

theorem decodeTokenOut_written {p : Params} {i : Instr} {t r : List Byte} (h : decodeTokenOut t = .ok (i, r)) :
    Written p i .tokenOut t r := by
  cases t with
  | nil => cases h
  | cons b t =>
    simp only [decodeTokenOut] at h
    split_ifs at h with hmark
    cases h
    exact ⟨rfl, rfl, by rw [hmark]; rfl⟩

/-- A byte with the high nibble of markers is the marker of its low nibble (R92). -/
theorem marker_of_high : ∀ b : Byte, b &&& 0xF0 = 0xF0 → (0xF : BitVec 4) ++ b.setWidth 4 = b := by decide

theorem decodeTokenIn_written {p : Params} {i : Instr} {t r : List Byte} (h : decodeTokenIn t = .ok (i, r)) :
    Written p i .tokenIn t r := by
  cases t with
  | nil => cases h
  | cons b t =>
    simp only [decodeTokenIn] at h
    split_ifs at h with hdone hmarker
    · cases h
      exact ⟨rfl, rfl, by rw [hdone]; rfl⟩
    · cases h
      exact ⟨rfl, rfl, by simp only [encode, marker_of_high b hmarker]; rfl⟩

/-- A classified header is well formed, and written as the header it was (R99, R103 to R105). -/
theorem classifyHeader_written (p : Params) (h : HifHeader) : (classifyHeader p h).wf p = true ∧
    encode p (classifyHeader p h) = ⟨.packet, packetBytes h.groupId h.opcode h.length⟩ := by
  unfold classifyHeader
  split_ifs with hwifi hcon hsys hinfo hscan hip
  · exact ⟨rfl, by rw [hwifi, hcon]; rfl⟩
  · exact ⟨rfl, by rw [hwifi, hsys]; rfl⟩
  · exact ⟨rfl, by rw [hwifi, hinfo]; rfl⟩
  · exact ⟨rfl, by rw [hwifi, hscan]; rfl⟩
  · exact ⟨by simp [Instr.wf, Params.handledOpcodes, hcon, hsys, hinfo, hscan], by rw [hwifi]; rfl⟩
  · exact ⟨rfl, by rw [hip]; rfl⟩
  · exact ⟨by simp [Instr.wf, hwifi, hip], rfl⟩

/-- A whole packet: its first four bytes are the header's, the other four stand for nothing (R94, R99(e)). -/
theorem decodePacket_written {p : Params} {i : Instr} {t : List Byte} (h : decodePacket p t = .ok (i, [])) :
    i.wf p = true ∧ (encode p i).chan = .packet ∧ t.length = 8 ∧ (encode p i).bytes = t.take 4 ++ [0, 0, 0, 0] := by
  unfold decodePacket at h
  split at h
  next g o l0 l1 b4 b5 b6 b7 r =>
    cases h
    obtain ⟨hwf, hencode⟩ := classifyHeader_written p ⟨g, o, be16 l1 l0⟩
    rw [hencode]
    have hlength : bytes16 (be16 l1 l0) = [l1, l0] := bytes16_be16 l1 l0
    simp only [bytes16, List.cons.injEq, and_true] at hlength
    exact ⟨hwf, rfl, rfl, by simp only [packetBytes, hlength.1, hlength.2]; rfl⟩
  next => cases h

/-- What decodes was read whole. -/
theorem decodePrefix_of_decode {p : Params} {r : Request} {i : Instr} (h : decode p r = .ok i) :
    decodePrefix p r.chan r.bytes = .ok (i, []) := by
  unfold decode at h
  split at h
  next heq => cases h; exact heq
  next => cases h
  next => cases h

/-- An instruction that is a request whole encodes to it. -/
theorem Written.encode_eq {p : Params} {i : Instr} {r : Request} (h : Written p i r.chan r.bytes []) :
    encode p i = r := by
  obtain ⟨-, hchan, hbytes⟩ := h
  rw [List.append_nil] at hbytes
  exact congrArg₂ Request.mk hchan hbytes.symm

/-- Settles O2, channel by channel; a packet's last four bytes are the ones the encoder sets to zero. -/
theorem encodeOfDecode : Obligations.EncodeOfDecode := by
  intro p r i h
  have hread := decodePrefix_of_decode h
  have whole : r.chan ≠ .packet → Written p i r.chan r.bytes [] → i.wf p = true ∧ (encode p i).chan = r.chan ∧
      (r.chan ≠ .packet → encode p i = r) ∧
      (r.chan = .packet → r.bytes.length = 8 ∧ (encode p i).bytes = r.bytes.take 4 ++ [0, 0, 0, 0]) :=
    fun hne hw => ⟨hw.1, hw.2.1, fun _ => hw.encode_eq, fun heq => absurd heq hne⟩
  obtain ⟨chan, bytes⟩ := r
  cases chan with
  | wire => exact whole nofun (decodeWire_written hread)
  | host => exact whole nofun (decodeHost_written hread)
  | pure => exact whole nofun (decodePure_written hread)
  | tokenOut => exact whole nofun (decodeTokenOut_written hread)
  | tokenIn => exact whole nofun (decodeTokenIn_written hread)
  | packet =>
    obtain ⟨hwf, hchan, hlen, hbytes⟩ := decodePacket_written hread
    exact ⟨hwf, hchan, fun hne => absurd rfl hne, fun _ => ⟨hlen, hbytes⟩⟩

/-! ## Words of the spec, and what no instruction is -/

/-- Settles O3, by evaluation. -/
theorem specWordsDecode : Obligations.SpecWordsDecode := by
  unfold Obligations.SpecWordsDecode
  decide

/-- An `op_sel` of 0xA and above is undefined (R100). -/
theorem decodeHost_of_le {sel : Byte} (h : 0xA ≤ sel.toNat) (t : List Byte) :
    decodeHost (sel :: t) = .error (.undefinedOpSel sel) := by
  obtain ⟨k, hk⟩ := Nat.exists_eq_add_of_le' h
  simp only [decodeHost, hk]

/-- Settles O5: neither has an opcode to decode to, and a step refuses what does not decode. -/
theorem stepRefusesNonInstructions : Obligations.StepRefusesNonInstructions := by
  refine ⟨fun s b t rest hb hport => ?_, fun s sel t rest hsel hport => ?_, fun s => step_of_empty⟩
  · refine step_of_error hport ?_
    simp only [decode, decodePrefix, decodeWire, opOf_of_not_mem hb]
  · refine step_of_error hport ?_
    simp only [decode, decodePrefix, decodeHost_of_le hsel]

end Sys2Proof.Machine

/-! What is settled before a transfer: the check byte (40_crc7.md), the bytes of every command (41_spi_commands.md), the
headers (43_hif_header.md), the tokens, and the requests the port refuses. -/

namespace Sys2Proof.Machine

open Sys2Proof

/-! ## The check byte and the validator -/

/-- The check byte is the CRC in bits 7:1 (R123). -/
theorem checkByte_toNat (poly : BitVec 7) (cmd : List Byte) :
    (checkByte poly cmd).toNat = 2 * (crc7 poly 0x7F cmd).toNat := by
  unfold checkByte Config.crc7Init
  bv_omega

/-- The validator looks at the last byte and those before it (R124). -/
theorem crc7Valid_append (poly : BitVec 7) (cmd : List Byte) (last : Byte) :
    crc7Valid poly (cmd ++ [last]) = decide (last.toNat = 2 * (crc7 poly 0x7F cmd).toNat) := by
  simp only [crc7Valid, List.getLast?_concat, List.dropLast_concat]
  rw [← checkByte_toNat, Bool.eq_iff_iff, beq_iff_eq, decide_eq_true_eq, BitVec.toNat_inj]

theorem exec_crc7Valid_append (cmd : List Byte) (last : Byte) (s : State) : exec (.crc7Valid (cmd ++ [last])) s =
    .next (s.answered (.bool (decide (last.toNat = 2 * (crc7 s.params.crc7Poly 0x7F cmd).toNat)))) := by
  have hne : cmd ++ [last] ≠ [] := by simp
  show answer (.bool (if cmd ++ [last] = [] then _ else crc7Valid s.params.crc7Poly (cmd ++ [last]))) s = _
  rw [if_neg hne, crc7Valid_append]
  rfl

/-- Settles O12: an odd last byte is twice no CRC. -/
theorem checkByteAndValidator : Obligations.CheckByteAndValidator := by
  refine ⟨fun cmd s => ⟨_, rfl, checkByte_toNat ..⟩, exec_crc7Valid_append, fun cmd last s hodd => ?_, fun s => ⟨_, rfl⟩⟩
  have hbit : last.toNat % 2 = 1 := by simpa [BitVec.getLsbD, Nat.testBit_zero] using hodd
  have hne : last.toNat ≠ 2 * (crc7 s.params.crc7Poly 0x7F cmd).toNat := by omega
  rw [exec_crc7Valid_append, decide_eq_false hne]

/-! ## Frames -/

/-- A frame is the command's body and, when `crc_on`, its check byte (R85, R130). -/
theorem encodeFrame_eq (s : State) (op : WireOp) (a d z : Word) (k : Bool) : encodeFrame s op a d z k =
    body s.params op a d z k ++
      if crcOn s = true then [checkByte s.params.crc7Poly (body s.params op a d z k)] else [] := by
  unfold encodeFrame withCheck
  split <;> simp

theorem encodeFrame_of_crcOn {s : State} (h : crcOn s = true) (op : WireOp) (a d z : Word) (k : Bool) :
    encodeFrame s op a d z k = body s.params op a d z k ++ [checkByte s.params.crc7Poly (body s.params op a d z k)] := by
  rw [encodeFrame_eq, if_pos h]

/-- Every body has the length of its shape (R80, R86). -/
theorem body_length (p : Params) (op : WireOp) (a d z : Word) (k : Bool) :
    (body p op a d z k).length = lenOf op := by cases op <;> rfl

/-- A frame with its check byte passes the validator (R144). -/
theorem crc7Valid_encodeFrame {s : State} (h : crcOn s = true) (op : WireOp) (a d z : Word) (k : Bool) :
    crc7Valid s.params.crc7Poly (encodeFrame s op a d z k) = true := by
  rw [encodeFrame_of_crcOn h, crc7Valid_append, ← checkByte_toNat, decide_eq_true_eq]

/-- Settles O13. -/
theorem encodeSelfCheck : Obligations.EncodeSelfCheck := by
  intro s op a d z k
  refine ⟨lenOf op, by cases op <;> decide, fun h => ⟨crc7Valid_encodeFrame h .., ?_⟩, fun h => ?_⟩
  · rw [encodeFrame_of_crcOn h, List.length_append, body_length]
    rfl
  · rw [encodeFrame_of_crcOff h, body_length]

/-- A frame on the result port (R80, R85). -/
theorem answer_encodeFrame (s : State) (op : WireOp) (a d z : Word) (k : Bool) :
    answer (.bytes (encodeFrame s op a d z k)) s = .next (s.framed (body s.params op a d z k)) := by
  rw [encodeFrame_eq]
  rfl

/-- A byte of a value is its bits from `8 k` on. -/
theorem byteAt_eq_extractLsb' {w : Nat} (v : BitVec w) (k : Nat) : byteAt v k = v.extractLsb' (8 * k) 8 := by
  apply BitVec.eq_of_getLsbD_eq
  intro i hi
  simp only [getLsbD_byteAt, BitVec.getLsbD_extractLsb']

/-- Truncating or widening a value keeps the bytes that lie in both. -/
theorem byteAt_setWidth {w n k : Nat} (v : BitVec w) (h : 8 * k + 8 ≤ n) : byteAt (v.setWidth n) k = byteAt v k := by
  apply BitVec.eq_of_getLsbD_eq
  intro i hi
  have hin : 8 * k + i < n := by omega
  simp only [getLsbD_byteAt, BitVec.getLsbD_setWidth, hin, decide_true, Bool.true_and]

/-- Byte 1 of the 16-bit forms is the clockless bit, merged with `address[15]`, and `address[14:8]` (R87). -/
theorem clocklessByte_eq (a : Word) (k : Bool) :
    clocklessByte a k = byteAt (BitVec.ofBool (k || a.getLsbD 15) ++ a.setWidth 15) 1 := by
  have hmerge : clocklessByte a k = byteAt a 1 ||| if k = true then BitVec.twoPow 8 7 else 0 := by
    cases k
    · exact BitVec.or_zero.symm
    · rfl
  rw [hmerge]
  apply BitVec.eq_of_getLsbD_eq
  intro i hi
  simp only [BitVec.getLsbD_or, getLsbD_byteAt, BitVec.getLsbD_append, BitVec.getLsbD_setWidth]
  by_cases htop : i = 7
  · subst htop
    cases k <;> simp
  · have hlow : 8 * 1 + i < 15 := by omega
    cases k <;> simp [hlow, hi, htop]

theorem byteAt_zero_internal (c : Bool) (a : Word) : byteAt (BitVec.ofBool c ++ a.setWidth 15) 0 = byteAt a 0 := by
  apply BitVec.eq_of_getLsbD_eq
  intro i hi
  have hlow : 8 * 0 + i < 15 := by omega
  simp only [getLsbD_byteAt, BitVec.getLsbD_append, BitVec.getLsbD_setWidth, hlow]
  simp

/-- The body ENCODE writes is the encoding of the command its operands stand for (R131 to R142). -/
theorem body_eq_encode (p : Params) (op : WireOp) (a d z : Word) (k : Bool) :
    encode p (wireInstr a d z k op) = ⟨.wire, body p op a d z k⟩ := by
  cases op <;>
    simp [encode, wireInstr, body, opc, Opcodes.byteOf, bytes24, bytes16, bytes32, address24, data32, byteAt_setWidth,
      internalAddress, clocklessByte_eq, byteAt_zero_internal]

/-- Settles O14: the body is the encoding of that command, and decodes to it. -/
theorem encodeTruncates : Obligations.EncodeTruncates := by
  intro s op a d z k hp
  refine ⟨body s.params op a d z k, answer_encodeFrame .., ?_⟩
  rw [← body_eq_encode]
  exact decodeOfEncode _ _ hp (by cases op <;> rfl)

/-! ## The wire commands -/

/-- Byte 1 of the 16-bit forms from the two fields of the command (R134, R135). -/
theorem clocklessByte_setWidth (c : Bool) (a : BitVec 15) :
    clocklessByte (a.setWidth 32) c = BitVec.ofBool c ++ a.extractLsb' 8 7 := by
  have hfields : BitVec.ofBool (c || (a.setWidth 32).getLsbD 15) ++ (a.setWidth 32).setWidth 15 =
      BitVec.ofBool c ++ a := by simp
  rw [clocklessByte_eq, hfields]
  apply BitVec.eq_of_getLsbD_eq
  intro i hi
  simp only [getLsbD_byteAt, BitVec.getLsbD_append, BitVec.getLsbD_extractLsb']
  by_cases htop : i = 7
  · subst htop
    simp
  · have hlow : 8 * 1 + i < 15 ∧ i < 7 := by omega
    simp [hlow, hi]

/-- Settles O15: the bodies of the eleven commands, each byte the bits of its field. -/
theorem wireCommandFrames : Obligations.WireCommandFrames := by
  have frame : ∀ {s : State} {op : WireOp} {a d z : Word} {k : Bool} {b : List Byte}, body s.params op a d z k = b →
      answer (.bytes (encodeFrame s op a d z k)) s = .next (s.framed b) := fun h => h ▸ answer_encodeFrame ..
  have split : ∀ {w : Nat} (v : BitVec w) (k : Nat), 8 * k + 8 ≤ 32 →
      byteAt (v.setWidth 32) k = v.extractLsb' (8 * k) 8 := fun v k hk => by
    rw [byteAt_setWidth v hk, byteAt_eq_extractLsb']
  intro s
  refine ⟨fun a z => frame ?_, fun a z => frame ?_, fun c a d => frame ?_, fun c a => frame ?_, frame rfl, frame rfl,
    fun a z => frame ?_, fun a z => frame ?_, fun a d => frame ?_, fun a => frame ?_, frame rfl⟩
  all_goals simp [body, opc, Opcodes.byteOf, address24, data32, split, byteAt_eq_extractLsb', clocklessByte_setWidth]

/-! ## Headers, status codes, tokens -/

theorem be16_toNat (b1 b0 : Byte) : (be16 b1 b0).toNat = b0.toNat + 256 * b1.toNat := by
  have hlow : b0.toNat < 2 ^ 8 := b0.isLt
  rw [be16, BitVec.toNat_append, ← Nat.shiftLeft_add_eq_or_of_lt hlow, Nat.shiftLeft_eq]
  omega

/-- Settles O19. -/
theorem headerValues : Obligations.HeaderValues := by
  refine ⟨fun g o n s hn => ⟨_, hdrNew_length_toNat g o hn, if_pos hn⟩, fun g o n s hn => if_neg (Nat.not_le.mpr hn),
    fun h s => ?_, fun g o l0 l1 r s => ⟨be16 l1 l0, be16_toNat l1 l0, ?_⟩, fun b s hb => ⟨_, rfl⟩⟩
  · show answer (.bytes (hdrToBytes h)) s = _
    rw [hdrToBytes, byteAt_eq_extractLsb', byteAt_eq_extractLsb']
    rfl
  · have hlen : 4 ≤ (g :: o :: l0 :: l1 :: r).length := by simp
    show answer (.header (if 4 ≤ (g :: o :: l0 :: l1 :: r).length then _ else _)) s = _
    rw [if_pos hlen]
    rfl

/-- Settles O34: the cases of the decoder. -/
theorem statusCodes : Obligations.StatusCodes := by
  intro p b
  have value : ∀ {n : Nat}, (b &&& p.statusMask).toNat = n → decodeStatus p b = match n with
      | 0 => .noError
      | 1 => .unsupportedCommand
      | 2 => .unexpectedDataReceived
      | 3 => .crc7Error
      | 4 => .crc16Error
      | 5 => .internalError
      | _ => .invalidError := fun h => by rw [← h]; rfl
  refine ⟨value, value, value, value, value, value, fun h => ?_⟩
  obtain ⟨k, hk⟩ := Nat.exists_eq_add_of_le' h
  exact value hk

/-- The markers are the sixteen bytes with high nibble 0xF. -/
theorem isMarker_iff : ∀ b : Byte, isMarker b = true ↔ 0xF0 ≤ b.toNat := by decide

theorem isWriteDone_iff (b : Byte) : isWriteDone b = true ↔ b = 0xC3 := beq_iff_eq

/-- Settles O35. -/
theorem tokensComplete : Obligations.TokensComplete := by
  refine ⟨fun s x rest hs hx hm => runOp_runs hs (sendMark_runs hx).unit hm, fun s => rfl, fun low s => ?_,
    fun b => ⟨isWriteDone_iff b, isMarker_iff b⟩⟩
  have hmarker : isMarker ((0xF : BitVec 4) ++ low) = true := beq_iff_eq.mpr (marker_byte low).2.1
  show answer (.bool (isMarker ((0xF : BitVec 4) ++ low))) s = _
  rw [hmarker]
  rfl

/-! ## Requests the port refuses -/

theorem guarded_of_ne_idle {ok : Bool} {why : Refusal} {run : State → Host.Outcome State Fault Refusal} {s : State}
    (hs : s.seq ≠ .idle) : guarded ok why run s = .refused .portBusy := by
  unfold guarded
  split
  next => rfl
  next hidle => exact absurd hidle hs

theorem guarded_of_false {ok : Bool} {why : Refusal} {run : State → Host.Outcome State Fault Refusal} {s : State}
    (hs : s.seq = .idle) (hok : ok = false) : guarded ok why run s = .refused why := by
  simp [guarded, hs, hok]

/-- Settles O6: a busy port is the first reason of every guard, and of every operation. -/
theorem busyPortRefuses : Obligations.BusyPortRefuses := by
  intro i s op k hi hbusy
  have hs : s.seq ≠ .idle := by rw [hbusy]; nofun
  cases i with
  | rdreg | wrreg | hisr | hfin | crcoff | breset => exact runOp_of_ne_idle hs
  | rdblk | wrblk | hsend | hrecv => exact guarded_of_ne_idle hs
  | _ => cases hi

theorem countOk_eq_false {p : Params} {n : Nat} (h : n = 0 ∨ p.maxBlock < n) : countOk p n = false := by
  rw [Bool.eq_false_iff, Ne, countOk_iff]
  omega

/-- Settles O7: each request comes to the guard of its count. -/
theorem countsRefused : Obligations.CountsRefused := by
  intro s hs
  refine ⟨fun a n h => guarded_of_false hs (countOk_eq_false h), fun a b h => guarded_of_false hs (countOk_eq_false h),
    fun h d c hd => guarded_of_false hs (decide_eq_false (Nat.not_le.mpr hd)), fun h d c hd hc => ?_,
    fun a n hsize hlow hhigh h => guarded_of_false hs ?_⟩
  · exact (guarded_of_true hs (decide_eq_true hd)).trans (guarded_of_false hs (decide_eq_false (Nat.not_le.mpr hc)))
  · rw [inWindow_iff.mpr ⟨hsize, hlow, hhigh⟩, countOk_eq_false h]
    rfl

/-! ## The first transfer of an access -/

/-- A rule that takes back no transfer. -/
def Op.Extends {α : Type} (m : Op α) : Prop := ∀ s, s.trace <+: (m s).2.trace

theorem Op.Extends.of_link {α : Type} {n : Nat} {m : Op α} (h : ∀ {s s' r}, m s = (r, s') → LinkStep n s s') :
    m.Extends := fun s => by
  obtain ⟨ts, -, htrace⟩ := (h (s := s) rfl).trace
  exact ⟨ts, htrace.symm⟩

theorem Op.Extends.atStep {α : Type} {m : Op α} (h : m.Extends) (k : Nat) : (Op.at k m).Extends :=
  fun s => h { s with seq := s.seq.into k }

theorem Op.Extends.bind {α β : Type} {m : Op α} {f : α → Op β} (hm : m.Extends) (hf : ∀ a, (f a).Extends) :
    (m.bind f).Extends := by
  intro s
  have hfirst := hm s
  rcases hrun : m s with ⟨e | a, s'⟩ <;> rw [hrun] at hfirst
  · rw [Op.bind_of_error hrun]
    exact hfirst
  · rw [Op.bind_of_ok hrun]
    exact hfirst.trans (hf a s')

theorem Op.Extends.seq {α β : Type} {m : Op α} {n : Op β} (hm : m.Extends) (hn : n.Extends) : (m.seq n).Extends :=
  hm.bind fun _ => hn

theorem Op.Extends.ret {α : Type} (a : α) : (Op.ret a).Extends := fun _ => List.prefix_rfl

/-- The first transfer from `s` to `s'` presents the bytes `tx`, however it ends. -/
def SendsFirst (tx : List Byte) (s s' : State) : Prop := ∃ x ts, s'.trace = s.trace ++ x :: ts ∧ x.tx = tx

/-- What runs behind the first transfer leaves it the first. -/
theorem SendsFirst.bind {α β : Type} {m : Op α} {f : α → Op β} {s : State} {tx : List Byte}
    (h : SendsFirst tx s (m s).2) (hf : ∀ a, (f a).Extends) : SendsFirst tx s (m.bind f s).2 := by
  obtain ⟨x, ts, htrace, htx⟩ := h
  rcases hrun : m s with ⟨e | a, s'⟩ <;> rw [hrun] at htrace
  · rw [Op.bind_of_error hrun]
    exact ⟨x, ts, htrace, htx⟩
  · rw [Op.bind_of_ok hrun]
    obtain ⟨more, hmore⟩ := hf a s'
    exact ⟨x, ts ++ more, by rw [← hmore, htrace, List.append_assoc]; rfl, htx⟩

theorem SendsFirst.seq {α β : Type} {m : Op α} {n : Op β} {s : State} {tx : List Byte}
    (h : SendsFirst tx s (m s).2) (hn : n.Extends) : SendsFirst tx s (m.seq n s).2 := h.bind fun _ => hn

theorem xfer_sendsFirst (tx : List Byte) (s : State) : SendsFirst tx s (xfer tx s).2 := by
  obtain ⟨fin, htrace⟩ := xfer_trace tx s
  exact ⟨_, [], htrace, rfl⟩

section
variable {s t : State} (hp : t.params = s.params) (hc : t.crcDisabled = s.crcDisabled)
include hp hc

/-- The command of a block access is its first transfer (R156, R160). -/
theorem sendCommand_at_sendsFirst (op : WireOp) (a n : Nat) :
    SendsFirst (encodeFrame s op (BitVec.ofNat 32 a) 0 (BitVec.ofNat 32 n) false) t
      (Op.at 1 (sendCommand op a n) t).2 := by
  rw [← encodeFrame_congr hp hc]
  exact SendsFirst.seq (m := xfer _) (xfer_sendsFirst _ { t with seq := _, work := _ }) (.ret ())

theorem rdblk_sendsFirst (a n : Nat) :
    SendsFirst (encodeFrame s .dmaExtRead (BitVec.ofNat 32 a) 0 (BitVec.ofNat 32 n) false) t (rdblk a n t).2 := by
  rw [rdblk_eq]
  refine SendsFirst.seq (sendCommand_at_sendsFirst hp hc .dmaExtRead a n) ?_
  exact ((Op.Extends.of_link pollResponse_link).atStep 2).bind fun _ =>
    ((Op.Extends.of_link check_link).atStep 3).seq ((Op.Extends.of_link xfer_link).atStep 4)

theorem wrblk_sendsFirst (a : Nat) (b : List Byte) :
    SendsFirst (encodeFrame s .dmaExtWrite (BitVec.ofNat 32 a) 0 (BitVec.ofNat 32 b.length) false) t
      (wrblk a b t).2 := by
  rw [wrblk_eq]
  refine SendsFirst.seq (sendCommand_at_sendsFirst hp hc .dmaExtWrite a b.length) ?_
  exact ((Op.Extends.of_link pollResponse_link).atStep 2).bind fun _ =>
    ((Op.Extends.of_link check_link).atStep 3).seq ((Op.Extends.of_link sendMark_link).seq
      (((Op.Extends.of_link xfer_link).atStep 5).seq ((Op.Extends.of_link pollDone_link).atStep 6)))

end

/-- A request goes on, with the transfer of the bytes `tx` first. -/
def RequestSendsFirst (i : Instr) (s : State) (tx : List Byte) : Prop := ∃ t, exec i s = .next t ∧ SendsFirst tx s t

section
variable {s : State} {a d z : Word} {op : WireOp}

theorem exec_rdreg_sendsFirst (hs : s.seq = .idle) (hop : readOpFor a = op) :
    RequestSendsFirst (.rdreg a) s (encodeFrame s op a 0 0 (op = .internalRead) ++ zeros s.params s.params.regRspRd) := by
  obtain ⟨t, fin, hrun, htrace⟩ := exec_rdreg_trace hs a
  exact ⟨t, hrun, _, [], htrace, hop ▸ rfl⟩

theorem exec_wrreg_sendsFirst (hs : s.seq = .idle) (hop : writeOpFor a = op) : RequestSendsFirst (.wrreg a d) s
    (encodeFrame s op a d 0 (op = .internalWrite) ++ zeros s.params s.params.regRspWr) := by
  obtain ⟨t, fin, hrun, htrace⟩ := exec_wrreg_trace hs a d
  exact ⟨t, hrun, _, [], htrace, hop ▸ rfl⟩

theorem exec_rdblk_sendsFirst (hs : s.seq = .idle) (hn : 1 ≤ z.toNat ∧ z.toNat ≤ s.params.maxBlock) :
    RequestSendsFirst (.rdblk a z.toNat) s (encodeFrame s .dmaExtRead a 0 z false) := by
  have hfirst := rdblk_sendsFirst (s := s) (t := accept .rdblk (fun w => { w with address := a, count := z.toNat }) s)
    rfl rfl a.toNat z.toNat
  simp only [BitVec.ofNat_toNat, BitVec.setWidth_eq] at hfirst
  exact ⟨_, (exec_rdblk hs hn).trans (runOp_idle hs), hfirst.bind fun _ => .ret _⟩

theorem exec_wrblk_sendsFirst {b : List Byte} (hs : s.seq = .idle) (hb : 1 ≤ b.length ∧ b.length ≤ s.params.maxBlock)
    (hz : b.length = z.toNat) : RequestSendsFirst (.wrblk a b) s (encodeFrame s .dmaExtWrite a 0 z false) := by
  have hfirst := wrblk_sendsFirst (s := s) (t := accept .wrblk (fun w => { w with address := a, count := b.length }) s)
    rfl rfl a.toNat b
  simp only [hz, BitVec.ofNat_toNat, BitVec.setWidth_eq] at hfirst
  exact ⟨_, (exec_wrblk hs hb).trans (runOp_idle hs), hfirst.seq (.ret _)⟩

end

/-- Settles O25: the first transfer of each access is its command and the fill of its rule. -/
theorem accessSendsCommandFirst : Obligations.AccessSendsCommandFirst := by
  intro s i op a d z clk n hs hin hi
  have hfirst : RequestSendsFirst i s (encodeFrame s op a d z clk ++ List.replicate n s.params.fill) := by
    rcases hi with ⟨rfl, ha, rfl, rfl, rfl, rfl, rfl⟩ | ⟨rfl, ha, rfl, rfl, rfl, rfl, rfl⟩ |
      ⟨rfl, ha, rfl, rfl, rfl, rfl⟩ | ⟨rfl, ha, rfl, rfl, rfl, rfl⟩ | ⟨rfl, rfl, rfl, rfl, rfl⟩ |
      ⟨⟨b, rfl, hz⟩, rfl, rfl, rfl, rfl⟩
    · exact exec_rdreg_sendsFirst hs (readOpFor_of_le ha)
    · exact exec_rdreg_sendsFirst hs (readOpFor_of_lt ha)
    · exact exec_wrreg_sendsFirst hs (writeOpFor_of_le ha)
    · exact exec_wrreg_sendsFirst hs (writeOpFor_of_lt ha)
    · exact (List.append_nil _).symm ▸ exec_rdblk_sendsFirst hs hin
    · exact (List.append_nil _).symm ▸ exec_wrblk_sendsFirst hs hin hz
  obtain ⟨t, hrun, x, ts, htrace, htx⟩ := hfirst
  exact ⟨t, x, ts, hrun, htrace, htx, fun h => crc7Valid_encodeFrame h ..⟩

end Sys2Proof.Machine
